-- ==== Sys2Proof/Word.lean ====
section
/-!
DEFINITION. The word types of the GeSynth CORE: a register is 32 bits (10_state.md R16), a register index 8 bits (R16),
a status code 4 bits (20_memory.md R62). A binary32 value is the 32-bit word that holds its pattern (00_scope.md R9).
-/

namespace Sys2Proof

/-- A 32-bit register word; also a binary32 bit pattern (10_state.md R16, 00_scope.md R9). -/
abbrev Word := BitVec 32

/-- A register index, CMD[7:0] (10_state.md R16, 30_encoding.md R79). -/
abbrev RegIndex := BitVec 8

/-- The 4-bit STATUS of a response (20_memory.md R62). -/
abbrev StatusCode := BitVec 4

end Sys2Proof
end

