-- ==== Sys2Proof/Config.lean ====
section
/-!
DEFINITION. What the spec leaves open (00_scope.md R7), each an opaque constant without a body: no proof can see its
value, so a theorem holds for every value. The time bound T_TICK_MAX is not here: the model has no time (ledger 7).
-/

namespace Sys2Proof

/-- The raw choice behind SIN32 (00_scope.md R7, R12; ledger 1). `Machine.sin32` makes of it a function with the
properties (a), (b), (c) and (e) of R12; every function with these properties arises so. -/
opaque Config.sinRaw : Word → Word

/-- SQUARE_TIE (R7, 41_waveform_generator.md R94): true for -1.0, false for +1.0 (ledger 2). -/
opaque Config.squareTieNegative : Bool

/-- ARB (R7, 20_memory.md R65): at the n-th free choice, true lets HOST's command in before TICKER's when both offer
one (ledger 3). -/
opaque Config.hostFirst : Nat → Bool

/-- Whether the command in flight when the reset input is asserted completes and responds (true) or is abandoned
(false): 70_reset_and_hazards.md R154 admits both (ledger 4). -/
opaque Config.inFlightCompletes : Nat → Bool

end Sys2Proof
end

