-- ==== Sys2Proof/Machine/Float32.lean ====
section
/-!
DEFINITION. The numeric primitives (00_scope.md R9 to R13). Every finite binary32 value is a whole number of units of
2^-149, the smallest subnormal. So each operation computes its exact result in whole numbers of such units (or a
quotient of them) and rounds once, in `roundMag`. There is no other rounding, no flush to zero, no trap (R9, R10).
-/

namespace Sys2Proof.Machine

/-! ## Patterns and constants -/

/-- CANON_NAN (00_scope.md R8, R11). -/
def canonNaN : Word := 0x7FC00000
/-- +0 (R8). -/
def posZero : Word := 0x00000000
/-- -0 (R8). -/
def negZero : Word := 0x80000000
/-- TWO_PI (R13). -/
def TWO_PI : Word := 0x40C90FDB
/-- ONE, POS1 (R13). -/
def ONE : Word := 0x3F800000
/-- NEG1 (R13). -/
def NEG1 : Word := 0xBF800000
/-- HALF (R13). -/
def HALF : Word := 0x3F000000
/-- TWO (R13). -/
def TWO : Word := 0x40000000
/-- K_PITCH (R13). -/
def K_PITCH : Word := 0x3CF5C28F
/-- K_AMP (R13). -/
def K_AMP : Word := 0x3F000000
/-- K_CUT (R13). -/
def K_CUT : Word := 0x3F4CCCCD
/-- CUT_MIN (R13). -/
def CUT_MIN : Word := 0x42C80000
/-- CUT_MAX (R13). -/
def CUT_MAX : Word := 0x45FA0000

/-! ## Fields and classes (R9) -/

/-- Bit 31, the sign. -/
def fSign (a : Word) : Bool := decide (2 ^ 31 ≤ a.toNat)

/-- Bits 30:0, exponent and fraction. -/
def fMag (a : Word) : Nat := a.toNat % 2 ^ 31

/-- The magnitude pattern of an infinity; a larger one is a NaN. -/
def infMag : Nat := 0x7F800000

/-- a is a NaN. -/
def isNaN (a : Word) : Bool := decide (infMag < fMag a)

/-- a is +inf or -inf. -/
def isInf (a : Word) : Bool := decide (fMag a = infMag)

/-- a is neither infinite nor a NaN: its exponent field is not all ones. -/
def isFinite (a : Word) : Bool := decide (fMag a < infMag)

/-- a is +0 or -0. -/
def isZero (a : Word) : Bool := decide (fMag a = 0)

/-- The size, in units of 2^-149, of the finite magnitude pattern m = E·2^23 + F: F when E = 0 (zero and subnormals),
else (2^23 + F)·2^(E-1). -/
def magUnits (m : Nat) : Nat :=
  if m / 2 ^ 23 = 0 then m else (2 ^ 23 + m % 2 ^ 23) * 2 ^ (m / 2 ^ 23 - 1)

/-- The value of a finite a, in units of 2^-149. -/
def fUnits (a : Word) : Int :=
  if fSign a then -(magUnits (fMag a) : Int) else magUnits (fMag a)

/-- The word of a sign and a magnitude pattern below 2^31. -/
def pack (sign : Bool) (m : Nat) : Word :=
  BitVec.ofNat 32 ((if sign then 2 ^ 31 else 0) + m)

/-! ## Rounding -/

/-- The magnitude pattern nearest to n/d units, ties to even, overflowing to infinity (R9). With e the binade above the
subnormal one, q the quotient of at most 24 bits and the remainder deciding the rounding, the pattern is e·2^23 + q,
plus 1 when rounded up: a carry out of the fraction steps the exponent by itself. -/
def roundMag (n d : Nat) : Nat :=
  let e := Nat.log2 (n / d) - 23
  let u := d * 2 ^ e
  let q := n / u
  let r := n % u
  let up : Bool := decide (u < 2 * r) || (decide (2 * r = u) && decide (q % 2 = 1))
  min (e * 2 ^ 23 + (if up then q + 1 else q)) infMag

/-! ## Arithmetic (R10, R11) -/

/-- The word with the sign bit turned over. -/
def fneg (a : Word) : Word := a ^^^ 0x80000000

/-- fabs: the sign bit cleared, the other bits kept (R11). -/
def fabs (a : Word) : Word := a &&& 0x7FFFFFFF

/-- Binary32 addition: inf - inf is NaN; an exact zero sum is +0 except (-0) + (-0) = -0 (R10). -/
def fadd (a b : Word) : Word :=
  if isNaN a || isNaN b then canonNaN
  else if isInf a then (if isInf b && (fSign a != fSign b) then canonNaN else a)
  else if isInf b then b
  else
    let s := fUnits a + fUnits b
    if s = 0 then pack (fSign a && fSign b) 0
    else pack (decide (s < 0)) (roundMag s.natAbs 1)

/-- Binary32 subtraction (R10). -/
def fsub (a b : Word) : Word := fadd a (fneg b)

/-- Binary32 multiplication: 0·inf is NaN (R10). -/
def fmul (a b : Word) : Word :=
  let sign := fSign a != fSign b
  if isNaN a || isNaN b then canonNaN
  else if isInf a || isInf b then (if isZero a || isZero b then canonNaN else pack sign infMag)
  else pack sign (roundMag (magUnits (fMag a) * magUnits (fMag b)) (2 ^ 149))

/-- Binary32 division: 0/0 and inf/inf are NaN, x/0 is infinite with the XOR of the signs for x neither 0 nor NaN
(R10). -/
def fdiv (a b : Word) : Word :=
  let sign := fSign a != fSign b
  if isNaN a || isNaN b then canonNaN
  else if isInf a then (if isInf b then canonNaN else pack sign infMag)
  else if isInf b then pack sign 0
  else if isZero b then (if isZero a then canonNaN else pack sign infMag)
  else pack sign (roundMag (magUnits (fMag a) * 2 ^ 149) (magUnits (fMag b)))

/-- ffloor: the largest integer value not above a, exact; ±0 and ±inf are kept (R11). -/
def ffloor (a : Word) : Word :=
  if isNaN a then canonNaN
  else if isInf a || isZero a then a
  else
    let k := fUnits a / 2 ^ 149
    if k = 0 then posZero else pack (decide (k < 0)) (roundMag (k.natAbs * 2 ^ 149) 1)

/-! ## Quiet comparisons (R11) -/

/-- The order of the non-NaN patterns, infinities included: the signed magnitude, so that -0 equals +0. -/
def fKey (a : Word) : Int := if fSign a then -(fMag a : Int) else fMag a

/-- a < b; false when either is a NaN. -/
def flt (a b : Word) : Bool := !isNaN a && !isNaN b && decide (fKey a < fKey b)

/-- a ≤ b; false when either is a NaN. -/
def fle (a b : Word) : Bool := !isNaN a && !isNaN b && decide (fKey a ≤ fKey b)

/-- a > b. -/
def fgt (a b : Word) : Bool := flt b a

/-- a ≥ b. -/
def fge (a b : Word) : Bool := fle b a

/-! ## SIN32 (R12) and SQUARE_TIE (R7) -/

/-- v where it is a value in [-1.0, +1.0], else +0: keeps a raw choice inside the range R12 (a) states. -/
def unitOnly (v : Word) : Word := if fge v NEG1 && fle v ONE then v else posZero

/-- The function of R12 that a raw choice stands for: (a) in [-1, 1] for finite x, (b) ±0 at ±0, (c) CANON_NAN at ±inf
and NaN, (e) a function (ledger 1). -/
def sin32Of (raw : Word → Word) (x : Word) : Word :=
  if isNaN x || isInf x then canonNaN
  else if isZero x then x
  else unitOnly (raw x)

/-- SIN32 (00_scope.md R12). -/
def sin32 (x : Word) : Word := sin32Of Config.sinRaw x

/-- SQUARE_TIE, +1.0 or -1.0 (00_scope.md R7, 41_waveform_generator.md R94). -/
def squareTie : Word := if Config.squareTieNegative then NEG1 else ONE

end Sys2Proof.Machine
end

