-- ==== Sys2Proof/Syntax.lean ====
section
/-!
DEFINITION. The commands of the GeSynth CORE, one constructor per row of spec/opcode_table.json (30_encoding.md R80),
with the names its operands and registers are taken from (10_state.md R20, R53).
-/

namespace Sys2Proof

/-- WaveformKind (10_state.md R53). -/
inductive WaveKind where
  | sine | square | triangle | saw
  deriving DecidableEq, Repr

/-- LFOTarget (10_state.md R53). -/
inductive LfoTarget where
  | none | pitch | amplitude | filter
  deriving DecidableEq, Repr

/-- EnvelopeState (10_state.md R53). -/
inductive EnvState where
  | idle | attack | decay | sustain | release
  deriving DecidableEq, Repr

/-- The mapped registers, in the order of 10_state.md R20. -/
inductive Reg where
  | ident | waveType | baseFreq | amplitude | envAttack | envDecay | envSustain | envRelease | baseCutoff | filtCutoff
  | filtResonance | lfoRate | lfoDepth | lfoWave | lfoTarget | lfoEnable | dt
  | envState | envValue | oscPhase | lfoPhase | filtPrev
  | outSample | lastEnv | lastLfo | lastModFreq | lastModAmp | lastModCutoff | tickCount
  | status
  deriving DecidableEq, Repr

/-- The causes of a rejection (60_exceptions.md R141). -/
inductive RejectCode where
  | illegalOp | reservedBits | badReg | readOnly | badValue
  deriving DecidableEq, Repr

/-- A transaction at the command port: the two words CMD and DATA (20_memory.md R62, 30_encoding.md R76). -/
structure Command where
  cmd : Word
  data : Word
  deriving DecidableEq, Repr

/-- The commands (30_encoding.md R80). A command that ignores DATA carries none (R76, R78); an index is kept as it
stands, mapped or not, because the refusal of an unmapped one is the command's own (R82, 40_interface_commands.md R89,
R90). -/
inductive Instr where
  | nop
  | writeReg (idx : RegIndex) (value : Word)
  | readReg (idx : RegIndex)
  | noteOn
  | noteOff
  | lfoReset
  | tick
  | envStep
  | lfoStep
  | oscStep (freq : Word)
  | filtStep (x : Word)
  | waveEval (kind : WaveKind) (phase : Word)
  | reset
  deriving DecidableEq, Repr

end Sys2Proof
end

