-- ==== Sys2Proof/Machine/State.lean ====
section
/-!
DEFINITION. The state of the GeSynth CORE: the register file (10_state.md R16, R20, R52) and the command port with what
stands around it (20_memory.md R62 to R66, 70_reset_and_hazards.md R154); the state after reset (R155, R156); and the
reasons a step can stop.
-/

namespace Sys2Proof.Machine

/-- Register STATUS by its fields; the other bits read 0 and ignore writes, so they are not held (10_state.md R51). -/
structure StatusReg where
  err : Bool
  nonfinite : Bool
  lastErr : StatusCode
  deriving DecidableEq, Repr

/-- The register file (10_state.md R20). A binary32 register holds the bit pattern; an enumeration or flag register
holds its name, and its other bits read 0 (R53). ID is a constant and has no storage (R22). -/
structure Regs where
  waveType : WaveKind
  baseFreq : Word
  amplitude : Word
  envAttack : Word
  envDecay : Word
  envSustain : Word
  envRelease : Word
  baseCutoff : Word
  filtCutoff : Word
  filtResonance : Word
  lfoRate : Word
  lfoDepth : Word
  lfoWave : WaveKind
  lfoTarget : LfoTarget
  lfoEnable : Bool
  dt : Word
  envState : EnvState
  envValue : Word
  oscPhase : Word
  lfoPhase : Word
  filtPrev : Word
  outSample : Word
  lastEnv : Word
  lastLfo : Word
  lastModFreq : Word
  lastModAmp : Word
  lastModCutoff : Word
  tickCount : Word
  status : StatusReg
  deriving DecidableEq, Repr

/-- One response of the port: STATUS and RESP (20_memory.md R62). -/
structure Response where
  status : StatusCode
  resp : Word
  deriving DecidableEq, Repr

/-- The command port: the command in execution (10_state.md R52), the responses sent, oldest first (20_memory.md R62,
R74), what each producer has offered and the port has not yet accepted, oldest first (R63, R66), the level of the reset
input (70_reset_and_hazards.md R154), and the model's own index of the next free choice of Config (ledgers 3 and 4). -/
structure Port where
  current : Option Command
  responses : List Response
  hostQueue : List Command
  tickerQueue : List Command
  resetInput : Bool
  freeIndex : Nat
  deriving DecidableEq, Repr

/-- The machine's state: the register file and the port. -/
structure State where
  regs : Regs
  port : Port
  deriving DecidableEq, Repr

/-- The block has no faults (60_exceptions.md R144, 93_implementation_defined.md): nothing raises one, which is safe. -/
inductive Fault where
  deriving DecidableEq, Repr

/-- The reasons the model gives no meaning. -/
inductive Refusal where
  /-- Raised by an arm of `exec` for an instruction that has no meaning yet; safe. No arm raises it. -/
  | notModelled (mnemonic : String)
  /-- Raised by `busStep` for a byte-addressed access that is not one aligned 32-bit word of the register file: "this
  spec gives it no meaning (a model refuses it)" (20_memory.md R57); safe. `step` and `exec` never raise it. -/
  | busAccess
  deriving DecidableEq, Repr

/-- The reset value of every register (10_state.md R20, 70_reset_and_hazards.md R155, R156). -/
def Regs.reset : Regs where
  waveType := .sine
  baseFreq := 0x43DC0000
  amplitude := 0x3F800000
  envAttack := 0x3C23D70A
  envDecay := 0x3DCCCCCD
  envSustain := 0x3F4CCCCD
  envRelease := 0x3E4CCCCD
  baseCutoff := 0x447A0000
  filtCutoff := 0x447A0000
  filtResonance := 0x00000000
  lfoRate := 0x40A00000
  lfoDepth := 0x3F000000
  lfoWave := .sine
  lfoTarget := .none
  lfoEnable := false
  dt := 0x37BE37C6
  envState := .idle
  envValue := 0x00000000
  oscPhase := 0x00000000
  lfoPhase := 0x00000000
  filtPrev := 0x00000000
  outSample := 0x00000000
  lastEnv := 0x00000000
  lastLfo := 0x00000000
  lastModFreq := 0x00000000
  lastModAmp := 0x00000000
  lastModCutoff := 0x00000000
  tickCount := 0x00000000
  status := { err := false, nonfinite := false, lastErr := 0 }

/-- The port right after reset: no command in execution (70_reset_and_hazards.md R157), nothing offered, nothing
answered, the reset input released (ledgers 3, 4, 5 and 6). -/
def Port.reset : Port where
  current := none
  responses := []
  hostQueue := []
  tickerQueue := []
  resetInput := false
  freeIndex := 0

/-- The machine right after reset (70_reset_and_hazards.md R155). -/
def State.reset : State where
  regs := Regs.reset
  port := Port.reset

end Sys2Proof.Machine
end

