-- ==== Sys2Proof/Machine/Flags.lean ====
section
/-!
DEFINITION. The flags (10_state.md R19, R51): the status codes of a response and the updates of STATUS by a rejection and
by TICK. The write-one-to-clear update is `clearStatus` in Machine/Operands.lean.
-/

namespace Sys2Proof.Machine

/-- Status code OK (60_exceptions.md R141). -/
def statusOk : StatusCode := 0

/-- The status code of a rejection (60_exceptions.md R141). -/
def rejectStatus : RejectCode → StatusCode
  | .illegalOp => 1
  | .reservedBits => 2
  | .badReg => 3
  | .readOnly => 4
  | .badValue => 5

/-- STATUS after a rejection with code c: ERR set, LAST_ERR holds c, NONFINITE kept (60_exceptions.md R140). -/
def statusRejected (t : StatusReg) (c : RejectCode) : StatusReg :=
  { t with err := true, lastErr := rejectStatus c }

/-- STATUS after a TICK that returned y: NONFINITE set if y is a NaN or infinite, else kept (46_pipeline.md R137). -/
def statusTicked (t : StatusReg) (y : Word) : StatusReg :=
  { t with nonfinite := t.nonfinite || !isFinite y }

end Sys2Proof.Machine
end

