-- ==== Sys2Proof/Decode.lean ====
section
/-!
DEFINITION. The decoder, total on every transaction (30_encoding.md R76 to R84, 60_exceptions.md R142), and after it the
encoder, written from the same tables (30_encoding.md R77, R80, R85).
-/

namespace Sys2Proof

/-! ## Fields and enumerations -/

/-- CMD.OP = CMD[31:28] (30_encoding.md R77). -/
def opField (cmd : Word) : BitVec 4 := cmd.extractLsb' 28 4

/-- CMD.RSV = CMD[27:8] (R77). -/
def rsvField (cmd : Word) : BitVec 20 := cmd.extractLsb' 8 20

/-- CMD.ARG = CMD[7:0] (R77). -/
def argField (cmd : Word) : BitVec 8 := cmd.extractLsb' 0 8

/-- The WaveformKind a 2-bit field holds (10_state.md R53). -/
def waveKindOfCode (k : BitVec 2) : WaveKind :=
  if k = 0 then .sine else if k = 1 then .square else if k = 2 then .triangle else .saw

/-- The number of a WaveformKind (10_state.md R53). -/
def waveKindCode : WaveKind → BitVec 2
  | .sine => 0
  | .square => 1
  | .triangle => 2
  | .saw => 3

/-- The LFOTarget a 2-bit field holds (10_state.md R53). -/
def lfoTargetOfCode (k : BitVec 2) : LfoTarget :=
  if k = 0 then .none else if k = 1 then .pitch else if k = 2 then .amplitude else .filter

/-- The number of an LFOTarget (10_state.md R53). -/
def lfoTargetCode : LfoTarget → BitVec 2
  | .none => 0
  | .pitch => 1
  | .amplitude => 2
  | .filter => 3

/-- The number of an EnvelopeState; 5 to 7 are never held (10_state.md R53, R39). -/
def envStateCode : EnvState → BitVec 3
  | .idle => 0
  | .attack => 1
  | .decay => 2
  | .sustain => 3
  | .release => 4

/-! ## Decoding -/

/-- What the decoder answers: a command, or the refusal that is its own verdict (30_encoding.md R84). -/
inductive Decoded where
  | command (i : Instr)
  | rejected (c : RejectCode)
  deriving DecidableEq, Repr

/-- The command of a legal opcode whose reserved bits are 0 (30_encoding.md R78, R79, R80). -/
def instrOfFields (op : BitVec 4) (arg : BitVec 8) (data : Word) : Instr :=
  match op.toNat with
  | 0x0 => .nop
  | 0x1 => .writeReg arg data
  | 0x2 => .readReg arg
  | 0x3 => .noteOn
  | 0x4 => .noteOff
  | 0x5 => .lfoReset
  | 0x6 => .tick
  | 0x7 => .envStep
  | 0x8 => .lfoStep
  | 0x9 => .oscStep data
  | 0xA => .filtStep data
  | 0xB => .waveEval (waveKindOfCode (arg.extractLsb' 0 2)) data
  | _ => .reset

/-- The decode checks of 60_exceptions.md R142 that look at CMD alone, in their order, then the command. -/
def decode (c : Command) : Decoded :=
  let op := opField c.cmd
  let arg := argField c.cmd
  if 0xD#4 ≤ op then .rejected .illegalOp
  else if rsvField c.cmd ≠ 0 then .rejected .reservedBits
  else if op = 0xB ∧ arg.extractLsb' 2 6 ≠ 0 then .rejected .reservedBits
  else if op ≠ 0x1 ∧ op ≠ 0x2 ∧ op ≠ 0xB ∧ arg ≠ 0 then .rejected .reservedBits
  else .command (instrOfFields op arg c.data)

/-- The transaction whose bits are w, numbered as spec/opcode_table.json numbers them: CMD is bits 31:0, DATA bits
63:32, and every bit from nbits on is 0. -/
def tableCommand (nbits w : Nat) : Command :=
  let v := w % 2 ^ nbits
  { cmd := BitVec.ofNat 32 v, data := BitVec.ofNat 32 (v / 2 ^ 32) }

/-- The command the decoder reads from those bits, none where it refuses. -/
def decodeTableWord (nbits w : Nat) : Option Instr :=
  match decode (tableCommand nbits w) with
  | .command i => some i
  | .rejected _ => none

/-! ## Encoding -/

/-- The opcode of a command (30_encoding.md R80). -/
def opcode : Instr → BitVec 4
  | .nop => 0x0
  | .writeReg _ _ => 0x1
  | .readReg _ => 0x2
  | .noteOn => 0x3
  | .noteOff => 0x4
  | .lfoReset => 0x5
  | .tick => 0x6
  | .envStep => 0x7
  | .lfoStep => 0x8
  | .oscStep _ => 0x9
  | .filtStep _ => 0xA
  | .waveEval _ _ => 0xB
  | .reset => 0xC

/-- The ARG field of a command (30_encoding.md R77, R79). -/
def argOf : Instr → BitVec 8
  | .writeReg idx _ => idx
  | .readReg idx => idx
  | .waveEval kind _ => (waveKindCode kind).setWidth 8
  | .nop | .noteOn | .noteOff | .lfoReset | .tick | .envStep | .lfoStep | .oscStep _ | .filtStep _ | .reset => 0

/-- The DATA word of a command; 0 where the form has no DATA operand (30_encoding.md R85). -/
def dataOf : Instr → Word
  | .writeReg _ value => value
  | .oscStep freq => freq
  | .filtStep x => x
  | .waveEval _ phase => phase
  | .nop | .readReg _ | .noteOn | .noteOff | .lfoReset | .tick | .envStep | .lfoStep | .reset => 0

/-- The transaction of a command: OP, RSV = 0, ARG, and DATA (30_encoding.md R77, R85). -/
def encode (i : Instr) : Command :=
  { cmd := opcode i ++ 0#20 ++ argOf i, data := dataOf i }

/-! ## The opcode map -/

/-- The match word of a command's row (30_encoding.md R80). -/
def rowMatch : Instr → Word
  | .nop => 0x00000000
  | .writeReg _ _ => 0x10000000
  | .readReg _ => 0x20000000
  | .noteOn => 0x30000000
  | .noteOff => 0x40000000
  | .lfoReset => 0x50000000
  | .tick => 0x60000000
  | .envStep => 0x70000000
  | .lfoStep => 0x80000000
  | .oscStep _ => 0x90000000
  | .filtStep _ => 0xA0000000
  | .waveEval _ _ => 0xB0000000
  | .reset => 0xC0000000

/-- The mask word of a command's row (30_encoding.md R80). -/
def rowMask : Instr → Word
  | .writeReg _ _ => 0xFFFFFF00
  | .readReg _ => 0xFFFFFF00
  | .waveEval _ _ => 0xFFFFFFFC
  | .nop | .noteOn | .noteOff | .lfoReset | .tick | .envStep | .lfoStep | .oscStep _ | .filtStep _ | .reset => 0xFFFFFFFF

end Sys2Proof
end

