-- ==== Sys2Proof/Machine/Operands.lean ====
section
/-!
DEFINITION. The register map (10_state.md R17, R20, R21): indices, access kinds, value kinds; the operand forms of
WRITE_REG and READ_REG (30_encoding.md R78, R79); and the read and the write of one register.
-/

namespace Sys2Proof.Machine

/-! ## The map -/

/-- The mapped registers (10_state.md R20). -/
def allRegs : List Reg :=
  [.ident, .waveType, .baseFreq, .amplitude, .envAttack, .envDecay, .envSustain, .envRelease, .baseCutoff, .filtCutoff,
   .filtResonance, .lfoRate, .lfoDepth, .lfoWave, .lfoTarget, .lfoEnable, .dt,
   .envState, .envValue, .oscPhase, .lfoPhase, .filtPrev,
   .outSample, .lastEnv, .lastLfo, .lastModFreq, .lastModAmp, .lastModCutoff, .tickCount, .status]

/-- The index of a register (10_state.md R20). -/
def regIndex : Reg → RegIndex
  | .ident => 0x00
  | .waveType => 0x01
  | .baseFreq => 0x02
  | .amplitude => 0x03
  | .envAttack => 0x04
  | .envDecay => 0x05
  | .envSustain => 0x06
  | .envRelease => 0x07
  | .baseCutoff => 0x08
  | .filtCutoff => 0x09
  | .filtResonance => 0x0A
  | .lfoRate => 0x0B
  | .lfoDepth => 0x0C
  | .lfoWave => 0x0D
  | .lfoTarget => 0x0E
  | .lfoEnable => 0x0F
  | .dt => 0x10
  | .envState => 0x20
  | .envValue => 0x21
  | .oscPhase => 0x22
  | .lfoPhase => 0x23
  | .filtPrev => 0x24
  | .outSample => 0x28
  | .lastEnv => 0x29
  | .lastLfo => 0x2A
  | .lastModFreq => 0x2B
  | .lastModAmp => 0x2C
  | .lastModCutoff => 0x2D
  | .tickCount => 0x2E
  | .status => 0x30

/-- The register at an index, none where the index is unmapped (10_state.md R20, R21). -/
def regOfIndex (idx : RegIndex) : Option Reg :=
  allRegs.find? fun r => regIndex r == idx

/-- What WRITE_REG may store in a register and how READ_REG shows it (10_state.md R17, R20): any binary32 pattern, a
2-bit enumeration, a 1-bit flag, the write-one-to-clear STATUS, or nothing at all. -/
inductive WriteKind where
  | f32 | enum2 | flag1 | w1c | readOnly
  deriving DecidableEq, Repr

/-- The kind and access of a register (10_state.md R20). -/
def writeKind : Reg → WriteKind
  | .baseFreq | .amplitude | .envAttack | .envDecay | .envSustain | .envRelease | .baseCutoff | .filtCutoff
  | .filtResonance | .lfoRate | .lfoDepth | .dt => .f32
  | .waveType | .lfoWave | .lfoTarget => .enum2
  | .lfoEnable => .flag1
  | .status => .w1c
  | .ident | .envState | .envValue | .oscPhase | .lfoPhase | .filtPrev | .outSample | .lastEnv | .lastLfo
  | .lastModFreq | .lastModAmp | .lastModCutoff | .tickCount => .readOnly

/-! ## The operand checks (60_exceptions.md R142, 40_interface_commands.md R89, R90) -/

/-- The register READ_REG reads, or the code it is refused with. -/
def readOperand (idx : RegIndex) : Except RejectCode Reg :=
  match regOfIndex idx with
  | none => .error .badReg
  | some r => .ok r

/-- The register WRITE_REG writes, or the code of the first check that fails: BAD_REG, READ_ONLY, BAD_VALUE. -/
def writeOperand (idx : RegIndex) (value : Word) : Except RejectCode Reg :=
  match regOfIndex idx with
  | none => .error .badReg
  | some r =>
    match writeKind r with
    | .readOnly => .error .readOnly
    | .enum2 => if 3#32 < value then .error .badValue else .ok r
    | .flag1 => if 1#32 < value then .error .badValue else .ok r
    | .f32 | .w1c => .ok r

/-- The refusal the operands of a command meet, if any (60_exceptions.md R143). -/
def operandCheck : Instr → Option RejectCode
  | .writeReg idx value => match writeOperand idx value with | .error c => some c | .ok _ => none
  | .readReg idx => match readOperand idx with | .error c => some c | .ok _ => none
  | .nop | .noteOn | .noteOff | .lfoReset | .tick | .envStep | .lfoStep | .oscStep _ | .filtStep _ | .waveEval _ _
  | .reset => none

/-! ## One register -/

/-- The constant ID word (10_state.md R22). -/
def idWord : Word := 0x47530007

/-- The word of register STATUS (10_state.md R51). -/
def statusWord (t : StatusReg) : Word :=
  0#20 ++ t.lastErr ++ 0#6 ++ BitVec.ofBool t.nonfinite ++ BitVec.ofBool t.err

/-- The 32-bit word a register reads as (10_state.md R17, R20; 40_interface_commands.md R90). -/
def readRegister (r : Reg) (g : Regs) : Word :=
  match r with
  | .ident => idWord
  | .waveType => (waveKindCode g.waveType).setWidth 32
  | .baseFreq => g.baseFreq
  | .amplitude => g.amplitude
  | .envAttack => g.envAttack
  | .envDecay => g.envDecay
  | .envSustain => g.envSustain
  | .envRelease => g.envRelease
  | .baseCutoff => g.baseCutoff
  | .filtCutoff => g.filtCutoff
  | .filtResonance => g.filtResonance
  | .lfoRate => g.lfoRate
  | .lfoDepth => g.lfoDepth
  | .lfoWave => (waveKindCode g.lfoWave).setWidth 32
  | .lfoTarget => (lfoTargetCode g.lfoTarget).setWidth 32
  | .lfoEnable => (BitVec.ofBool g.lfoEnable).setWidth 32
  | .dt => g.dt
  | .envState => (envStateCode g.envState).setWidth 32
  | .envValue => g.envValue
  | .oscPhase => g.oscPhase
  | .lfoPhase => g.lfoPhase
  | .filtPrev => g.filtPrev
  | .outSample => g.outSample
  | .lastEnv => g.lastEnv
  | .lastLfo => g.lastLfo
  | .lastModFreq => g.lastModFreq
  | .lastModAmp => g.lastModAmp
  | .lastModCutoff => g.lastModCutoff
  | .tickCount => g.tickCount
  | .status => statusWord g.status

/-- STATUS after a write of value: bits 0 and 1 are cleared where value has a 1, nothing else changes (10_state.md
R51). -/
def clearStatus (t : StatusReg) (value : Word) : StatusReg :=
  { t with err := t.err && !value.getLsbD 0, nonfinite := t.nonfinite && !value.getLsbD 1 }

/-- The register file after WRITE_REG has stored value in r; a read-only register is left alone (10_state.md R17,
40_interface_commands.md R89). -/
def writeRegister (r : Reg) (value : Word) (g : Regs) : Regs :=
  match r with
  | .waveType => { g with waveType := waveKindOfCode (value.extractLsb' 0 2) }
  | .baseFreq => { g with baseFreq := value }
  | .amplitude => { g with amplitude := value }
  | .envAttack => { g with envAttack := value }
  | .envDecay => { g with envDecay := value }
  | .envSustain => { g with envSustain := value }
  | .envRelease => { g with envRelease := value }
  | .baseCutoff => { g with baseCutoff := value }
  | .filtCutoff => { g with filtCutoff := value }
  | .filtResonance => { g with filtResonance := value }
  | .lfoRate => { g with lfoRate := value }
  | .lfoDepth => { g with lfoDepth := value }
  | .lfoWave => { g with lfoWave := waveKindOfCode (value.extractLsb' 0 2) }
  | .lfoTarget => { g with lfoTarget := lfoTargetOfCode (value.extractLsb' 0 2) }
  | .lfoEnable => { g with lfoEnable := value.getLsbD 0 }
  | .dt => { g with dt := value }
  | .status => { g with status := clearStatus g.status value }
  | .ident | .envState | .envValue | .oscPhase | .lfoPhase | .filtPrev | .outSample | .lastEnv | .lastLfo
  | .lastModFreq | .lastModAmp | .lastModCutoff | .tickCount => g

end Sys2Proof.Machine
end

