-- ==== Sys2Proof/Machine/Ops.lean ====
section
/-!
DEFINITION. The operations every command shares: sending its one response, completing with a new register file, and
being rejected. A rejection is the whole of the block's exception: it saves nothing, starts no handler, and there is no
return from it (60_exceptions.md R140, R146, R147).
-/

namespace Sys2Proof.Machine

/-- The port after the command in execution has answered (status, resp): one response more, after the earlier ones, and
no command in execution (20_memory.md R62, 60_exceptions.md R147). -/
def respond (p : Port) (status : StatusCode) (resp : Word) : Port :=
  { p with current := none, responses := p.responses ++ [{ status := status, resp := resp }] }

/-- The state after a command has executed: the register file g, the response (OK, resp) (00_scope.md R8). -/
def complete (s : State) (g : Regs) (resp : Word) : State :=
  { s with regs := g, port := respond s.port statusOk resp }

/-- The state after the command in execution has been rejected with code c (60_exceptions.md R140). -/
def reject (c : RejectCode) (s : State) : State :=
  { s with
    regs := { s.regs with status := statusRejected s.regs.status c }
    port := respond s.port (rejectStatus c) 0 }

end Sys2Proof.Machine
end

