-- ==== Sys2Proof/Machine/Interface.lean ====
section
/-!
DEFINITION. The interface commands NOP, WRITE_REG, READ_REG and RESET (40_interface_commands.md R88 to R91).
-/

namespace Sys2Proof.Machine

/-- NOP (40_interface_commands.md R88). -/
def execNop (s : State) : Host.Outcome State Fault Refusal :=
  .next (complete s s.regs 0)

/-- WRITE_REG idx, value (40_interface_commands.md R89). -/
def execWriteReg (idx : RegIndex) (value : Word) (s : State) : Host.Outcome State Fault Refusal :=
  .next <| match writeOperand idx value with
    | .error c => reject c s
    | .ok r => complete s (writeRegister r value s.regs) 0

/-- READ_REG idx (40_interface_commands.md R90). -/
def execReadReg (idx : RegIndex) (s : State) : Host.Outcome State Fault Refusal :=
  .next <| match readOperand idx with
    | .error c => reject c s
    | .ok r => complete s s.regs (readRegister r s.regs)

/-- RESET (40_interface_commands.md R91): every register takes its reset value; the port answers (OK, 0). -/
def execReset (s : State) : Host.Outcome State Fault Refusal :=
  .next (complete s Regs.reset 0)

end Sys2Proof.Machine
end

