-- ==== Sys2Proof/Machine/Envelope.lean ====
section
/-!
DEFINITION. The ADSR envelope controller: EnvStep (43_envelope.md R105 to R111), NOTE_ON (R114), NOTE_OFF (R115) and
ENV_STEP (R116).
-/

namespace Sys2Proof.Machine

/-- Attack's sum before its clamp: value + dt/A (R107). -/
def attackValue (dt : Word) (g : Regs) : Word := fadd g.envValue (fdiv dt g.envAttack)

/-- Decay's difference before its clamp: value - dt·(1 - S)/D (R108). -/
def decayValue (dt : Word) (g : Regs) : Word :=
  fsub g.envValue (fdiv (fmul dt (fsub ONE g.envSustain)) g.envDecay)

/-- Release's difference before its clamp: value - dt·S/R (R110). -/
def releaseValue (dt : Word) (g : Regs) : Word :=
  fsub g.envValue (fdiv (fmul dt g.envSustain) g.envRelease)

/-- The state and value one step of dt leaves: one segment, chosen by the state at entry (R105 to R111). -/
def envNext (dt : Word) (g : Regs) : EnvState × Word :=
  match g.envState with
  | .idle => (.idle, posZero)
  | .attack => if fge (attackValue dt g) ONE then (.decay, ONE) else (.attack, attackValue dt g)
  | .decay => if fle (decayValue dt g) g.envSustain then (.sustain, g.envSustain) else (.decay, decayValue dt g)
  | .sustain => (.sustain, g.envSustain)
  | .release => if fle (releaseValue dt g) posZero then (.idle, posZero) else (.release, releaseValue dt g)

/-- EnvStep(dt): the value after the update, and the register file with ENV_STATE and ENV_VALUE written (R105). -/
def envStep (dt : Word) (g : Regs) : Word × Regs :=
  ((envNext dt g).2, { g with envState := (envNext dt g).1, envValue := (envNext dt g).2 })

/-- NOTE_ON (R114): only ENV_STATE changes. -/
def execNoteOn (s : State) : Host.Outcome State Fault Refusal :=
  .next (complete s { s.regs with envState := .attack } 0)

/-- NOTE_OFF (R115): only ENV_STATE changes. -/
def execNoteOff (s : State) : Host.Outcome State Fault Refusal :=
  .next (complete s { s.regs with envState := .release } 0)

/-- ENV_STEP (R116). -/
def execEnvStep (s : State) : Host.Outcome State Fault Refusal :=
  .next (complete s (envStep s.regs.dt s.regs).2 (envStep s.regs.dt s.regs).1)

end Sys2Proof.Machine
end

