-- ==== Sys2Proof/Machine/Filter.lean ====
section
/-!
DEFINITION. The single-pole IIR filter: FilterStep (45_filter.md R122) and FILT_STEP (R126).
-/

namespace Sys2Proof.Machine

/-- alpha = c/(c + 1) of a cutoff coefficient c (R122, R123). -/
def filterAlpha (c : Word) : Word := fdiv c (fadd c ONE)

/-- The filter's output alpha·x + (1 - alpha)·prev, each product rounded (R122). -/
def filterOut (c x prev : Word) : Word :=
  fadd (fmul (filterAlpha c) x) (fmul (fsub ONE (filterAlpha c)) prev)

/-- FilterStep(x): the output, and the register file with FILT_PREV written; FILT_RESONANCE is not read (R122). -/
def filterStep (x : Word) (g : Regs) : Word × Regs :=
  let y := filterOut g.filtCutoff x g.filtPrev
  (y, { g with filtPrev := y })

/-- FILT_STEP x (R126). -/
def execFiltStep (x : Word) (s : State) : Host.Outcome State Fault Refusal :=
  .next (complete s (filterStep x s.regs).2 (filterStep x s.regs).1)

end Sys2Proof.Machine
end

