-- ==== Sys2Proof/Machine/Phase.lean ====
section
/-!
DEFINITION. The phase accumulator (42_phase_accumulator.md R100) and OSC_STEP (R104).
-/

namespace Sys2Proof.Machine

/-- The phase increment 2π·f·dt, left to right (R100). -/
def phaseInc (f dt : Word) : Word := fmul (fmul TWO_PI f) dt

/-- PhaseAdvance(p, f, dt): at most one subtraction of TWO_PI, none for a negative sum (R100). -/
def phaseAdvance (p f dt : Word) : Word :=
  let q := fadd p (phaseInc f dt)
  if fge q TWO_PI then fsub q TWO_PI else q

/-- The voice oscillator advanced by frequency f over DT (R103). -/
def oscStep (f : Word) (g : Regs) : Word × Regs :=
  let q := phaseAdvance g.oscPhase f g.dt
  (q, { g with oscPhase := q })

/-- OSC_STEP freq (R104). -/
def execOscStep (freq : Word) (s : State) : Host.Outcome State Fault Refusal :=
  .next (complete s (oscStep freq s.regs).2 (oscStep freq s.regs).1)

end Sys2Proof.Machine
end

