-- ==== Sys2Proof/Machine/Wave.lean ====
section
/-!
DEFINITION. The waveform generator (41_waveform_generator.md R92 to R96) and WAVE_EVAL (R99).
-/

namespace Sys2Proof.Machine

/-- Square: the sign of the sine as +1.0 or -1.0, SQUARE_TIE where the sine is ±0 or a NaN (R94). -/
def waveSquare (p : Word) : Word :=
  let s := sin32 p
  if fgt s posZero then ONE else if flt s posZero then NEG1 else squareTie

/-- The fraction u = t - floor(t + 0.5) of t = p/TWO_PI, shared by Triangle and Saw (R95, R96). -/
def cycleFraction (p : Word) : Word :=
  let t := fdiv p TWO_PI
  fsub t (ffloor (fadd t HALF))

/-- Triangle (R95). -/
def waveTriangle (p : Word) : Word := fsub (fmul TWO (fabs (fmul TWO (cycleFraction p)))) ONE

/-- Saw (R96). -/
def waveSaw (p : Word) : Word := fmul TWO (cycleFraction p)

/-- Wave(kind, p): total, without state (R92, R93). -/
def wave (kind : WaveKind) (p : Word) : Word :=
  match kind with
  | .sine => sin32 p
  | .square => waveSquare p
  | .triangle => waveTriangle p
  | .saw => waveSaw p

/-- WAVE_EVAL kind, phase (R99). -/
def execWaveEval (kind : WaveKind) (phase : Word) (s : State) : Host.Outcome State Fault Refusal :=
  .next (complete s s.regs (wave kind phase))

end Sys2Proof.Machine
end

