-- ==== Sys2Proof/Machine/Lfo.lean ====
section
/-!
DEFINITION. The LFO modulation engine: LfoStep (44_lfo.md R117, R118), LFO_RESET (R120) and LFO_STEP (R121).
-/

namespace Sys2Proof.Machine

/-- LfoStep(dt). Enabled: the phase advances and the waveform at the new phase is scaled by the depth (R117). Disabled:
+0, nothing written (R118). -/
def lfoStep (dt : Word) (g : Regs) : Word × Regs :=
  if g.lfoEnable then
    let p := phaseAdvance g.lfoPhase g.lfoRate dt
    (fmul (wave g.lfoWave p) g.lfoDepth, { g with lfoPhase := p })
  else (posZero, g)

/-- LFO_RESET (R120). -/
def execLfoReset (s : State) : Host.Outcome State Fault Refusal :=
  .next (complete s { s.regs with lfoPhase := posZero } 0)

/-- LFO_STEP (R121). -/
def execLfoStep (s : State) : Host.Outcome State Fault Refusal :=
  .next (complete s (lfoStep s.regs.dt s.regs).2 (lfoStep s.regs.dt s.regs).1)

end Sys2Proof.Machine
end

