-- ==== Sys2Proof/Machine/Pipeline.lean ====
section
/-!
DEFINITION. The audio synthesis pipeline orchestrator: TICK, its seven steps in the order of 46_pipeline.md R127.
-/

namespace Sys2Proof.Machine

/-- modFrequency, modAmplitude and modCutoff of one TICK (R129). -/
structure Modulated where
  freq : Word
  amp : Word
  cutoff : Word
  deriving DecidableEq, Repr

/-- base·(1 + lfoVal·k), the product all three branches share (R130, R131, R132). -/
def modulated (base lfoVal k : Word) : Word := fmul base (fadd ONE (fmul lfoVal k))

/-- The Amplitude branch's clamp: below +0 becomes +0, quietly (R131). -/
def clampAmp (a : Word) : Word := if flt a posZero then posZero else a

/-- The Filter branch's clamp to [CUT_MIN, CUT_MAX], quietly, the lower bound first (R132). -/
def clampCutoff (c : Word) : Word :=
  let c1 := if flt c CUT_MIN then CUT_MIN else c
  if fgt c1 CUT_MAX then CUT_MAX else c1

/-- Step 3, the parameters: copies of the bases, but for the one the target's branch replaces (R129 to R133). -/
def modulate (lfoVal : Word) (g : Regs) : Modulated :=
  match g.lfoTarget with
  | .none => { freq := g.baseFreq, amp := g.amplitude, cutoff := g.baseCutoff }
  | .pitch => { freq := modulated g.baseFreq lfoVal K_PITCH, amp := g.amplitude, cutoff := g.baseCutoff }
  | .amplitude => { freq := g.baseFreq, amp := clampAmp (modulated g.amplitude lfoVal K_AMP), cutoff := g.baseCutoff }
  | .filter => { freq := g.baseFreq, amp := g.amplitude, cutoff := clampCutoff (modulated g.baseCutoff lfoVal K_CUT) }

/-- Step 3, the push: the Filter branch writes FILT_CUTOFF, before the filter runs; no other branch does (R132, R133). -/
def pushCutoff (m : Modulated) (g : Regs) : Regs :=
  match g.lfoTarget with
  | .filter => { g with filtCutoff := m.cutoff }
  | .none | .pitch | .amplitude => g

/-- Step 7's bookkeeping: the observation registers, TICK_COUNT and NONFINITE (R136, R137). -/
def recordTick (y envVal lfoVal : Word) (m : Modulated) (g : Regs) : Regs :=
  { g with
    outSample := y
    lastEnv := envVal
    lastLfo := lfoVal
    lastModFreq := m.freq
    lastModAmp := m.amp
    lastModCutoff := m.cutoff
    tickCount := g.tickCount + 1
    status := statusTicked g.status y }

/-- The seven steps of TICK: the sample and the register file (R127 to R137). -/
def tickStep (g : Regs) : Word × Regs :=
  let dt := g.dt
  let env := envStep dt g
  let lfo := lfoStep dt env.2
  let m := modulate lfo.1 lfo.2
  let osc := oscStep m.freq (pushCutoff m lfo.2)
  let w := wave osc.2.waveType osc.1
  let sample := fmul w (fmul m.amp env.1)
  let filt := filterStep sample osc.2
  (filt.1, recordTick filt.1 env.1 lfo.1 m filt.2)

/-- TICK (R127). -/
def execTick (s : State) : Host.Outcome State Fault Refusal :=
  .next (complete s (tickStep s.regs).2 (tickStep s.regs).1)

end Sys2Proof.Machine
end

