-- ==== Sys2Proof/Machine/Dispatch.lean ====
section
/-!
DEFINITION. The dispatch: one arm per command, each one direct call of its meaning.
-/

namespace Sys2Proof.Machine

def exec (i : Instr) (s : State) : Host.Outcome State Fault Refusal :=
  match i with
  | .nop => Sys2Proof.Machine.execNop s
  | .writeReg idx value => Sys2Proof.Machine.execWriteReg idx value s
  | .readReg idx => Sys2Proof.Machine.execReadReg idx s
  | .noteOn => Sys2Proof.Machine.execNoteOn s
  | .noteOff => Sys2Proof.Machine.execNoteOff s
  | .lfoReset => Sys2Proof.Machine.execLfoReset s
  | .tick => Sys2Proof.Machine.execTick s
  | .envStep => Sys2Proof.Machine.execEnvStep s
  | .lfoStep => Sys2Proof.Machine.execLfoStep s
  | .oscStep freq => Sys2Proof.Machine.execOscStep freq s
  | .filtStep x => Sys2Proof.Machine.execFiltStep x s
  | .waveEval kind phase => Sys2Proof.Machine.execWaveEval kind phase s
  | .reset => Sys2Proof.Machine.execReset s

end Sys2Proof.Machine
end

