-- ==== Sys2Proof/Machine/CommandPort.lean ====
section
/-!
DEFINITION. What one step of the block does with its port: run the command in execution, accept the next command, or
answer to the reset input (20_memory.md R62 to R66, 70_reset_and_hazards.md R154).
-/

namespace Sys2Proof.Machine

/-- The command c in execution: decoded, then executed or rejected by the decoder's verdict (30_encoding.md R84). -/
def runCommand (c : Command) (s : State) : Host.Outcome State Fault Refusal :=
  match decode c with
  | .command i => exec i s
  | .rejected code => .next (reject code s)

/-- The port accepts HOST's oldest offered command. -/
def acceptHost (c : Command) (rest : List Command) (p : Port) : Port :=
  { p with current := some c, hostQueue := rest }

/-- The port accepts TICKER's oldest offered command. -/
def acceptTicker (c : Command) (rest : List Command) (p : Port) : Port :=
  { p with current := some c, tickerQueue := rest }

/-- The port accepts the next command: the oldest of one producer, the free choice ARB deciding when both offer one;
without an offer nothing changes (20_memory.md R65, R66, R75; ledger 3). -/
def accept (p : Port) : Port :=
  match p.hostQueue, p.tickerQueue with
  | [], [] => p
  | c :: rest, [] => acceptHost c rest p
  | [], c :: rest => acceptTicker c rest p
  | c :: rest, c' :: rest' =>
    { (if Config.hostFirst p.freeIndex then acceptHost c rest p else acceptTicker c' rest' p) with
      freeIndex := p.freeIndex + 1 }

/-- What the command in flight leaves when the reset input is asserted: it either completes and responds, or is
abandoned without a response (70_reset_and_hazards.md R154; ledger 4). -/
def flushInFlight (s : State) : State :=
  match s.port.current with
  | none => s
  | some c =>
    let done : State :=
      if Config.inFlightCompletes s.port.freeIndex then
        match runCommand c s with
        | .next t => t
        | .fault _ => s
        | .refused _ => s
      else s
    { done with port := { done.port with current := none, freeIndex := s.port.freeIndex + 1 } }

/-- The reset input's effect: the command in flight is dealt with, then every register takes its reset value; nothing is
accepted (70_reset_and_hazards.md R154, R155). -/
def resetByInput (s : State) : State :=
  { flushInFlight s with regs := Regs.reset }

/-- One step of the block outside the reset input: the command in execution runs to completion (20_memory.md R64), or,
with none in execution, the port accepts the next one. -/
def serve (s : State) : Host.Outcome State Fault Refusal :=
  match s.port.current with
  | some c => runCommand c s
  | none => .next { s with port := accept s.port }

end Sys2Proof.Machine
end

