-- ==== Sys2Proof/Machine/Step.lean ====
section
/-!
DEFINITION. The step of the machine, and the placing of a command where the next step runs it (ledger 8).
-/

namespace Sys2Proof.Machine

/-- One step: while the reset input is asserted, its effect (70_reset_and_hazards.md R154); else the port is served. -/
def step (s : State) : Host.Outcome State Fault Refusal :=
  if s.port.resetInput then .next (resetByInput s) else serve s

/-- s with the command whose table bits are w accepted and in execution, the reset input released: the next step runs
exactly it. -/
def State.withFetchWord (s : State) (nbits w : Nat) : State :=
  { s with port := { s.port with current := some (tableCommand nbits w), resetInput := false } }

end Sys2Proof.Machine
end

