-- ==== Sys2Proof/Machine/Assembler.lean ====
section
/-!
DEFINITION. The assembler of this spec on its abstract lines: operands and forms (30_encoding.md R85) and the
pseudo-instructions (R86). The text of a line, its commas and comments are not modelled (ledger 9), and which kinds of
operand may stand in which place of a form is the model's choice (ledger 13); `WR` and `RD` are second spellings of WRITE_REG
and READ_REG.
-/

namespace Sys2Proof.Machine

/-- An operand (R85): a register, waveform or target name, an integer literal, a real literal as a signed fraction, an
infinity, nan, or a raw pattern. -/
inductive AsmOperand where
  | reg (r : Reg)
  | wave (k : WaveKind)
  | target (t : LfoTarget)
  | int (n : Nat)
  | real (negative : Bool) (num den : Nat)
  | inf (negative : Bool)
  | nan
  | pattern (w : Word)
  deriving DecidableEq, Repr

/-- The binary32 word nearest to ±num/den, ties to even (R85). DESIGN CHOICE (ledger 14), unsafe for what an assembler gives:
R85 does not say which zero a negative literal that is or rounds to zero becomes, and the model keeps the sign (0x80000000).
DEDUCED (ledger 15), unsafe in the same way: a literal beyond the finite values becomes the infinity of its sign. -/
def nearestF32 (negative : Bool) (num den : Nat) : Word :=
  pack negative (roundMag (num * 2 ^ 149) den)

/-- The 32-bit word an operand assembles to (R85); that an integer of more than 32 bits and a fraction over 0 have none is a
DESIGN CHOICE (ledger 13). -/
def asmWord : AsmOperand → Option Word
  | .reg r => some ((regIndex r).setWidth 32)
  | .wave k => some ((waveKindCode k).setWidth 32)
  | .target t => some ((lfoTargetCode t).setWidth 32)
  | .int n => if n < 2 ^ 32 then some (BitVec.ofNat 32 n) else none
  | .real negative num den => if den = 0 then none else some (nearestF32 negative num den)
  | .inf negative => some (pack negative infMag)
  | .nan => some canonNaN
  | .pattern w => some w

/-- A line of assembly, by its form (R85). -/
inductive AsmLine where
  | nop
  | writeReg (reg value : AsmOperand)
  | readReg (reg : AsmOperand)
  | noteOn
  | noteOff
  | lfoReset
  | tick
  | envStep
  | lfoStep
  | oscStep (freq : AsmOperand)
  | filtStep (x : AsmOperand)
  | waveEval (kind phase : AsmOperand)
  | reset
  deriving DecidableEq, Repr

/-- The CMD word of an opcode with an operand in its reg or kind place; none where the operand does not fit in the ARG
field (R85). DESIGN CHOICE (ledger 13), unsafe for what an assembler accepts: R85 does not say which kinds of operand may
stand there, and the model takes any whose word is below 0x100. -/
def asmCmd (base : Word) (arg : AsmOperand) : Option Word :=
  match asmWord arg with
  | none => none
  | some w => if w < 0x100#32 then some (base ||| w) else none

/-- The transaction of CMD and DATA operands, both of which must assemble. -/
def asmPair (cmd data : Option Word) : Option Command :=
  match cmd, data with
  | some c, some d => some { cmd := c, data := d }
  | _, _ => none

/-- The transaction a line assembles to; DATA = 0 where the form has none (R85). -/
def assemble : AsmLine → Option Command
  | .nop => asmPair (some 0x00000000) (some 0)
  | .writeReg reg value => asmPair (asmCmd 0x10000000 reg) (asmWord value)
  | .readReg reg => asmPair (asmCmd 0x20000000 reg) (some 0)
  | .noteOn => asmPair (some 0x30000000) (some 0)
  | .noteOff => asmPair (some 0x40000000) (some 0)
  | .lfoReset => asmPair (some 0x50000000) (some 0)
  | .tick => asmPair (some 0x60000000) (some 0)
  | .envStep => asmPair (some 0x70000000) (some 0)
  | .lfoStep => asmPair (some 0x80000000) (some 0)
  | .oscStep freq => asmPair (some 0x90000000) (asmWord freq)
  | .filtStep x => asmPair (some 0xA0000000) (asmWord x)
  | .waveEval kind phase => asmPair (asmCmd 0xB0000000 kind) (asmWord phase)
  | .reset => asmPair (some 0xC0000000) (some 0)

/-- A pseudo-instruction (R86); the sample rate of SETRATE is the fraction num/den. The kinds of operand each takes are a
DESIGN CHOICE (ledger 13). -/
inductive Pseudo where
  | route (t : LfoTarget)
  | setCut (v : AsmOperand)
  | setRate (num den : Nat)
  | clrStatus
  | ticks (n : Nat)
  | lfoRetrig
  deriving DecidableEq, Repr

/-- The lines a pseudo-instruction expands to, in order (R86). -/
def expand : Pseudo → List AsmLine
  | .route t =>
    [.writeReg (.reg .lfoTarget) (.target t), .writeReg (.reg .lfoEnable) (.int (if t = .none then 0 else 1))]
  | .setCut v => [.writeReg (.reg .baseCutoff) v, .writeReg (.reg .filtCutoff) v]
  | .setRate num den => [.writeReg (.reg .dt) (.real false den num)]
  | .clrStatus => [.writeReg (.reg .status) (.int 0x3)]
  | .ticks n => List.replicate n .tick
  | .lfoRetrig => [.noteOn, .lfoReset]

end Sys2Proof.Machine
end

