-- ==== Sys2Proof/Machine/Environment.lean ====
section
/-!
DEFINITION. What the outside does to the block: the two producers offer commands (20_memory.md R62, R63, R73), the platform
drives the reset input (70_reset_and_hazards.md R154). None of these is a step of the block. And the end of a run: a
sequence of commands executed in order, and its observation (20_memory.md R74).
-/

namespace Sys2Proof.Machine

/-- HOST offers a command; it waits its turn behind its earlier ones (20_memory.md R65, R66). -/
def offerHost (c : Command) (s : State) : State :=
  { s with port := { s.port with hostQueue := s.port.hostQueue ++ [c] } }

/-- TICKER offers a command; it waits its turn behind its earlier ones (20_memory.md R65, R66). -/
def offerTicker (c : Command) (s : State) : State :=
  { s with port := { s.port with tickerQueue := s.port.tickerQueue ++ [c] } }

/-- The two producers of commands (20_memory.md R63). -/
inductive Producer where
  | host | ticker
  deriving DecidableEq, Repr

/-- A producer offers a command; either may offer any (20_memory.md R63). -/
def offer (who : Producer) (c : Command) (s : State) : State :=
  match who with
  | .host => offerHost c s
  | .ticker => offerTicker c s

/-- The platform asserts the reset input (70_reset_and_hazards.md R154). -/
def assertReset (s : State) : State := { s with port := { s.port with resetInput := true } }

/-- The platform releases the reset input (70_reset_and_hazards.md R154). -/
def releaseReset (s : State) : State := { s with port := { s.port with resetInput := false } }

/-- The commands cs executed one after the other, in this order, each put into execution when the one before has answered
(20_memory.md R65, R74). It is the total order of a run seen after the merge: s is meant with no command in execution. -/
def runCommands : List Command → State → Host.Outcome State Fault Refusal
  | [], s => .next s
  | c :: cs, s =>
    match runCommand c s with
    | .next t => runCommands cs t
    | .fault r => .fault r
    | .refused r => .refused r

/-- The observation of a run: the responses, and every mapped register's word in the order of 10_state.md R20
(20_memory.md R74). -/
def observe (s : State) : List Response × List Word :=
  (s.port.responses, allRegs.map fun r => readRegister r s.regs)

end Sys2Proof.Machine
end

