-- ==== Sys2Proof/Machine/Bus.lean ====
section
/-!
DEFINITION. The optional byte-addressed mapping of the register file (20_memory.md R56, R57): register index i at byte
offset 4·i from a platform base, each word little-endian, only aligned 32-bit accesses. An access is a producer's offer at
the command port, so it waits there as every command does (R62, R66; ledger 12).
-/

namespace Sys2Proof.Machine

/-- An access on the platform's bus: the producer that makes it, its byte offset from the base, its width in bits, and the
word stored, none for a load. -/
structure BusAccess where
  producer : Producer
  offset : Nat
  width : Nat
  store : Option Word
  deriving DecidableEq, Repr

/-- The byte k (0 to 3) of a word on the bus, at byte offset 4·i + k: bits 8k+7:8k (R56). -/
def busByte (w : Word) (k : Nat) : BitVec 8 := w.extractLsb' (8 * k) 8

/-- The command an access stands for, none where the spec gives the access no meaning (R56, R57; ledger 12). -/
def busCommand (a : BusAccess) : Option Command :=
  if a.width = 32 ∧ a.offset % 4 = 0 ∧ a.offset / 4 < 256 then
    let idx : RegIndex := BitVec.ofNat 8 (a.offset / 4)
    match a.store with
    | none => some (encode (.readReg idx))
    | some v => some (encode (.writeReg idx v))
  else none

/-- An access on the bus: its producer offers the command it stands for, behind its earlier ones, whatever the port is
doing (R62, R66), or it is refused by name (R57, 93_implementation_defined.md I28). The port accepts and executes the
offer by its own steps. -/
def busStep (a : BusAccess) (s : State) : Host.Outcome State Fault Refusal :=
  match busCommand a with
  | some c => .next (offer a.producer c s)
  | none => .refused .busAccess

end Sys2Proof.Machine
end

