-- ==== Sys2Proof/Safety.lean ====
section
/-!
DEFINITION. The terms claims are stated in: what a correctly rounded result is, what is assumed of SIN32, the verdict of
the decode checks written from 60_exceptions.md R142 in plain numbers, the machine invariant, and the ranges and contracts
of the units.
-/

namespace Sys2Proof.Machine

/-! ## Values -/

/-- The real value of a finite binary32 word, a rational (00_scope.md R9). -/
def fRat (a : Word) : ℚ := (fUnits a : ℚ) / 2 ^ 149

/-- r is the binary32 word the exact result x rounds to: to nearest, ties to even, to infinity from the midpoint above
the largest finite value on; a non-zero x gives its sign to r (00_scope.md R9, R10). -/
def RoundsTo (x : ℚ) (r : Word) : Prop :=
  (x ≠ 0 → fSign r = decide (x < 0)) ∧
  if (2 ^ 24 - 1 / 2) * 2 ^ 104 ≤ |x| then isInf r = true
  else isFinite r = true ∧
    (∀ q, isFinite q = true → |fRat r - x| ≤ |fRat q - x|) ∧
    (∀ q, isFinite q = true → |fRat q - x| = |fRat r - x| → fRat q ≠ fRat r → r.toNat % 2 = 0)

/-- A word that is the canonical NaN if it is a NaN (00_scope.md R11). -/
def canonical (a : Word) : Prop := isNaN a = true → a = canonNaN

/-- a is in [+0, 1] (43_envelope.md R112). -/
def inUnit (a : Word) : Prop := fge a posZero = true ∧ fle a ONE = true

/-- a is in [-1, 1] (41_waveform_generator.md R97). -/
def inSignedUnit (a : Word) : Prop := fge a NEG1 = true ∧ fle a ONE = true

/-- p is in [0, TWO_PI) (42_phase_accumulator.md R101). -/
def inPhase (p : Word) : Prop := fge p posZero = true ∧ flt p TWO_PI = true

/-- a is positive and finite (43_envelope.md R112). -/
def posFinite (a : Word) : Prop := fgt a posZero = true ∧ isFinite a = true

/-! ## SIN32 (00_scope.md R12) -/

/-- The properties (a), (b) and (c) of R12; (e) holds of any function. -/
def SinProperties (f : Word → Word) : Prop :=
  (∀ x, isFinite x = true → inSignedUnit (f x)) ∧ f posZero = posZero ∧ f negZero = negZero ∧
  ∀ x, isFinite x = false → f x = canonNaN

/-- The property (d) of R12 with the bound SIN_ERR = err: within 4·TWO_PI of 0, SIN32 is within err of the real sine. A
claim about accuracy takes it as a hypothesis. -/
def SinAccurate (err : ℝ) : Prop :=
  ∀ x, isFinite x = true → fle (fabs x) (fmul 0x40800000 TWO_PI) = true →
    |((fRat (sin32 x) : ℚ) : ℝ) - Real.sin ((fRat x : ℚ) : ℝ)| ≤ err

/-! ## The verdict of the decode checks, in numbers (60_exceptions.md R142) -/

/-- The unmapped indices of 10_state.md R21. -/
def unmappedIndex (a : Nat) : Bool :=
  (decide (0x11 ≤ a) && decide (a ≤ 0x1F)) || (decide (0x25 ≤ a) && decide (a ≤ 0x27)) || decide (a = 0x2F) ||
    decide (0x31 ≤ a)

/-- The mapped indices of access RO (10_state.md R20). -/
def readOnlyIndex (a : Nat) : Bool :=
  decide (a = 0x00) || (decide (0x20 ≤ a) && decide (a ≤ 0x24)) || (decide (0x28 ≤ a) && decide (a ≤ 0x2E))

/-- The first check a transaction fails, none if it passes all (60_exceptions.md R142). -/
def specVerdict (c : Command) : Option RejectCode :=
  let op := c.cmd.toNat / 2 ^ 28
  let rsv := c.cmd.toNat / 2 ^ 8 % 2 ^ 20
  let arg := c.cmd.toNat % 2 ^ 8
  let data := c.data.toNat
  if 0xD ≤ op then some .illegalOp
  else if rsv ≠ 0 then some .reservedBits
  else if op = 0xB ∧ arg / 2 ^ 2 ≠ 0 then some .reservedBits
  else if op ≠ 0x1 ∧ op ≠ 0x2 ∧ op ≠ 0xB ∧ arg ≠ 0 then some .reservedBits
  else if (op = 0x1 ∨ op = 0x2) ∧ unmappedIndex arg = true then some .badReg
  else if op = 0x1 ∧ readOnlyIndex arg = true then some .readOnly
  else if op = 0x1 ∧ (arg = 0x01 ∨ arg = 0x0D ∨ arg = 0x0E) ∧ 3 < data then some .badValue
  else if op = 0x1 ∧ arg = 0x0F ∧ 1 < data then some .badValue
  else none

/-! ## The words of the registers, in numbers (10_state.md R20, R22 to R51, R53) -/

/-- The number of a WaveformKind, from the table of R53. -/
def waveNumber (k : WaveKind) : Nat :=
  match k with
  | .sine => 0
  | .square => 1
  | .triangle => 2
  | .saw => 3

/-- The number of an LFOTarget, from the table of R53. -/
def targetNumber (k : LfoTarget) : Nat :=
  match k with
  | .none => 0
  | .pitch => 1
  | .amplitude => 2
  | .filter => 3

/-- The number of an EnvelopeState, from the table of R53. -/
def stateNumber (k : EnvState) : Nat :=
  match k with
  | .idle => 0
  | .attack => 1
  | .decay => 2
  | .sustain => 3
  | .release => 4

/-- STATUS as a number: ERR in bit 0, NONFINITE in bit 1, LAST_ERR in bits 11:8, the other bits 0 (R51). -/
def statusNumber (t : StatusReg) : Nat := t.err.toNat + 2 ^ 1 * t.nonfinite.toNat + 2 ^ 8 * t.lastErr.toNat

/-- The word at each mapped index, from the table of R20 and the fields of R22 to R51. -/
def mapWords (g : Regs) : List (Nat × Word) :=
  [(0x00, 0x47530007), (0x01, BitVec.ofNat 32 (waveNumber g.waveType)), (0x02, g.baseFreq), (0x03, g.amplitude),
   (0x04, g.envAttack), (0x05, g.envDecay), (0x06, g.envSustain), (0x07, g.envRelease), (0x08, g.baseCutoff),
   (0x09, g.filtCutoff), (0x0A, g.filtResonance), (0x0B, g.lfoRate), (0x0C, g.lfoDepth),
   (0x0D, BitVec.ofNat 32 (waveNumber g.lfoWave)), (0x0E, BitVec.ofNat 32 (targetNumber g.lfoTarget)),
   (0x0F, BitVec.ofNat 32 g.lfoEnable.toNat), (0x10, g.dt),
   (0x20, BitVec.ofNat 32 (stateNumber g.envState)), (0x21, g.envValue), (0x22, g.oscPhase), (0x23, g.lfoPhase),
   (0x24, g.filtPrev), (0x28, g.outSample), (0x29, g.lastEnv), (0x2A, g.lastLfo), (0x2B, g.lastModFreq),
   (0x2C, g.lastModAmp), (0x2D, g.lastModCutoff), (0x2E, g.tickCount),
   (0x30, BitVec.ofNat 32 (statusNumber g.status))]

/-! ## Answers -/

/-- The port of s after the command in execution has answered (code, w): none in execution, one response more, nothing
else changed (20_memory.md R62). -/
def answered (s : State) (code : StatusCode) (w : Word) : Port :=
  { s.port with current := none, responses := s.port.responses ++ [{ status := code, resp := w }] }

/-- s after a rejection with the code: ERR set, LAST_ERR the code, the answer (code, 0), nothing else changed
(60_exceptions.md R140). -/
def rejectedState (s : State) (code : StatusCode) : State :=
  { regs := { s.regs with status := { s.regs.status with err := true, lastErr := code } }
    port := answered s code 0 }

/-- ENV_STEP from s leaves the envelope in state st at value w, answers (OK, w) and changes nothing else
(43_envelope.md R116). -/
def envStepGives (s : State) (st : EnvState) (w : Word) : Prop :=
  exec .envStep s = .next { regs := { s.regs with envState := st, envValue := w }, port := answered s 0 w }

/-! ## The machine invariant -/

/-- LAST_ERR holds a code of 60_exceptions.md R141, and a refusal's code once ERR is set. -/
def statusLegal (t : StatusReg) : Prop := t.lastErr ≤ 5#4 ∧ (t.err = true → t.lastErr ≠ 0#4)

/-- A response carries a code of R141, and RESP 0 with a code other than OK (R140). -/
def responseLegal (r : Response) : Prop := r.status ≤ 5#4 ∧ (r.status ≠ 0#4 → r.resp = 0#32)

/-- The registers that hold results of arithmetic hold no NaN but the canonical one (00_scope.md R11). ENV_VALUE and the
LAST_MOD registers may hold copies of parameters, so they are not among them. -/
def unitCanonical (g : Regs) : Prop :=
  canonical g.oscPhase ∧ canonical g.lfoPhase ∧ canonical g.filtPrev ∧ canonical g.outSample ∧ canonical g.lastLfo

/-- The invariant of the machine. -/
def MachineInv (s : State) : Prop :=
  statusLegal s.regs.status ∧ (∀ r ∈ s.port.responses, responseLegal r) ∧ unitCanonical s.regs

/-! ## Contracts and situations -/

/-- The envelope's contract of 43_envelope.md R112. -/
def envInContract (g : Regs) : Prop :=
  posFinite g.envAttack ∧ posFinite g.envDecay ∧ posFinite g.envRelease ∧ posFinite g.dt ∧
  inUnit g.envSustain ∧ inUnit g.envValue

/-- A voice at rest, as reset leaves it (70_reset_and_hazards.md R157): the envelope Idle, nothing modulated, a sine at a
phase and an increment in range, a positive cutoff and a filter history of +0. -/
def quietVoice (g : Regs) : Prop :=
  g.envState = .idle ∧ g.lfoTarget = .none ∧ g.waveType = .sine ∧ inPhase g.oscPhase ∧
  inPhase (phaseInc g.baseFreq g.dt) ∧ isFinite g.amplitude = true ∧ posFinite g.filtCutoff ∧ g.filtPrev = posZero

/-- The register file without the registers no command's computation reads: FILT_RESONANCE (10_state.md R32) and the
observation registers (46_pipeline.md R136). -/
def eraseUnread (g : Regs) : Regs :=
  { g with
    filtResonance := 0
    outSample := 0
    lastEnv := 0
    lastLfo := 0
    lastModFreq := 0
    lastModAmp := 0
    lastModCutoff := 0
    tickCount := 0 }

/-- The registers `eraseUnread` drops. -/
def unreadRegs : List Reg :=
  [.filtResonance, .outSample, .lastEnv, .lastLfo, .lastModFreq, .lastModAmp, .lastModCutoff, .tickCount]

end Sys2Proof.Machine
end

