-- ==== Sys2Proof/WellFormed.lean ====
section
/-!
DEFINITION. A command is well-formed when its operands pass the checks of 60_exceptions.md R142: a mapped index, a
writable register, a value within the register's range. Every value of `Instr` has an encoding; an ill-formed one is
refused by the block with the code of the check it fails.
-/

namespace Sys2Proof

/-- The operands pass every check (60_exceptions.md R142, R143). -/
def wellFormed (i : Instr) : Bool := (Machine.operandCheck i).isNone

end Sys2Proof
end

