-- ==== Sys2Proof/Certificates/Slice0/Obligations.lean ====
section
/-!
DEFINITION. The statements for the provers. Each docstring names the rule of spec/ it formalises. Free choices of Config
(SIN32, SQUARE_TIE, ARB, the command in flight at reset) are opaque, so each statement holds for every value of them.
-/

open Sys2Proof Sys2Proof.Machine

/-! ## Encoding (30_encoding.md) -/

/-- Decoding the encoding of any command gives it back (R76, R77, R79, R80, R85). -/
def Obligations.DecodeEncodeRoundTrip : Prop :=
  ∀ i : Instr, decode (encode i) = .command i

/-- A transaction that decodes to a command is that command's encoding, but for a DATA word the command ignores: then
every DATA decodes to it (R76, R84). -/
def Obligations.DecodedCommandReencodes : Prop :=
  ∀ (c : Command) (i : Instr), decode c = .command i →
    (encode i).cmd = c.cmd ∧ ((encode i).data = c.data ∨ ∀ d, decode { c with data := d } = .command i)

/-- A command is selected when CMD AND mask = match of its row, and no row but its own selects a CMD (R80). -/
def Obligations.OpcodeMapSelects : Prop :=
  (∀ (c : Command) (i : Instr), decode c = .command i → c.cmd &&& rowMask i = rowMatch i) ∧
  (∀ (c : Command) (j : Instr), c.cmd &&& rowMask j = rowMatch j →
    ∃ i, decode c = .command i ∧ rowMatch i = rowMatch j ∧ rowMask i = rowMask j)

/-- The decoder's own refusals, and when it makes them (R81, R82, R84). -/
def Obligations.DecoderRefusesBadWords : Prop :=
  ∀ c : Command,
    (decode c = .rejected .illegalOp ↔ 0xD ≤ c.cmd.toNat / 2 ^ 28) ∧
    (decode c = .rejected .reservedBits ↔
      c.cmd.toNat / 2 ^ 28 < 0xD ∧
      (c.cmd.toNat / 2 ^ 8 % 2 ^ 20 ≠ 0 ∨
        (c.cmd.toNat / 2 ^ 28 = 0xB ∧ c.cmd.toNat % 2 ^ 8 / 2 ^ 2 ≠ 0) ∨
        (c.cmd.toNat / 2 ^ 28 ≠ 0x1 ∧ c.cmd.toNat / 2 ^ 28 ≠ 0x2 ∧ c.cmd.toNat / 2 ^ 28 ≠ 0xB ∧
          c.cmd.toNat % 2 ^ 8 ≠ 0))) ∧
    (∀ code, decode c = .rejected code → code = .illegalOp ∨ code = .reservedBits)

/-- The worked encodings of R87: assembled, then decoded; and the two refused words. -/
def Obligations.WorkedEncodingsDecode : Prop :=
  assemble (.writeReg (.reg .baseFreq) (.real false 440 1)) = some ⟨0x10000002, 0x43DC0000⟩ ∧
  decode ⟨0x10000002, 0x43DC0000⟩ = .command (.writeReg 0x02 0x43DC0000) ∧
  assemble (.readReg (.reg .oscPhase)) = some ⟨0x20000022, 0⟩ ∧
  decode ⟨0x20000022, 0⟩ = .command (.readReg 0x22) ∧
  assemble (.waveEval (.wave .saw) (.real false 314159274 100000000)) = some ⟨0xB0000003, 0x40490FDB⟩ ∧
  decode ⟨0xB0000003, 0x40490FDB⟩ = .command (.waveEval .saw 0x40490FDB) ∧
  assemble (.writeReg (.reg .lfoTarget) (.target .filter)) = some ⟨0x1000000E, 0x00000003⟩ ∧
  decode ⟨0x1000000E, 0x00000003⟩ = .command (.writeReg 0x0E 0x00000003) ∧
  (∀ d, decode ⟨0x30000100, d⟩ = .rejected .reservedBits) ∧
  (∀ d, decode ⟨0xD0000000, d⟩ = .rejected .illegalOp)

/-- Each form of the assembler is the encoding of its command (R85). -/
def Obligations.AssembledFormsEncode : Prop :=
  ∀ (r : Reg) (k : WaveKind) (v : Word),
    assemble (.writeReg (.reg r) (.pattern v)) = some (encode (.writeReg (regIndex r) v)) ∧
    assemble (.readReg (.reg r)) = some (encode (.readReg (regIndex r))) ∧
    assemble (.oscStep (.pattern v)) = some (encode (.oscStep v)) ∧
    assemble (.filtStep (.pattern v)) = some (encode (.filtStep v)) ∧
    assemble (.waveEval (.wave k) (.pattern v)) = some (encode (.waveEval k v)) ∧
    assemble .nop = some (encode .nop) ∧ assemble .noteOn = some (encode .noteOn) ∧
    assemble .noteOff = some (encode .noteOff) ∧ assemble .lfoReset = some (encode .lfoReset) ∧
    assemble .tick = some (encode .tick) ∧ assemble .envStep = some (encode .envStep) ∧
    assemble .lfoStep = some (encode .lfoStep) ∧ assemble .reset = some (encode .reset)

/-! ## The command port (20_memory.md, 70_reset_and_hazards.md) -/

/-- A step with a command in execution and the reset input released is that command: exec of what it decodes to, or its
rejection by the decoder's verdict (20_memory.md R64, 30_encoding.md R84). -/
def Obligations.StepRunsDecodedCommand : Prop :=
  ∀ (s : State) (c : Command), s.port.resetInput = false → s.port.current = some c →
    (∀ i, decode c = .command i → step s = exec i s) ∧
    (∀ code, decode c = .rejected code → step s = .next (rejectedState s (rejectStatus code)))

/-- With no command in execution and the reset input released, a step accepts the oldest offer of one producer and
leaves the other's, or, without an offer, changes nothing; the register file and the responses stay
(20_memory.md R65, R66, R75). -/
def Obligations.StepAcceptsOldestOffer : Prop :=
  ∀ s : State, s.port.resetInput = false → s.port.current = none →
    ∃ t, step s = .next t ∧ t.regs = s.regs ∧ t.port.responses = s.port.responses ∧ t.port.resetInput = false ∧
      ((s.port.hostQueue = [] ∧ s.port.tickerQueue = [] ∧ t = s) ∨
       (∃ c rest, s.port.hostQueue = c :: rest ∧ t.port.current = some c ∧ t.port.hostQueue = rest ∧
          t.port.tickerQueue = s.port.tickerQueue) ∨
       (∃ c rest, s.port.tickerQueue = c :: rest ∧ t.port.current = some c ∧ t.port.tickerQueue = rest ∧
          t.port.hostQueue = s.port.hostQueue))

/-- While the reset input is asserted a step leaves every register at its reset value and accepts nothing; a command in
flight responds as it would have, or is abandoned without a response (70_reset_and_hazards.md R154, R155). -/
def Obligations.StepUnderResetInput : Prop :=
  ∀ s : State, s.port.resetInput = true →
    ∃ t, step s = .next t ∧ t.regs = Regs.reset ∧ t.port.current = none ∧ t.port.resetInput = true ∧
      t.port.hostQueue = s.port.hostQueue ∧ t.port.tickerQueue = s.port.tickerQueue ∧
      (t.port.responses = s.port.responses ∨
        ∃ c t', s.port.current = some c ∧ runCommand c s = .next t' ∧ t.port.responses = t'.port.responses)

/-- Every accepted command produces exactly one response, after the earlier ones, and is then no longer in execution;
nothing else of the port changes (20_memory.md R62). -/
def Obligations.EveryCommandAnswersOnce : Prop :=
  ∀ (c : Command) (s : State), ∃ t code w, runCommand c s = .next t ∧ t.port = answered s code w

/-- No step ever faults or is refused: arithmetic never traps, every transaction is executed or rejected
(60_exceptions.md R144, R146, 30_encoding.md R84). -/
def Obligations.StepAlwaysAnswersNext : Prop :=
  ∀ s : State, ∃ t, step s = .next t

/-- Every step keeps the machine invariant: LAST_ERR a code of R141 and a refusal's code while ERR is set (R140), every
response a code of R141 with RESP 0 unless OK (R140), unit results never a NaN but the canonical one (00_scope.md R11). -/
def Obligations.StepKeepsMachineInvariant : Prop :=
  ∀ s t : State, MachineInv s → step s = .next t → MachineInv t

/-- The reset state meets the machine invariant (10_state.md R20). That no response has been sent there is the model's own
choice (log entry 6). -/
def Obligations.ResetMeetsMachineInvariant : Prop :=
  MachineInv State.reset

/-! ## Rejections (60_exceptions.md) -/

/-- A command that the checks of R142 refuse with a code does exactly this: ERR set, LAST_ERR the code, the response
(code, 0); and the codes are those of R141 (R140, R146). -/
def Obligations.RejectedCommandOnlyTouchesStatus : Prop :=
  (∀ (c : Command) (code : RejectCode) (s : State), specVerdict c = some code →
    runCommand c s = .next (rejectedState s (rejectStatus code))) ∧
  rejectStatus .illegalOp = 1 ∧ rejectStatus .reservedBits = 2 ∧ rejectStatus .badReg = 3 ∧
  rejectStatus .readOnly = 4 ∧ rejectStatus .badValue = 5

/-- A command that passes every check of R142 is executed by its rule and answers OK. -/
def Obligations.PassedChecksExecute : Prop :=
  ∀ (c : Command) (s : State), specVerdict c = none →
    ∃ i t w, decode c = .command i ∧ wellFormed i = true ∧ runCommand c s = exec i s ∧ exec i s = .next t ∧
      t.port = answered s 0 w

/-- READ_REG or WRITE_REG of an unmapped index is rejected with BAD_REG and changes nothing else (10_state.md R21). -/
def Obligations.UnmappedIndexIsRefused : Prop :=
  ∀ (a : Nat) (v : Word) (s : State), a < 256 → unmappedIndex a = true →
    exec (.readReg (BitVec.ofNat 8 a)) s = .next (rejectedState s 3) ∧
    exec (.writeReg (BitVec.ofNat 8 a) v) s = .next (rejectedState s 3)

/-! ## Interface commands and triggers (40_interface_commands.md, 43_envelope.md, 44_lfo.md) -/

/-- NOP changes nothing but its answer; NOTE_ON and NOTE_OFF set ENV_STATE alone to Attack and Release; LFO_RESET sets
LFO_PHASE alone to +0; each answers (OK, 0) (R88, R114, R115, R120). -/
def Obligations.TriggersSetOneRegister : Prop :=
  ∀ s : State,
    exec .nop s = .next { regs := s.regs, port := answered s 0 0 } ∧
    exec .noteOn s = .next { regs := { s.regs with envState := .attack }, port := answered s 0 0 } ∧
    exec .noteOff s = .next { regs := { s.regs with envState := .release }, port := answered s 0 0 } ∧
    exec .lfoReset s = .next { regs := { s.regs with lfoPhase := 0x00000000 }, port := answered s 0 0 }

/-- READ_REG of a mapped register answers its word and changes no register (R90). The word at each index is the one of
the table `mapWords`: ID constant (10_state.md R22), an enumeration its number (R53), a flag its bit, STATUS with ERR in bit
0, NONFINITE in bit 1, LAST_ERR in bits 11:8 and the other bits 0 (R51), every other register its own field (R20 to R50);
and the table has every mapped index (R20, R21). -/
def Obligations.ReadRegAnswersRegisterWord : Prop :=
  (∀ (r : Reg) (s : State),
    exec (.readReg (regIndex r)) s = .next { regs := s.regs, port := answered s 0 (readRegister r s.regs) }) ∧
  (∀ (s : State), ∀ e ∈ mapWords s.regs,
    exec (.readReg (BitVec.ofNat 8 e.1)) s = .next { regs := s.regs, port := answered s 0 e.2 }) ∧
  (∀ (g : Regs) (a : Nat), a < 256 → unmappedIndex a = false → ∃ w, (a, w) ∈ mapWords g)

/-- WRITE_REG of a legal value to a writable register other than STATUS stores the whole word and changes no other
register (R89, 20_memory.md R59). -/
def Obligations.WriteRegStoresLegalValue : Prop :=
  ∀ (r : Reg) (v : Word) (s : State), writeKind r ≠ .readOnly → writeKind r ≠ .w1c →
    (writeKind r = .enum2 → v ≤ 3#32) → (writeKind r = .flag1 → v ≤ 1#32) →
    ∃ t, exec (.writeReg (regIndex r) v) s = .next t ∧ t.port = answered s 0 0 ∧ readRegister r t.regs = v ∧
      ∀ r', r' ≠ r → readRegister r' t.regs = readRegister r' s.regs

/-- WRITE_REG STATUS clears ERR and NONFINITE where DATA has a 1, and changes nothing else; it is never rejected
(10_state.md R51). -/
def Obligations.WriteStatusClearsStickyBits : Prop :=
  ∀ (v : Word) (s : State),
    exec (.writeReg 0x30 v) s = .next
      { regs := { s.regs with
          status := {
            err := s.regs.status.err && !v.getLsbD 0
            nonfinite := s.regs.status.nonfinite && !v.getLsbD 1
            lastErr := s.regs.status.lastErr } }
        port := answered s 0 0 }

/-- RESET gives every mapped register its reset value, the words of 10_state.md R20 in its order, whatever the state
before; these are also the registers of the reset state (R91, 70_reset_and_hazards.md R155, R156). -/
def Obligations.ResetRestoresEveryRegister : Prop :=
  ∀ s : State,
    ∃ t, exec .reset s = .next t ∧ t.port = answered s 0 0 ∧ t.regs = State.reset.regs ∧
      allRegs.map (fun r => readRegister r t.regs) =
        [0x47530007, 0x00000000, 0x43DC0000, 0x3F800000, 0x3C23D70A, 0x3DCCCCCD, 0x3F4CCCCD, 0x3E4CCCCD, 0x447A0000,
         0x447A0000, 0x00000000, 0x40A00000, 0x3F000000, 0x00000000, 0x00000000, 0x00000000, 0x37BE37C6,
         0x00000000, 0x00000000, 0x00000000, 0x00000000, 0x00000000, 0x00000000, 0x00000000, 0x00000000, 0x00000000,
         0x00000000, 0x00000000, 0x00000000, 0x00000000]

/-- A READ_REG right after a legal WRITE_REG of the same register answers the value written (20_memory.md R67, R68,
70_reset_and_hazards.md R167). -/
def Obligations.WriteThenReadReturnsValue : Prop :=
  ∀ (r : Reg) (v : Word) (s : State), writeKind r ≠ .readOnly → writeKind r ≠ .w1c →
    (writeKind r = .enum2 → v ≤ 3#32) → (writeKind r = .flag1 → v ≤ 1#32) →
    ∃ t, runCommands [encode (.writeReg (regIndex r) v), encode (.readReg (regIndex r))] s = .next t ∧
      t.port.responses = s.port.responses ++ [{ status := 0, resp := 0 }, { status := 0, resp := v }]

/-- ROUTE sets LFO_TARGET to its target and LFO_ENABLE to (target is not None), and no other register
(30_encoding.md R86, 70_reset_and_hazards.md R161). -/
def Obligations.RouteSetsTargetAndEnable : Prop :=
  ∀ (tgt : LfoTarget) (s : State),
    ∃ cs t, (expand (.route tgt)).mapM assemble = some cs ∧ runCommands cs s = .next t ∧
      t.regs = { s.regs with lfoTarget := tgt, lfoEnable := decide (tgt ≠ .none) }

/-- On the byte-addressed mapping an access at a multiple of 4, 32 bits wide, reaches one register, any other reaches none
and is refused, and byte k of a word is bits 8k+7:8k (20_memory.md R56, R57). That the access is its producer's offer of
READ_REG or WRITE_REG of index i = offset/4, with that command's effect and response when the port runs it, and that an
offset beyond 1023 is refused, is the model's deduction (log entry 12; supported by R54). So an access drops no accepted
command and passes no earlier offer of its producer (R62, R66). -/
def Obligations.BusAccessReachesOneRegister : Prop :=
  (∀ (who : Producer) (i : Nat) (v : Word) (s : State), i < 256 →
    busStep { producer := who, offset := 4 * i, width := 32, store := none } s =
      .next (offer who (encode (.readReg (BitVec.ofNat 8 i))) s) ∧
    busStep { producer := who, offset := 4 * i, width := 32, store := some v } s =
      .next (offer who (encode (.writeReg (BitVec.ofNat 8 i) v)) s)) ∧
  (∀ (who : Producer) (i : Nat) (v : Word) (s : State), i < 256 → s.port.resetInput = false → s.port.current = none →
    s.port.hostQueue = [] → s.port.tickerQueue = [] →
    (∃ t u, busStep { producer := who, offset := 4 * i, width := 32, store := none } s = .next t ∧ step t = .next u ∧
      u.regs = s.regs ∧ u.port.responses = s.port.responses ∧ step u = exec (.readReg (BitVec.ofNat 8 i)) u) ∧
    (∃ t u, busStep { producer := who, offset := 4 * i, width := 32, store := some v } s = .next t ∧ step t = .next u ∧
      u.regs = s.regs ∧ u.port.responses = s.port.responses ∧ step u = exec (.writeReg (BitVec.ofNat 8 i) v) u)) ∧
  (∀ (a : BusAccess) (s t : State), busStep a s = .next t →
    t.regs = s.regs ∧ t.port.current = s.port.current ∧ t.port.responses = s.port.responses ∧
    s.port.hostQueue <+: t.port.hostQueue ∧ s.port.tickerQueue <+: t.port.tickerQueue) ∧
  (∀ (a : BusAccess) (s : State), ¬ (a.width = 32 ∧ a.offset % 4 = 0 ∧ a.offset < 4 * 256) →
    busStep a s = .refused .busAccess) ∧
  (∀ (w : Word) (k : Nat), k < 4 → (busByte w k).toNat = w.toNat / 2 ^ (8 * k) % 2 ^ 8)

/-! ## Arithmetic (00_scope.md) -/

/-- Addition and subtraction of finite words are correctly rounded, and an exact zero sum is +0 except (-0) + (-0) = -0
(R9, R10). -/
def Obligations.SumsRoundCorrectly : Prop :=
  ∀ a b : Word, isFinite a = true → isFinite b = true →
    RoundsTo (fRat a + fRat b) (fadd a b) ∧ RoundsTo (fRat a - fRat b) (fsub a b) ∧
    (fRat a + fRat b = 0 → fadd a b = if fSign a && fSign b then negZero else posZero)

/-- Multiplication of finite words, and division by a non-zero one, are correctly rounded, with the XOR of the signs
(R9, R10). -/
def Obligations.ProductsAndQuotientsRoundCorrectly : Prop :=
  ∀ a b : Word, isFinite a = true → isFinite b = true →
    RoundsTo (fRat a * fRat b) (fmul a b) ∧ fSign (fmul a b) = (fSign a != fSign b) ∧
    (isZero b = false → RoundsTo (fRat a / fRat b) (fdiv a b) ∧ fSign (fdiv a b) = (fSign a != fSign b))

/-- The special cases of R10, one infinite operand and two among them; a NaN operand gives CANON_NAN, and so is every
result that is a NaN (R11). -/
def Obligations.ArithmeticSpecialCases : Prop :=
  (∀ x, isNaN x = false → isZero x = false →
    fdiv x posZero = pack (fSign x) infMag ∧ fdiv x negZero = pack (!fSign x) infMag) ∧
  (∀ a b, isZero a = true → isZero b = true → fdiv a b = canonNaN) ∧
  (∀ a b, isInf a = true → isInf b = true → fdiv a b = canonNaN) ∧
  (∀ a b, isZero a = true → isInf b = true → fmul a b = canonNaN ∧ fmul b a = canonNaN) ∧
  (∀ a b, isInf a = true → isFinite b = true →
    fadd a b = a ∧ fadd b a = a ∧ fsub a b = a ∧ fsub b a = pack (!fSign a) infMag ∧
    fdiv a b = pack (fSign a != fSign b) infMag ∧ fdiv b a = pack (fSign a != fSign b) 0) ∧
  (∀ a b, isInf a = true → isNaN b = false → isZero b = false →
    fmul a b = pack (fSign a != fSign b) infMag ∧ fmul b a = pack (fSign a != fSign b) infMag) ∧
  (∀ a b, isInf a = true → isInf b = true →
    (fSign a = fSign b → fadd a b = a ∧ fsub a b = canonNaN) ∧
    (fSign a ≠ fSign b → fadd a b = canonNaN ∧ fsub a b = a)) ∧
  (∀ a, isFinite a = true → fsub a a = posZero) ∧
  (∀ a b, isNaN a = true ∨ isNaN b = true →
    fadd a b = canonNaN ∧ fsub a b = canonNaN ∧ fmul a b = canonNaN ∧ fdiv a b = canonNaN) ∧
  (∀ a, isNaN a = true → ffloor a = canonNaN ∧ sin32 a = canonNaN) ∧
  (∀ a b, canonical (fadd a b) ∧ canonical (fsub a b) ∧ canonical (fmul a b) ∧ canonical (fdiv a b) ∧
    canonical (ffloor a) ∧ canonical (sin32 a))

/-- Comparisons are false on a NaN and else compare values, -inf below and +inf above every finite value, each equal to
itself; fabs clears the sign bit; ffloor is
the largest integer value not above its operand, exactly (R11). -/
def Obligations.ComparisonsAndFloor : Prop :=
  (∀ a b, isNaN a = true ∨ isNaN b = true →
    flt a b = false ∧ fle a b = false ∧ fgt a b = false ∧ fge a b = false) ∧
  (∀ a b, isFinite a = true → isFinite b = true →
    (flt a b = true ↔ fRat a < fRat b) ∧ (fle a b = true ↔ fRat a ≤ fRat b) ∧
    (fgt a b = true ↔ fRat b < fRat a) ∧ (fge a b = true ↔ fRat b ≤ fRat a)) ∧
  (∀ a b, isInf a = true → isFinite b = true →
    flt a b = fSign a ∧ fle a b = fSign a ∧ fgt a b = !fSign a ∧ fge a b = !fSign a ∧
    flt b a = !fSign a ∧ fle b a = !fSign a ∧ fgt b a = fSign a ∧ fge b a = fSign a) ∧
  (∀ a b, isInf a = true → isInf b = true →
    flt a b = (fSign a && !fSign b) ∧ fle a b = (fSign a || !fSign b) ∧
    fgt a b = (!fSign a && fSign b) ∧ fge a b = (!fSign a || fSign b)) ∧
  (∀ a, (fabs a).toNat = a.toNat % 2 ^ 31) ∧
  (∀ a, isFinite a = true → isFinite (ffloor a) = true ∧ fRat (ffloor a) = (⌊fRat a⌋ : ℚ)) ∧
  (∀ a, isZero a = true ∨ isInf a = true → ffloor a = a) ∧
  (∀ a, isFinite a = true → 0 < fRat a → fRat a < 1 → ffloor a = posZero)

/-! ## Waveform generator (41_waveform_generator.md, 00_scope.md R12) -/

/-- SIN32 as modelled meets R12 for every free choice, every function that meets (a), (b) and (c) is one such choice,
property (d) holds with SIN_ERR = 2 at the worst, and Sine is SIN32 (R93). -/
def Obligations.SinChoiceMeetsProperties : Prop :=
  (∀ raw, SinProperties (sin32Of raw)) ∧ (∀ f, SinProperties f → ∃ raw, sin32Of raw = f) ∧ SinAccurate 2 ∧
  ∀ p, wave .sine p = sin32Of Config.sinRaw p

/-- Square is +1.0 where the sine is above +0, -1.0 where it is below, SQUARE_TIE where it is ±0 or a NaN, and so
exactly +1.0 or -1.0 for every phase (R94). -/
def Obligations.SquareIsAlwaysOne : Prop :=
  ∀ p : Word,
    (fgt (sin32 p) posZero = true → wave .square p = 0x3F800000) ∧
    (flt (sin32 p) posZero = true → wave .square p = 0xBF800000) ∧
    (isZero (sin32 p) = true ∨ isNaN (sin32 p) = true → wave .square p = squareTie) ∧
    (squareTie = 0x3F800000 ∨ squareTie = 0xBF800000) ∧
    (wave .square p = 0x3F800000 ∨ wave .square p = 0xBF800000)

/-- Triangle and Saw by their formulas, with t = p/TWO_PI and u = t - floor(t + 0.5); at t = 0, 1/4, 1/2 and 3/4 Triangle
is -1, 0, +1 and 0; Saw is 0 at t = 0, -1 at t = 1/2, 0 at t = 1 and -0 at p = -0 (R95, R96). -/
def Obligations.TriangleAndSawFollowFormulas : Prop :=
  (∀ p : Word,
    let t := fdiv p TWO_PI
    let u := fsub t (ffloor (fadd t HALF))
    wave .triangle p = fsub (fmul TWO (fabs (fmul TWO u))) ONE ∧ wave .saw p = fmul TWO u) ∧
  wave .triangle 0x00000000 = 0xBF800000 ∧ wave .triangle 0x3FC90FDB = 0x00000000 ∧
  wave .triangle 0x40490FDB = 0x3F800000 ∧ wave .triangle 0x4096CBE4 = 0x00000000 ∧
  wave .saw 0x00000000 = 0x00000000 ∧ wave .saw 0x40490FDB = 0xBF800000 ∧ wave .saw 0x40C90FDB = 0x00000000 ∧
  wave .saw 0x80000000 = 0x80000000

/-- WAVE_EVAL answers the waveform at its phase and changes no register (R99); CMD[1:0] is the waveform's number
(10_state.md R53). -/
def Obligations.WaveEvalAnswersWave : Prop :=
  ∀ (k : WaveKind) (p : Word) (s : State),
    exec (.waveEval k p) s = .next { regs := s.regs, port := answered s 0 (wave k p) } ∧
    decode ⟨BitVec.ofNat 32 (0xB0000000 + waveNumber k), p⟩ = .command (.waveEval k p)

/-- A NaN or infinite phase gives CANON_NAN, SQUARE_TIE for Square. For a finite phase of magnitude 52707184.0 or more
t = p/TWO_PI is an integer k of magnitude 2^23 or more: for an odd k below 2^24 in magnitude Saw is -2.0 and Triangle +3.0,
for every other Saw is +0 and Triangle -1.0 (R97). -/
def Obligations.BrokenPhaseWaves : Prop :=
  (∀ p, isFinite p = false →
    wave .sine p = canonNaN ∧ wave .triangle p = canonNaN ∧ wave .saw p = canonNaN ∧ wave .square p = squareTie) ∧
  (∀ p, isFinite p = true → fle 0x4C490FDC (fabs p) = true →
    ∃ k : Int, isFinite (fdiv p TWO_PI) = true ∧ fRat (fdiv p TWO_PI) = (k : ℚ) ∧ 2 ^ 23 ≤ |k| ∧
      (k % 2 = 1 ∧ |k| < 2 ^ 24 → wave .saw p = 0xC0000000 ∧ wave .triangle p = 0x40400000) ∧
      (¬ (k % 2 = 1 ∧ |k| < 2 ^ 24) → wave .saw p = 0x00000000 ∧ wave .triangle p = 0xBF800000)) ∧
  wave .triangle 0x4C490FDC = 0x40400000 ∧ wave .saw 0x4C490FDC = 0xC0000000

/-- For a phase in [0, TWO_PI), where the voice and the LFO keep theirs, every waveform is in [-1, 1], and Saw is below +1.0
(R97). -/
def Obligations.WavesInRangeOnPhase : Prop :=
  ∀ (k : WaveKind) (p : Word), inPhase p → inSignedUnit (wave k p) ∧ flt (wave .saw p) ONE = true

/-! ## Phase accumulator (42_phase_accumulator.md) -/

/-- PhaseAdvance: the increment 2π·f·dt left to right, and one subtraction of TWO_PI when the sum is at or above it
(R100). -/
def Obligations.PhaseAdvanceFollowsFormula : Prop :=
  ∀ p f dt : Word,
    phaseAdvance p f dt =
      let inc := fmul (fmul TWO_PI f) dt
      let q := fadd p inc
      if fge q TWO_PI = true then fsub q TWO_PI else q

/-- From a phase in [0, TWO_PI) by an increment in [0, TWO_PI) the advanced phase is in [0, TWO_PI) (R101). -/
def Obligations.PhaseInvariantHolds : Prop :=
  ∀ p f dt : Word, inPhase p → inPhase (fmul (fmul TWO_PI f) dt) → inPhase (phaseAdvance p f dt)

/-- OSC_STEP advances OSC_PHASE by DATA over DT, answers the new phase and changes no other register (R104). -/
def Obligations.OscStepAdvancesPhase : Prop :=
  ∀ (f : Word) (s : State),
    let q := phaseAdvance s.regs.oscPhase f s.regs.dt
    exec (.oscStep f) s = .next { regs := { s.regs with oscPhase := q }, port := answered s 0 q }

/-! ## Envelope (43_envelope.md) -/

/-- Idle: ENV_VALUE becomes +0, the state stays Idle, +0 is returned (R106). -/
def Obligations.EnvStepIdle : Prop :=
  ∀ s : State, s.regs.envState = .idle → envStepGives s .idle 0x00000000

/-- Attack: value + dt/A, clamped to 1.0 with the move to Decay when it is at or above 1.0 (R107). -/
def Obligations.EnvStepAttack : Prop :=
  ∀ s : State, s.regs.envState = .attack →
    let v := fadd s.regs.envValue (fdiv s.regs.dt s.regs.envAttack)
    (fge v ONE = true → envStepGives s .decay ONE) ∧ (fge v ONE = false → envStepGives s .attack v)

/-- Decay: value - dt·(1 - S)/D, set to a copy of S with the move to Sustain when it is at or below S (R108). -/
def Obligations.EnvStepDecay : Prop :=
  ∀ s : State, s.regs.envState = .decay →
    let sus := s.regs.envSustain
    let v := fsub s.regs.envValue (fdiv (fmul s.regs.dt (fsub ONE sus)) s.regs.envDecay)
    (fle v sus = true → envStepGives s .sustain sus) ∧ (fle v sus = false → envStepGives s .decay v)

/-- Sustain: the value is a copy of S at every step, and the state stays Sustain (R109). -/
def Obligations.EnvStepSustain : Prop :=
  ∀ s : State, s.regs.envState = .sustain → envStepGives s .sustain s.regs.envSustain

/-- Release: value - dt·S/R, clamped to +0 with the move to Idle when it is at or below +0 (R110). -/
def Obligations.EnvStepRelease : Prop :=
  ∀ s : State, s.regs.envState = .release →
    let v := fsub s.regs.envValue (fdiv (fmul s.regs.dt s.regs.envSustain) s.regs.envRelease)
    (fle v posZero = true → envStepGives s .idle 0x00000000) ∧ (fle v posZero = false → envStepGives s .release v)

/-- In contract every step returns a value in [0, 1] and keeps the contract; Attack does not fall, Decay from S or above
does not rise nor pass S, Release does not rise (R112). -/
def Obligations.EnvelopeStaysInUnit : Prop :=
  ∀ s : State, envInContract s.regs →
    ∃ st w, envStepGives s st w ∧ inUnit w ∧
      envInContract { s.regs with envState := st, envValue := w } ∧
      (s.regs.envState = .attack → fle s.regs.envValue w = true) ∧
      (s.regs.envState = .decay → fle s.regs.envSustain s.regs.envValue = true →
        fle w s.regs.envValue = true ∧ fle s.regs.envSustain w = true) ∧
      (s.regs.envState = .release → fle w s.regs.envValue = true)

/-- Exact results out of contract (R113): an attack time of +0 reaches 1.0 at once, of -0 sticks at -inf; a decay time of
+0 below full sustain reaches S at once, of ±0 at full sustain sticks at NaN; a release time of +0 reaches Idle at once;
a NOTE_OFF at a positive value with sustain 0 stays there; a NaN time step makes the ramps NaN. Where dt·(1 - S) or dt·S
rounds to zero the quotient is 0/0, so those clauses ask that it does not. -/
def Obligations.EnvelopeOutOfContract : Prop :=
  ∀ s : State, isFinite s.regs.envValue = true →
    (s.regs.envState = .attack → posFinite s.regs.dt → s.regs.envAttack = posZero → envStepGives s .decay ONE) ∧
    (s.regs.envState = .attack → posFinite s.regs.dt → s.regs.envAttack = negZero →
      envStepGives s .attack 0xFF800000) ∧
    (s.regs.envState = .decay → inUnit s.regs.envSustain → posFinite s.regs.dt →
      isZero (fmul s.regs.dt (fsub ONE s.regs.envSustain)) = false → s.regs.envDecay = posZero →
      envStepGives s .sustain s.regs.envSustain) ∧
    (s.regs.envState = .decay → posFinite s.regs.dt → s.regs.envSustain = ONE →
      s.regs.envDecay = posZero ∨ s.regs.envDecay = negZero → envStepGives s .decay canonNaN) ∧
    (s.regs.envState = .release → inUnit s.regs.envSustain → posFinite s.regs.dt →
      isZero (fmul s.regs.dt s.regs.envSustain) = false → s.regs.envRelease = posZero →
      envStepGives s .idle posZero) ∧
    (s.regs.envState = .release → posFinite s.regs.dt → s.regs.envSustain = posZero →
      posFinite s.regs.envRelease → posFinite s.regs.envValue →
      envStepGives s .release s.regs.envValue) ∧
    (isNaN s.regs.dt = true →
      s.regs.envState = .attack ∨ s.regs.envState = .decay ∨ s.regs.envState = .release →
      envStepGives s s.regs.envState canonNaN)

/-! ## LFO (44_lfo.md) -/

/-- Disabled, LFO_STEP answers +0 whatever the other registers hold, and writes no register (R118). -/
def Obligations.LfoStepDisabled : Prop :=
  ∀ s : State, s.regs.lfoEnable = false → exec .lfoStep s = .next { regs := s.regs, port := answered s 0 0x00000000 }

/-- Enabled, LFO_STEP advances LFO_PHASE by LFO_RATE over DT and answers the waveform at the new phase times the depth;
no other register is written (R117). -/
def Obligations.LfoStepEnabled : Prop :=
  ∀ s : State, s.regs.lfoEnable = true →
    let p := phaseAdvance s.regs.lfoPhase s.regs.lfoRate s.regs.dt
    exec .lfoStep s = .next
      { regs := { s.regs with lfoPhase := p }, port := answered s 0 (fmul (wave s.regs.lfoWave p) s.regs.lfoDepth) }

/-- Enabled, with phase and increment in [0, TWO_PI) and a finite depth, the LFO's value is within its depth, and its
phase stays in [0, TWO_PI) (R119). -/
def Obligations.LfoStaysWithinDepth : Prop :=
  ∀ s : State, s.regs.lfoEnable = true → inPhase s.regs.lfoPhase → inPhase (phaseInc s.regs.lfoRate s.regs.dt) →
    isFinite s.regs.lfoDepth = true →
    ∃ t w, exec .lfoStep s = .next t ∧ t.port = answered s 0 w ∧ fle (fabs w) (fabs s.regs.lfoDepth) = true ∧
      inPhase t.regs.lfoPhase

/-! ## Filter (45_filter.md) -/

/-- FILT_STEP: alpha = c/(c + 1) of FILT_CUTOFF, y = alpha·x + (1 - alpha)·FILT_PREV, each product rounded; FILT_PREV
becomes y and no other register changes (R122). -/
def Obligations.FiltStepFollowsRecurrence : Prop :=
  ∀ (x : Word) (s : State),
    let c := s.regs.filtCutoff
    let alpha := fdiv c (fadd c ONE)
    let y := fadd (fmul alpha x) (fmul (fsub ONE alpha) s.regs.filtPrev)
    exec (.filtStep x) s = .next { regs := { s.regs with filtPrev := y }, port := answered s 0 y }

/-- At a finite cutoff of 2^25 or more alpha is exactly 1.0 and the filter passes its input (R124); at a cutoff of ±0 it
holds its history (R125). -/
def Obligations.FilterAtExtremeCutoffs : Prop :=
  (∀ c : Word, isFinite c = true → fge c 0x4C000000 = true →
    filterAlpha c = ONE ∧
    ∀ x prev, isFinite x = true → isFinite prev = true → x ≠ negZero → filterOut c x prev = x) ∧
  (∀ c x prev : Word, isZero c = true → isFinite x = true → isFinite prev = true →
    (isZero prev = false → filterOut c x prev = prev) ∧ (isZero prev = true → isZero (filterOut c x prev) = true))

/-! ## TICK (46_pipeline.md) -/

/-- The seven steps of TICK in their order: every register it writes, its answer, and no other register (R127). -/
def Obligations.TickRunsSevenSteps : Prop :=
  ∀ s : State,
    let g := s.regs
    let envVal := (envStep g.dt g).1
    let lfoVal := (lfoStep g.dt g).1
    let modFreq := if g.lfoTarget = .pitch then fmul g.baseFreq (fadd ONE (fmul lfoVal K_PITCH)) else g.baseFreq
    let a := fmul g.amplitude (fadd ONE (fmul lfoVal K_AMP))
    let modAmp := if g.lfoTarget = .amplitude then (if flt a posZero = true then posZero else a) else g.amplitude
    let c := fmul g.baseCutoff (fadd ONE (fmul lfoVal K_CUT))
    let c1 := if flt c CUT_MIN = true then CUT_MIN else c
    let modCutoff := if g.lfoTarget = .filter then (if fgt c1 CUT_MAX = true then CUT_MAX else c1) else g.baseCutoff
    let cutoff := if g.lfoTarget = .filter then modCutoff else g.filtCutoff
    let p := phaseAdvance g.oscPhase modFreq g.dt
    let sample := fmul (wave g.waveType p) (fmul modAmp envVal)
    let y := filterOut cutoff sample g.filtPrev
    exec .tick s = .next
      { regs := { g with
          envState := (envStep g.dt g).2.envState
          envValue := (envStep g.dt g).2.envValue
          lfoPhase := (lfoStep g.dt g).2.lfoPhase
          filtCutoff := cutoff
          oscPhase := p
          filtPrev := y
          outSample := y
          lastEnv := envVal
          lastLfo := lfoVal
          lastModFreq := modFreq
          lastModAmp := modAmp
          lastModCutoff := modCutoff
          tickCount := g.tickCount + 1
          status := { g.status with nonfinite := g.status.nonfinite || !isFinite y } }
        port := answered s 0 y }

/-- After every TICK at most one of the three modulated parameters differs from its base in its bits, none when the
target is None, and the bases are unchanged (R138). -/
def Obligations.RoutingIsExclusive : Prop :=
  ∀ s : State, ∃ t, exec .tick s = .next t ∧
    t.regs.baseFreq = s.regs.baseFreq ∧ t.regs.amplitude = s.regs.amplitude ∧ t.regs.baseCutoff = s.regs.baseCutoff ∧
    ((t.regs.lastModAmp = s.regs.amplitude ∧ t.regs.lastModCutoff = s.regs.baseCutoff) ∨
     (t.regs.lastModFreq = s.regs.baseFreq ∧ t.regs.lastModCutoff = s.regs.baseCutoff) ∨
     (t.regs.lastModFreq = s.regs.baseFreq ∧ t.regs.lastModAmp = s.regs.amplitude)) ∧
    (s.regs.lfoTarget = .none → t.regs.lastModFreq = s.regs.baseFreq ∧ t.regs.lastModAmp = s.regs.amplitude ∧
      t.regs.lastModCutoff = s.regs.baseCutoff)

/-- The Filter branch leaves in FILT_CUTOFF a NaN or a value in [100, 8000], and no other branch writes FILT_CUTOFF; the
Amplitude branch's result is never below +0 (R131, R132, R133). -/
def Obligations.BranchesClampTheirParameter : Prop :=
  ∀ s : State, ∃ t, exec .tick s = .next t ∧
    (s.regs.lfoTarget = .filter → t.regs.filtCutoff = t.regs.lastModCutoff ∧
      (isNaN t.regs.filtCutoff = true ∨
        fge t.regs.filtCutoff 0x42C80000 = true ∧ fle t.regs.filtCutoff 0x45FA0000 = true)) ∧
    (s.regs.lfoTarget ≠ .filter → t.regs.filtCutoff = s.regs.filtCutoff) ∧
    (s.regs.lfoTarget = .amplitude → flt t.regs.lastModAmp posZero = false)

/-- TICK_COUNT goes up by 1 modulo 2^32 at each TICK, to 0 at RESET, and no other command changes it (10_state.md R50). -/
def Obligations.TickCountCountsTicks : Prop :=
  ∀ (i : Instr) (s : State), ∃ t, exec i s = .next t ∧
    (i = .tick → t.regs.tickCount.toNat = (s.regs.tickCount.toNat + 1) % 2 ^ 32) ∧
    (i = .reset → t.regs.tickCount = 0) ∧
    (i ≠ .tick → i ≠ .reset → t.regs.tickCount = s.regs.tickCount)

/-- A voice at rest answers +0 to TICK and stays at rest, and the reset state is at rest (70_reset_and_hazards.md R157,
46_pipeline.md R135). -/
def Obligations.QuietVoiceStaysSilent : Prop :=
  quietVoice State.reset.regs ∧
  ∀ s : State, quietVoice s.regs →
    ∃ t, exec .tick s = .next t ∧ t.port = answered s 0 0x00000000 ∧ quietVoice t.regs

/-- With Sine, amplitude 1, the envelope sustaining at 1, no modulation and a transparent filter, TICK answers SIN32 of
the phase it leaves; where that is -0 the answer is a zero (R139). -/
def Obligations.TickReproducesSine : Prop :=
  ∀ s : State, s.regs.waveType = .sine → s.regs.amplitude = ONE → s.regs.envState = .sustain →
    s.regs.envSustain = ONE → s.regs.lfoTarget = .none → isFinite s.regs.filtCutoff = true →
    fge s.regs.filtCutoff 0x4C000000 = true → isFinite s.regs.filtPrev = true →
    ∃ t y, exec .tick s = .next t ∧ t.port = answered s 0 y ∧
      t.regs.oscPhase = phaseAdvance s.regs.oscPhase s.regs.baseFreq s.regs.dt ∧
      (sin32 t.regs.oscPhase ≠ negZero → y = sin32 t.regs.oscPhase) ∧
      (sin32 t.regs.oscPhase = negZero → isZero y = true)

/-! ## The whole machine -/

/-- Who writes what, over all commands but RESET: each phase, the filter history and the envelope are written by their
own unit's commands and TICK, the observation registers and TICK_COUNT by TICK, the parameters by WRITE_REG, FILT_CUTOFF by
WRITE_REG and TICK (10_state.md R39 to R50, 42_phase_accumulator.md R103); ERR and LAST_ERR by a rejection, ERR and
NONFINITE by WRITE_REG STATUS, NONFINITE by TICK (R51, 46_pipeline.md R137, 60_exceptions.md R140, R147). An instruction is
rejected exactly when it is not well-formed; the decoder's own rejections are no instruction. -/
def Obligations.StateChangesOnlyByOwner : Prop :=
  ∀ (i : Instr) (s : State), i ≠ .reset → ∃ t, exec i s = .next t ∧
    (i ≠ .tick → (∀ f, i ≠ .oscStep f) → t.regs.oscPhase = s.regs.oscPhase) ∧
    (i ≠ .tick → i ≠ .lfoStep → i ≠ .lfoReset → t.regs.lfoPhase = s.regs.lfoPhase) ∧
    (i ≠ .tick → (∀ x, i ≠ .filtStep x) → t.regs.filtPrev = s.regs.filtPrev) ∧
    (i ≠ .tick → i ≠ .envStep → t.regs.envValue = s.regs.envValue) ∧
    (i ≠ .tick → i ≠ .envStep → i ≠ .noteOn → i ≠ .noteOff → t.regs.envState = s.regs.envState) ∧
    (i ≠ .tick → t.regs.outSample = s.regs.outSample ∧ t.regs.lastEnv = s.regs.lastEnv ∧
      t.regs.lastLfo = s.regs.lastLfo ∧ t.regs.lastModFreq = s.regs.lastModFreq ∧
      t.regs.lastModAmp = s.regs.lastModAmp ∧ t.regs.lastModCutoff = s.regs.lastModCutoff ∧
      t.regs.tickCount = s.regs.tickCount) ∧
    (i ≠ .tick → (∀ a v, i ≠ .writeReg a v) → t.regs.filtCutoff = s.regs.filtCutoff) ∧
    ((∀ a v, i ≠ .writeReg a v) → ∀ r, writeKind r ≠ .readOnly → r ≠ .status → r ≠ .filtCutoff →
      readRegister r t.regs = readRegister r s.regs) ∧
    (wellFormed i = true → t.regs.status.lastErr = s.regs.status.lastErr) ∧
    (wellFormed i = true → (∀ v, i ≠ .writeReg 0x30 v) → t.regs.status.err = s.regs.status.err) ∧
    (i ≠ .tick → (∀ v, i ≠ .writeReg 0x30 v) → t.regs.status.nonfinite = s.regs.status.nonfinite)

/-- A NaN in the oscillator phase, the filter history or an envelope that ramps stays, whatever command but RESET runs;
in the LFO's phase, whatever command but RESET and LFO_RESET; RESET clears all, LFO_RESET the LFO's
(70_reset_and_hazards.md R164). -/
def Obligations.NanSticksUntilReset : Prop :=
  ∀ (i : Instr) (s : State), ∃ t, exec i s = .next t ∧
    (i ≠ .reset → isNaN s.regs.oscPhase = true → isNaN t.regs.oscPhase = true) ∧
    (i ≠ .reset → isNaN s.regs.filtPrev = true → isNaN t.regs.filtPrev = true) ∧
    (i ≠ .reset → i ≠ .lfoReset → isNaN s.regs.lfoPhase = true → isNaN t.regs.lfoPhase = true) ∧
    (i ≠ .reset → isNaN s.regs.envValue = true →
      s.regs.envState = .attack ∨ s.regs.envState = .decay ∨ s.regs.envState = .release →
      isNaN t.regs.envValue = true ∧
      (t.regs.envState = .attack ∨ t.regs.envState = .decay ∨ t.regs.envState = .release)) ∧
    (i = .lfoReset → t.regs.lfoPhase = 0) ∧
    (i = .reset → t.regs.oscPhase = 0 ∧ t.regs.lfoPhase = 0 ∧ t.regs.filtPrev = 0 ∧ t.regs.envValue = 0)

/-- FILT_RESONANCE and the observation registers affect nothing else: two states that differ only in them give, for every
command that is no READ_REG of one of them, the same answer and states that differ only in them (10_state.md R32,
46_pipeline.md R136). -/
def Obligations.UnreadRegistersDoNotInterfere : Prop :=
  ∀ (i : Instr) (s t : State), (∀ r ∈ unreadRegs, i ≠ .readReg (regIndex r)) →
    eraseUnread s.regs = eraseUnread t.regs → s.port = t.port →
    ∃ s' t', exec i s = .next s' ∧ exec i t = .next t' ∧ eraseUnread s'.regs = eraseUnread t'.regs ∧ s'.port = t'.port

/-- Both phases stay in [0, TWO_PI): for every command and every state whose phases are in range, if every increment the
command adds (OSC_STEP's by DATA, TICK's by the modulated frequency, the enabled LFO's by LFO_RATE) is in range too, they
are in range in the next state (42_phase_accumulator.md R101, R103). -/
def Obligations.PhasesStayInRange : Prop :=
  ∀ (i : Instr) (s t : State), inPhase s.regs.oscPhase → inPhase s.regs.lfoPhase →
    (∀ f, i = .oscStep f → inPhase (phaseInc f s.regs.dt)) →
    (i = .tick → inPhase (phaseInc t.regs.lastModFreq s.regs.dt)) →
    (i = .tick ∨ i = .lfoStep → s.regs.lfoEnable = true → inPhase (phaseInc s.regs.lfoRate s.regs.dt)) →
    exec i s = .next t → inPhase t.regs.oscPhase ∧ inPhase t.regs.lfoPhase

/-- The output ranges of R97, for every phase WAVE_EVAL can be given: Sine in [-1, 1] for a finite phase, Square +1.0 or
-1.0 for every phase, Triangle in [-1, 1] and Saw in [-1, 1) for a phase below 52707184.0 in magnitude. -/
def Obligations.WavesInRangeBelowBand : Prop :=
  (∀ p, isFinite p = true → inSignedUnit (wave .sine p)) ∧
  (∀ p, wave .square p = 0x3F800000 ∨ wave .square p = 0xBF800000) ∧
  ∀ p, flt (fabs p) 0x4C490FDC = true →
    inSignedUnit (wave .triangle p) ∧ inSignedUnit (wave .saw p) ∧ flt (wave .saw p) ONE = true
end

