-- ==== Sys2Proof/Laws/Decode.lean ====
section
/-!
SUPPORT. The fields of a CMD word, said once: their numbers, the word they make, and the decoder by fields
(30_encoding.md R77, R84).
-/

namespace Sys2Proof

/-! ## Fields -/

theorem toNat_append_fields (op : BitVec 4) (rsv : BitVec 20) (arg : BitVec 8) :
    (show Word from op ++ rsv ++ arg).toNat = op.toNat * 2 ^ 28 + rsv.toNat * 2 ^ 8 + arg.toNat := by
  have := rsv.isLt
  have := arg.isLt
  show (op ++ rsv ++ arg).toNat = _
  rw [BitVec.toNat_append, BitVec.toNat_append, ← Nat.shiftLeft_add_eq_or_of_lt (by omega),
    ← Nat.shiftLeft_add_eq_or_of_lt (by omega), Nat.shiftLeft_eq, Nat.shiftLeft_eq]
  ring

theorem toNat_opField (w : Word) : (opField w).toNat = w.toNat / 2 ^ 28 := by
  have := w.isLt
  simp [opField, Nat.shiftRight_eq_div_pow]
  omega

theorem toNat_rsvField (w : Word) : (rsvField w).toNat = w.toNat / 2 ^ 8 % 2 ^ 20 := by
  simp [rsvField, Nat.shiftRight_eq_div_pow]

theorem toNat_argField (w : Word) : (argField w).toNat = w.toNat % 2 ^ 8 := by
  simp [argField]

/-- A word is its three fields. -/
theorem append_fields (w : Word) : opField w ++ rsvField w ++ argField w = w := by
  apply BitVec.eq_of_toNat_eq
  have := w.isLt
  refine (toNat_append_fields _ _ _).trans ?_
  rw [toNat_opField, toNat_rsvField, toNat_argField]
  omega

/-- The fields of a word made of three fields. -/
theorem fields_append (op : BitVec 4) (rsv : BitVec 20) (arg : BitVec 8) :
    opField (op ++ rsv ++ arg) = op ∧ rsvField (op ++ rsv ++ arg) = rsv ∧ argField (op ++ rsv ++ arg) = arg := by
  have h := toNat_append_fields op rsv arg
  have := op.isLt
  have := rsv.isLt
  have := arg.isLt
  refine ⟨?_, ?_, ?_⟩ <;> apply BitVec.eq_of_toNat_eq
  · rw [toNat_opField]
    refine (congrArg (· / 2 ^ 28) h).trans ?_
    omega
  · rw [toNat_rsvField]
    refine (congrArg (· / 2 ^ 8 % 2 ^ 20) h).trans ?_
    omega
  · rw [toNat_argField]
    refine (congrArg (· % 2 ^ 8) h).trans ?_
    omega

/-! ## The decoder by fields -/

theorem decode_append (op : BitVec 4) (rsv : BitVec 20) (arg : BitVec 8) (d : Word) :
    decode ⟨op ++ rsv ++ arg, d⟩ =
      if 0xD#4 ≤ op then .rejected .illegalOp
      else if rsv ≠ 0 then .rejected .reservedBits
      else if op = 0xB ∧ arg.extractLsb' 2 6 ≠ 0 then .rejected .reservedBits
      else if op ≠ 0x1 ∧ op ≠ 0x2 ∧ op ≠ 0xB ∧ arg ≠ 0 then .rejected .reservedBits
      else .command (instrOfFields op arg d) := by
  obtain ⟨h1, h2, h3⟩ := fields_append op rsv arg
  unfold decode
  dsimp only
  rw [h1, h2, h3]

/-- A transaction that decodes to a command: a legal opcode, reserved bits 0, the command of its fields. -/
theorem decode_eq_command {c : Command} {i : Instr} (h : decode c = .command i) :
    ∃ op arg, c.cmd = op ++ 0#20 ++ arg ∧ i = instrOfFields op arg c.data ∧ op < 0xD#4 ∧
      (op = 0xB → arg.extractLsb' 2 6 = 0) ∧ (op = 1 ∨ op = 2 ∨ op = 0xB ∨ arg = 0) := by
  obtain ⟨cmd, d⟩ := c
  rw [← append_fields cmd] at h ⊢
  generalize opField cmd = op at *
  generalize rsvField cmd = rsv at *
  generalize argField cmd = arg at *
  rw [decode_append] at h
  split_ifs at h with h1 h2 h3 h4
  refine ⟨op, arg, ?_, by cases h; rfl, ?_, ?_, ?_⟩
  · simp at h2
    subst h2
    rfl
  · simpa using h1
  · simpa using h3
  · simp only [ne_eq] at h4
    tauto

/-- The encoder's fields of the command of legal fields are these fields. -/
theorem opcode_instrOfFields {op : BitVec 4} {arg : BitVec 8} (d : Word) (h1 : op < 0xD#4)
    (h2 : op = 0xB → arg.extractLsb' 2 6 = 0) (h3 : op = 1 ∨ op = 2 ∨ op = 0xB ∨ arg = 0) :
    opcode (instrOfFields op arg d) = op ∧ argOf (instrOfFields op arg d) = arg := by
  have h5 : op.toNat < 13 := h1
  obtain ⟨n, hn⟩ : ∃ n, op.toNat = n := ⟨_, rfl⟩
  have hopn : op = BitVec.ofNat 4 n := by rw [← hn]; simp
  have h6 : n < 13 := by omega
  subst hopn
  interval_cases n <;> simp_all [instrOfFields, opcode, argOf]
  revert arg
  decide

/-- A WaveformKind stands in the two low bits of the ARG field. -/
theorem waveKind_arg (k : WaveKind) :
    BitVec.extractLsb' 2 6 ((waveKindCode k).setWidth 8) = 0#6 ∧
      waveKindOfCode (BitVec.extractLsb' 0 2 ((waveKindCode k).setWidth 8)) = k := by
  cases k <;> decide

end Sys2Proof
end

