-- ==== Sys2Proof/Laws/Rounding.lean ====
section
/-!
SUPPORT. What `roundMag` does, said once: `roundMag_le_iff` gives its thresholds, the midpoints between neighbouring
patterns. Monotonicity, exactness on representable values and the bounds follow from it.
-/

namespace Sys2Proof.Machine

theorem infMag_eq : infMag = 255 * 2 ^ 23 := by decide

/-! ## The size of a magnitude pattern -/

theorem magUnits_lt_two_pow (q : Nat) (h : q < 2 ^ 24) : magUnits q = q := by
  unfold magUnits
  split
  · rfl
  · have h1 : q / 2 ^ 23 = 1 := by omega
    rw [h1]
    omega

/-- The size of a pattern written as e·2^23 + q with q in its binade, the two ends included. -/
theorem magUnits_binade (e q : Nat) (lo : e ≠ 0 → 2 ^ 23 ≤ q) (hi : q ≤ 2 ^ 24) :
    magUnits (e * 2 ^ 23 + q) = q * 2 ^ e := by
  rcases Nat.eq_zero_or_pos e with rfl | he
  · rcases Nat.lt_or_ge q (2 ^ 24) with h | h
    · simpa using magUnits_lt_two_pow q h
    · have hq : q = 2 ^ 24 := by omega
      subst hq
      norm_num [magUnits]
  · have lo' := lo (by omega)
    unfold magUnits
    rcases Nat.lt_or_ge q (2 ^ 24) with h | h
    · have h1 : (e * 2 ^ 23 + q) / 2 ^ 23 = e + 1 := by omega
      have h2 : (e * 2 ^ 23 + q) % 2 ^ 23 = q - 2 ^ 23 := by omega
      rw [h1, h2, if_neg (by omega), show 2 ^ 23 + (q - 2 ^ 23) = q by omega, Nat.add_sub_cancel]
    · have hq : q = 2 ^ 24 := by omega
      subst hq
      have h1 : (e * 2 ^ 23 + 2 ^ 24) / 2 ^ 23 = e + 2 := by omega
      have h2 : (e * 2 ^ 23 + 2 ^ 24) % 2 ^ 23 = 0 := by omega
      rw [h1, h2, if_neg (by omega)]
      have : e + 2 - 1 = e + 1 := by omega
      rw [this, pow_succ]
      ring

/-- The next pattern is larger by the unit of the binade. -/
theorem magUnits_succ (m : Nat) : magUnits m < magUnits (m + 1) := by
  obtain ⟨e, q, hm, lo, hi⟩ : ∃ e q, m = e * 2 ^ 23 + q ∧ (e ≠ 0 → 2 ^ 23 ≤ q) ∧ q < 2 ^ 24 := by
    rcases Nat.lt_or_ge m (2 ^ 24) with h | h
    · exact ⟨0, m, by omega, by omega, h⟩
    · exact ⟨m / 2 ^ 23 - 1, m % 2 ^ 23 + 2 ^ 23, by omega, by omega, by omega⟩
  subst hm
  rw [magUnits_binade e q lo (by omega),
    show e * 2 ^ 23 + q + 1 = e * 2 ^ 23 + (q + 1) by omega, magUnits_binade e (q + 1) (by omega) (by omega)]
  exact Nat.mul_lt_mul_of_pos_right (by omega) (by positivity)

theorem magUnits_strictMono : StrictMono magUnits := strictMono_nat_of_lt_succ magUnits_succ

@[simp] theorem magUnits_le_iff {m n : Nat} : magUnits m ≤ magUnits n ↔ m ≤ n := magUnits_strictMono.le_iff_le

@[simp] theorem magUnits_lt_iff {m n : Nat} : magUnits m < magUnits n ↔ m < n := magUnits_strictMono.lt_iff_lt

@[simp] theorem magUnits_zero : magUnits 0 = 0 := by decide

@[simp] theorem magUnits_eq_zero {m : Nat} : magUnits m = 0 ↔ m = 0 := by
  rw [← magUnits_zero]
  exact magUnits_strictMono.injective.eq_iff

/-! ## Rounding -/

/-- The truncated pattern of n/d, its neighbours' sizes, and when `roundMag` takes the upper one. -/
theorem roundMag_bracket (n d : Nat) (hd : 0 < d) :
    ∃ p up : Nat, roundMag n d = min (p + up) infMag ∧ magUnits p * d ≤ n ∧ n < magUnits (p + 1) * d ∧
      ((up = 0 ∧ (2 * n < (magUnits p + magUnits (p + 1)) * d ∨
          2 * n = (magUnits p + magUnits (p + 1)) * d ∧ p % 2 = 0)) ∨
       (up = 1 ∧ ((magUnits p + magUnits (p + 1)) * d < 2 * n ∨
          2 * n = (magUnits p + magUnits (p + 1)) * d ∧ p % 2 = 1))) := by
  obtain ⟨e, he⟩ : ∃ e, e = Nat.log2 (n / d) - 23 := ⟨_, rfl⟩
  obtain ⟨u, hu⟩ : ∃ u, u = d * 2 ^ e := ⟨_, rfl⟩
  have hu0 : 0 < u := by rw [hu]; positivity
  obtain ⟨q, hq⟩ : ∃ q, q = n / u := ⟨_, rfl⟩
  obtain ⟨r, hr⟩ : ∃ r, r = n % u := ⟨_, rfl⟩
  have hdiv : u * q + r = n := by rw [hq, hr]; exact Nat.div_add_mod n u
  have hrlt : r < u := by rw [hr]; exact Nat.mod_lt _ hu0
  have hq' : q = n / d / 2 ^ e := by rw [hq, hu, Nat.div_div_eq_div_mul]
  have hi : q < 2 ^ 24 := by
    rw [hq']
    rcases Nat.eq_zero_or_pos (n / d) with h0 | h0
    · simp [h0]
    · rw [Nat.div_lt_iff_lt_mul (by positivity), ← pow_add]
      exact lt_of_lt_of_le Nat.lt_log2_self (Nat.pow_le_pow_right (by norm_num) (by omega))
  have lo : e ≠ 0 → 2 ^ 23 ≤ q := by
    intro hne
    have hlog : Nat.log2 (n / d) = e + 23 := by omega
    have h0 : n / d ≠ 0 := by
      intro h0
      rw [h0] at hlog
      simp at hlog
    rw [hq', Nat.le_div_iff_mul_le (by positivity), ← pow_add]
    have := Nat.log2_self_le h0
    rw [hlog] at this
    rwa [add_comm 23 e]
  have hp : magUnits (e * 2 ^ 23 + q) = q * 2 ^ e := magUnits_binade e q lo (by omega)
  have hp1 : magUnits (e * 2 ^ 23 + q + 1) = (q + 1) * 2 ^ e := by
    rw [add_assoc]
    exact magUnits_binade e (q + 1) (by omega) (by omega)
  have e1 : q * 2 ^ e * d = u * q := by rw [hu]; ring
  have e2 : (q + 1) * 2 ^ e * d = u * q + u := by rw [hu]; ring
  have e3 : (q * 2 ^ e + (q + 1) * 2 ^ e) * d = 2 * (u * q) + u := by rw [hu]; ring
  have hpar : (e * 2 ^ 23 + q) % 2 = q % 2 := by omega
  have hround : roundMag n d =
      min (e * 2 ^ 23 + (if decide (u < 2 * r) || (decide (2 * r = u) && decide (q % 2 = 1)) then q + 1 else q))
        infMag := by
    simp only [roundMag, he, hu, hq, hr]
  refine ⟨e * 2 ^ 23 + q, if decide (u < 2 * r) || (decide (2 * r = u) && decide (q % 2 = 1)) then 1 else 0,
    ?_, ?_, ?_, ?_⟩
  · rw [hround]
    by_cases hup : (decide (u < 2 * r) || (decide (2 * r = u) && decide (q % 2 = 1))) = true
    · rw [if_pos hup, if_pos hup, add_assoc]
    · rw [if_neg hup, if_neg hup, add_zero]
  · rw [hp, e1]; omega
  · rw [hp1, e2]; omega
  · rw [hp, hp1, e3, hpar]
    by_cases hup : (decide (u < 2 * r) || (decide (2 * r = u) && decide (q % 2 = 1))) = true
    · rw [if_pos hup]
      right
      simp only [Bool.or_eq_true, Bool.and_eq_true, decide_eq_true_eq] at hup
      refine ⟨rfl, ?_⟩
      rcases hup with h | ⟨h, h'⟩
      · left; omega
      · right; exact ⟨by omega, h'⟩
    · rw [if_neg hup]
      left
      simp only [Bool.or_eq_true, Bool.and_eq_true, decide_eq_true_eq, not_or, not_and] at hup
      refine ⟨rfl, ?_⟩
      rcases Nat.lt_or_ge (2 * r) u with h | h
      · left; omega
      · right
        have : 2 * r = u := by omega
        exact ⟨by omega, by have := hup.2 this; omega⟩

/-- The thresholds of rounding: n/d goes to at most the pattern m exactly when it is below the midpoint between m and
its successor, or at it with m even (00_scope.md R9). -/
theorem roundMag_le_iff {n d m : Nat} (hd : 0 < d) (hm : m < infMag) :
    roundMag n d ≤ m ↔
      2 * n < (magUnits m + magUnits (m + 1)) * d ∨ 2 * n = (magUnits m + magUnits (m + 1)) * d ∧ m % 2 = 0 := by
  obtain ⟨p, up, hr, h1, h2, h3⟩ := roundMag_bracket n d hd
  rw [hr]
  have hmin : min (p + up) infMag ≤ m ↔ p + up ≤ m := by omega
  rw [hmin]
  rcases Nat.lt_trichotomy m p with h | h | h
  · have a1 : magUnits m < magUnits p := magUnits_lt_iff.2 h
    have a2 : magUnits (m + 1) ≤ magUnits p := magUnits_le_iff.2 h
    have : (magUnits m + magUnits (m + 1)) * d < 2 * (magUnits p * d) := by nlinarith
    constructor
    · omega
    · omega
  · subst h
    omega
  · have a1 : magUnits (p + 1) ≤ magUnits m := magUnits_le_iff.2 h
    have a2 : magUnits (p + 1) < magUnits (m + 1) := magUnits_lt_iff.2 (by omega)
    have : 2 * (magUnits (p + 1) * d) < (magUnits m + magUnits (m + 1)) * d := by nlinarith
    constructor
    · omega
    · omega

theorem roundMag_le_infMag (n d : Nat) : roundMag n d ≤ infMag := Nat.min_le_right _ _

/-- Rounding is monotone in the quotient. -/
theorem roundMag_mono {n d n' d' : Nat} (hd : 0 < d) (hd' : 0 < d') (h : n * d' ≤ n' * d) :
    roundMag n d ≤ roundMag n' d' := by
  rcases Nat.lt_or_ge (roundMag n' d') infMag with hlt | hge
  · rw [roundMag_le_iff hd hlt]
    have h' := (roundMag_le_iff hd' hlt).1 le_rfl
    generalize roundMag n' d' = m at *
    generalize magUnits m + magUnits (m + 1) = c at *
    rcases h' with h' | ⟨h', h2⟩
    · left
      by_contra hc
      have : c * d * d' ≤ 2 * n * d' := Nat.mul_le_mul_right _ (by omega)
      have : 2 * n' * d < c * d' * d := Nat.mul_lt_mul_of_pos_right h' hd
      nlinarith
    · have hle : 2 * n ≤ c * d := by
        have : 2 * n * d' ≤ c * d * d' := by nlinarith
        exact Nat.le_of_mul_le_mul_right this hd'
      rcases Nat.lt_or_ge (2 * n) (c * d) with h3 | h3
      · exact Or.inl h3
      · exact Or.inr ⟨by omega, h2⟩
  · exact (roundMag_le_infMag n d).trans hge

/-- A representable value is its own rounding. -/
theorem roundMag_exact {m d : Nat} (hd : 0 < d) (hm : m < infMag) : roundMag (magUnits m * d) d = m := by
  have hs := magUnits_succ m
  apply Nat.le_antisymm
  · rw [roundMag_le_iff hd hm]
    left
    nlinarith
  · by_contra hlt
    have hlt' : roundMag (magUnits m * d) d ≤ m - 1 := by omega
    have hm0 : m - 1 + 1 = m := by omega
    rw [roundMag_le_iff hd (by omega), hm0] at hlt'
    have : magUnits (m - 1) < magUnits m := magUnits_lt_iff.2 (by omega)
    have : (magUnits (m - 1) + magUnits m) * d < 2 * (magUnits m * d) := by nlinarith
    omega

@[simp] theorem roundMag_zero (d : Nat) : roundMag 0 d = 0 := by
  simp [roundMag]

/-- A quotient at most that of a finite pattern rounds to at most the pattern. -/
theorem roundMag_le_of_le {n d m : Nat} (hd : 0 < d) (hm : m < infMag) (h : n ≤ magUnits m * d) :
    roundMag n d ≤ m := by
  have := roundMag_mono (n := n) (d := d) (n' := magUnits m * d) (d' := d) hd hd (Nat.mul_le_mul_right _ h)
  rwa [roundMag_exact hd hm] at this

/-- A quotient at least that of a finite pattern rounds to at least the pattern. -/
theorem le_roundMag_of_le {n d m : Nat} (hd : 0 < d) (hm : m < infMag) (h : magUnits m * d ≤ n) :
    m ≤ roundMag n d := by
  have := roundMag_mono (n := magUnits m * d) (d := d) (n' := n) (d' := d) hd hd (Nat.mul_le_mul_right _ h)
  rwa [roundMag_exact hd hm] at this

end Sys2Proof.Machine
end

