-- ==== Sys2Proof/Laws/Float32.lean ====
section
/-!
SUPPORT. The binary32 primitives in terms of signed keys: `fKey` orders the non-NaN words, `rKey` is rounding on signed
quotients, and one lemma per operation gives the key of its result (`fKey_fadd`, `fKey_fmul`, `fKey_fdiv`). Facts about
ranges and exactness are read off keys, not from the definitions.
-/

namespace Sys2Proof.Machine

/-! ## Words by sign and magnitude -/

theorem fMag_lt (a : Word) : fMag a < 2 ^ 31 := Nat.mod_lt _ (by norm_num)

theorem toNat_eq_sign_mag (a : Word) : a.toNat = (if fSign a then 2 ^ 31 else 0) + fMag a := by
  have := a.isLt
  by_cases h : 2 ^ 31 ≤ a.toNat
  · simp only [fSign, h, decide_true, if_true, fMag]; omega
  · simp only [fSign, h, decide_false, fMag]; simp; omega

theorem word_ext {a b : Word} (hs : fSign a = fSign b) (hm : fMag a = fMag b) : a = b := by
  apply BitVec.eq_of_toNat_eq
  rw [toNat_eq_sign_mag a, toNat_eq_sign_mag b, hs, hm]

theorem toNat_pack {s : Bool} {m : Nat} (hm : m < 2 ^ 31) : (pack s m).toNat = (if s then 2 ^ 31 else 0) + m := by
  rw [pack, BitVec.toNat_ofNat]
  apply Nat.mod_eq_of_lt
  split <;> omega

theorem fSign_pack {s : Bool} {m : Nat} (hm : m < 2 ^ 31) : fSign (pack s m) = s := by
  rw [fSign, toNat_pack hm]
  cases s
  · simp; omega
  · simp

theorem fMag_pack {s : Bool} {m : Nat} (hm : m < 2 ^ 31) : fMag (pack s m) = m := by
  rw [fMag, toNat_pack hm]
  cases s
  · simp; omega
  · simp; omega

theorem pack_sign_mag (a : Word) : pack (fSign a) (fMag a) = a :=
  word_ext (fSign_pack (fMag_lt a)) (fMag_pack (fMag_lt a))

theorem infMag_lt : infMag < 2 ^ 31 := by decide

theorem roundMag_lt (n d : Nat) : roundMag n d < 2 ^ 31 := lt_of_le_of_lt (roundMag_le_infMag n d) infMag_lt

theorem fMag_fneg (a : Word) : fMag (fneg a) = fMag a := by
  have h : (fneg a).toNat = a.toNat ^^^ 2 ^ 31 := by simp [fneg]
  unfold fMag
  rw [h, Nat.xor_mod_two_pow]
  simp

theorem fSign_fneg (a : Word) : fSign (fneg a) = !fSign a := by
  have h1 : (fneg a).msb = !a.msb := by
    rw [fneg, BitVec.msb_xor, show (0x80000000 : Word).msb = true by decide, Bool.xor_true]
  have h2 : ∀ b : Word, fSign b = b.msb := fun b => by rw [fSign, BitVec.msb_eq_decide]
  rw [h2, h2, h1]

/-! ## Classes -/

theorem isNaN_iff {a : Word} : isNaN a = true ↔ infMag < fMag a := by simp [isNaN]
theorem isInf_iff {a : Word} : isInf a = true ↔ fMag a = infMag := by simp [isInf]
theorem isFinite_iff {a : Word} : isFinite a = true ↔ fMag a < infMag := by simp [isFinite]
theorem isZero_iff {a : Word} : isZero a = true ↔ fMag a = 0 := by simp [isZero]

theorem not_isNaN_iff {a : Word} : isNaN a = false ↔ fMag a ≤ infMag := by simp [isNaN]

theorem isNaN_of_isFinite {a : Word} (h : isFinite a = true) : isNaN a = false := by
  rw [isFinite_iff] at h
  rw [not_isNaN_iff]
  omega

theorem isInf_of_isFinite {a : Word} (h : isFinite a = true) : isInf a = false := by
  rw [isFinite_iff] at h
  simp only [isInf, decide_eq_false_iff_not]
  omega

theorem isFinite_eq (a : Word) : isFinite a = (!isNaN a && !isInf a) := by
  unfold isFinite isNaN isInf
  rw [Bool.eq_iff_iff]
  simp
  omega

@[simp] theorem isNaN_canonNaN : isNaN canonNaN = true := by decide
@[simp] theorem isFinite_posZero : isFinite posZero = true := by decide
@[simp] theorem isNaN_posZero : isNaN posZero = false := by decide
@[simp] theorem isFinite_ONE : isFinite ONE = true := by decide
@[simp] theorem isNaN_ONE : isNaN ONE = false := by decide
@[simp] theorem isFinite_TWO_PI : isFinite TWO_PI = true := by decide
@[simp] theorem isNaN_TWO_PI : isNaN TWO_PI = false := by decide
@[simp] theorem isNaN_fneg (a : Word) : isNaN (fneg a) = isNaN a := by simp [isNaN, fMag_fneg]
@[simp] theorem isInf_fneg (a : Word) : isInf (fneg a) = isInf a := by simp [isInf, fMag_fneg]
@[simp] theorem isFinite_fneg (a : Word) : isFinite (fneg a) = isFinite a := by simp [isFinite, fMag_fneg]
@[simp] theorem isZero_fneg (a : Word) : isZero (fneg a) = isZero a := by simp [isZero, fMag_fneg]

/-! ## Keys and values -/

@[simp] theorem fKey_posZero : fKey posZero = 0 := by decide
@[simp] theorem fKey_negZero : fKey negZero = 0 := by decide
@[simp] theorem fUnits_posZero : fUnits posZero = 0 := by decide

theorem natAbs_fKey (a : Word) : (fKey a).natAbs = fMag a := by
  unfold fKey
  split <;> simp

theorem natAbs_fUnits (a : Word) : (fUnits a).natAbs = magUnits (fMag a) := by
  unfold fUnits
  split <;> simp

theorem fUnits_eq (a : Word) : fUnits a = (if fSign a then -1 else 1) * (magUnits (fMag a) : Int) := by
  unfold fUnits
  split <;> simp

@[simp] theorem fKey_fneg (a : Word) : fKey (fneg a) = -fKey a := by
  unfold fKey
  rw [fSign_fneg, fMag_fneg]
  cases fSign a <;> simp

@[simp] theorem fUnits_fneg (a : Word) : fUnits (fneg a) = -fUnits a := by
  unfold fUnits
  rw [fSign_fneg, fMag_fneg]
  cases fSign a <;> simp

/-- The order of the keys is the order of the values. -/
theorem fKey_le_iff (a b : Word) : fKey a ≤ fKey b ↔ fUnits a ≤ fUnits b := by
  have h1 : magUnits (fMag a) ≤ magUnits (fMag b) ↔ fMag a ≤ fMag b := magUnits_le_iff
  have h2 : magUnits (fMag b) ≤ magUnits (fMag a) ↔ fMag b ≤ fMag a := magUnits_le_iff
  have h3 : magUnits (fMag a) = 0 ↔ fMag a = 0 := magUnits_eq_zero
  have h4 : magUnits (fMag b) = 0 ↔ fMag b = 0 := magUnits_eq_zero
  unfold fKey fUnits
  split <;> split <;> omega

theorem fKey_lt_iff (a b : Word) : fKey a < fKey b ↔ fUnits a < fUnits b := by
  rw [← not_le, ← not_le, fKey_le_iff]

theorem fKey_nonneg_iff (a : Word) : 0 ≤ fKey a ↔ 0 ≤ fUnits a := by
  simpa using fKey_le_iff posZero a

theorem fKey_pos_iff (a : Word) : 0 < fKey a ↔ 0 < fUnits a := by
  simpa using fKey_lt_iff posZero a

/-- Words of one non-zero key are equal. -/
theorem eq_of_fKey_eq {a b : Word} (h : fKey a = fKey b) (h0 : fKey b ≠ 0) : a = b := by
  have hm : fMag a = fMag b := by rw [← natAbs_fKey, ← natAbs_fKey, h]
  refine word_ext ?_ hm
  revert h h0
  unfold fKey
  cases fSign a <;> cases fSign b <;> simp [neg_eq_iff_add_eq_zero]
  omega

theorem isFinite_iff_fKey (a : Word) : isFinite a = true ↔ -(infMag : Int) < fKey a ∧ fKey a < infMag := by
  rw [isFinite_iff]
  have := natAbs_fKey a
  omega

theorem not_isNaN_iff_fKey (a : Word) : isNaN a = false ↔ -(infMag : Int) ≤ fKey a ∧ fKey a ≤ infMag := by
  rw [not_isNaN_iff]
  have := natAbs_fKey a
  omega

/-! ## Comparisons -/

theorem fle_iff {a b : Word} : fle a b = true ↔ isNaN a = false ∧ isNaN b = false ∧ fKey a ≤ fKey b := by
  simp [fle, and_assoc]

theorem flt_iff {a b : Word} : flt a b = true ↔ isNaN a = false ∧ isNaN b = false ∧ fKey a < fKey b := by
  simp [flt, and_assoc]

theorem fge_iff {a b : Word} : fge a b = true ↔ isNaN a = false ∧ isNaN b = false ∧ fKey b ≤ fKey a := by
  rw [fge, fle_iff]; tauto

theorem fgt_iff {a b : Word} : fgt a b = true ↔ isNaN a = false ∧ isNaN b = false ∧ fKey b < fKey a := by
  rw [fgt, flt_iff]; tauto

/-! ## Rounding a signed quotient -/

/-- The key n/d rounds to. -/
def rKey (n : Int) (d : Nat) : Int := n.sign * (roundMag n.natAbs d : Int)

theorem rKey_bound (n : Int) (d : Nat) : -(infMag : Int) ≤ rKey n d ∧ rKey n d ≤ infMag := by
  have h := roundMag_le_infMag n.natAbs d
  unfold rKey
  rcases lt_trichotomy n 0 with hn | hn | hn
  · rw [Int.sign_eq_neg_one_of_neg hn]; omega
  · subst hn; simp
  · rw [Int.sign_eq_one_of_pos hn]; omega

@[simp] theorem rKey_zero (d : Nat) : rKey 0 d = 0 := by simp [rKey]

theorem rKey_neg (n : Int) (d : Nat) : rKey (-n) d = -rKey n d := by simp [rKey, Int.sign_neg]

theorem rKey_nonneg {n : Int} {d : Nat} (h : 0 ≤ n) : 0 ≤ rKey n d := by
  unfold rKey
  rcases h.lt_or_eq with h | h
  · simp [Int.sign_eq_one_of_pos h]
  · simp [← h]

theorem rKey_of_nonneg {n : Int} (d : Nat) (h : 0 ≤ n) : rKey n d = roundMag n.natAbs d := by
  rcases h.lt_or_eq with h | h
  · simp [rKey, Int.sign_eq_one_of_pos h]
  · simp [← h]

/-- Rounding is monotone. -/
theorem rKey_mono {n n' : Int} {d d' : Nat} (hd : 0 < d) (hd' : 0 < d') (h : n * d' ≤ n' * d) :
    rKey n d ≤ rKey n' d' := by
  have hdz : (0 : Int) < d := by exact_mod_cast hd
  have hdz' : (0 : Int) < d' := by exact_mod_cast hd'
  rcases le_or_gt 0 n with hn | hn
  · have hn' : 0 ≤ n' := by
      by_contra hc
      have : n' * d < 0 := Int.mul_neg_of_neg_of_pos (by omega) hdz
      have : 0 ≤ n * d' := by positivity
      omega
    rw [rKey_of_nonneg d hn, rKey_of_nonneg d' hn']
    have : n.natAbs * d' ≤ n'.natAbs * d := by zify; rwa [abs_of_nonneg hn, abs_of_nonneg hn']
    exact_mod_cast roundMag_mono hd hd' this
  · rcases le_or_gt 0 n' with hn' | hn'
    · have h1 := rKey_nonneg (d := d') hn'
      have h2 : 0 ≤ rKey (-n) d := rKey_nonneg (by omega)
      rw [rKey_neg] at h2
      omega
    · have e1 : rKey n d = -rKey (-n) d := by rw [rKey_neg]; ring
      have e2 : rKey n' d' = -rKey (-n') d' := by rw [rKey_neg]; ring
      rw [e1, e2, rKey_of_nonneg d (by omega), rKey_of_nonneg d' (by omega), Int.natAbs_neg, Int.natAbs_neg]
      have : n'.natAbs * d ≤ n.natAbs * d' := by
        zify
        rw [abs_of_neg hn, abs_of_neg hn']
        linarith
      have := roundMag_mono hd' hd this
      omega

/-- A finite value is its own rounding. -/
theorem rKey_exact {a : Word} (ha : isFinite a = true) {d : Nat} (hd : 0 < d) : rKey (fUnits a * d) d = fKey a := by
  rw [isFinite_iff] at ha
  have e : (fUnits a * (d : Int)).natAbs = magUnits (fMag a) * d := by rw [Int.natAbs_mul, natAbs_fUnits]; rfl
  unfold rKey
  rw [e, roundMag_exact hd ha, Int.sign_mul, Int.sign_natCast_of_ne_zero (by omega), mul_one]
  unfold fUnits fKey
  rcases Nat.eq_zero_or_pos (fMag a) with h0 | h0
  · simp [h0]
  · have : (0 : Int) < magUnits (fMag a) := by
      have : 0 < magUnits (fMag a) := by rw [← magUnits_zero]; exact magUnits_lt_iff.2 h0
      exact_mod_cast this
    split
    · rw [Int.sign_neg, Int.sign_eq_one_of_pos this]; ring
    · rw [Int.sign_eq_one_of_pos this]; ring

/-- A quotient at most a finite value rounds to at most it. -/
theorem rKey_le {n : Int} {d : Nat} {a : Word} (hd : 0 < d) (ha : isFinite a = true) (h : n ≤ fUnits a * d) :
    rKey n d ≤ fKey a := by
  rw [← rKey_exact ha hd]
  exact rKey_mono hd hd (by have : (0 : Int) < d := by exact_mod_cast hd
                            nlinarith)

/-- A quotient at least a finite value rounds to at least it. -/
theorem le_rKey {n : Int} {d : Nat} {a : Word} (hd : 0 < d) (ha : isFinite a = true) (h : fUnits a * d ≤ n) :
    fKey a ≤ rKey n d := by
  rw [← rKey_exact ha hd]
  exact rKey_mono hd hd (by have : (0 : Int) < d := by exact_mod_cast hd
                            nlinarith)

/-- The word packed from a sign and a rounded magnitude has the key of the signed quotient. -/
theorem fKey_pack_round (neg : Bool) (n d : Nat) :
    fKey (pack neg (roundMag n d)) = rKey ((if neg then -1 else 1) * (n : Int)) d := by
  unfold fKey
  rw [fSign_pack (roundMag_lt n d), fMag_pack (roundMag_lt n d)]
  rcases Nat.eq_zero_or_pos n with h | h
  · subst h; simp
  · have hz : (0 : Int) < n := by exact_mod_cast h
    cases neg
    · simp [rKey, Int.sign_eq_one_of_pos hz]
    · simp [rKey, Int.sign_neg, Int.sign_eq_one_of_pos hz]

theorem isNaN_pack_round (neg : Bool) (n d : Nat) : isNaN (pack neg (roundMag n d)) = false := by
  rw [not_isNaN_iff, fMag_pack (roundMag_lt n d)]
  exact roundMag_le_infMag n d

/-! ## NaN operands and canonical results (R11) -/

theorem fadd_nan_left {a b : Word} (h : isNaN a = true) : fadd a b = canonNaN := by simp [fadd, h]
theorem fadd_nan_right {a b : Word} (h : isNaN b = true) : fadd a b = canonNaN := by simp [fadd, h]
theorem fsub_nan_left {a b : Word} (h : isNaN a = true) : fsub a b = canonNaN := fadd_nan_left h
theorem fsub_nan_right {a b : Word} (h : isNaN b = true) : fsub a b = canonNaN := fadd_nan_right (by simpa)
theorem fmul_nan_left {a b : Word} (h : isNaN a = true) : fmul a b = canonNaN := by simp [fmul, h]
theorem fmul_nan_right {a b : Word} (h : isNaN b = true) : fmul a b = canonNaN := by simp [fmul, h]
theorem fdiv_nan_left {a b : Word} (h : isNaN a = true) : fdiv a b = canonNaN := by simp [fdiv, h]
theorem fdiv_nan_right {a b : Word} (h : isNaN b = true) : fdiv a b = canonNaN := by simp [fdiv, h]

theorem isNaN_of_isInf {a : Word} (h : isInf a = true) : isNaN a = false := by
  rw [isInf_iff] at h
  rw [not_isNaN_iff]
  omega

theorem isNaN_pack_infMag (s : Bool) : isNaN (pack s infMag) = false := by cases s <;> decide

theorem isNaN_pack_zero (s : Bool) : isNaN (pack s 0) = false := by cases s <;> decide

/-- A sum that is a NaN is the canonical one. -/
theorem fadd_canonical (a b : Word) (h : isNaN (fadd a b) = true) : fadd a b = canonNaN := by
  revert h
  unfold fadd
  split
  · simp
  · split
    · rename_i hi
      split
      · simp
      · rw [isNaN_of_isInf hi]; simp
    · split
      · rename_i hi
        rw [isNaN_of_isInf hi]; simp
      · dsimp only
        split
        · rw [isNaN_pack_zero]; simp
        · rw [isNaN_pack_round]; simp

theorem fsub_canonical (a b : Word) (h : isNaN (fsub a b) = true) : fsub a b = canonNaN := fadd_canonical _ _ h

/-- A product that is a NaN is the canonical one. -/
theorem fmul_canonical (a b : Word) (h : isNaN (fmul a b) = true) : fmul a b = canonNaN := by
  revert h
  unfold fmul
  dsimp only
  split
  · simp
  · split
    · split
      · simp
      · rw [isNaN_pack_infMag]; simp
    · rw [isNaN_pack_round]; simp

/-- A quotient that is a NaN is the canonical one. -/
theorem fdiv_canonical (a b : Word) (h : isNaN (fdiv a b) = true) : fdiv a b = canonNaN := by
  revert h
  unfold fdiv
  dsimp only
  split
  · simp
  · split
    · split
      · simp
      · rw [isNaN_pack_infMag]; simp
    · split
      · rw [isNaN_pack_zero]; simp
      · split
        · split
          · simp
          · rw [isNaN_pack_infMag]; simp
        · rw [isNaN_pack_round]; simp

/-! ## Finite operands: the key of the result -/

/-- An exact zero sum, and any other finite sum (R10). -/
theorem fadd_finite {a b : Word} (ha : isFinite a = true) (hb : isFinite b = true) :
    fadd a b = if fUnits a + fUnits b = 0 then pack (fSign a && fSign b) 0
      else pack (decide (fUnits a + fUnits b < 0)) (roundMag (fUnits a + fUnits b).natAbs 1) := by
  simp [fadd, isNaN_of_isFinite ha, isNaN_of_isFinite hb, isInf_of_isFinite ha, isInf_of_isFinite hb]

theorem sign_natAbs (s : Int) : (if decide (s < 0) then -1 else 1) * (s.natAbs : Int) = s := by
  rcases lt_or_ge s 0 with h | h
  · simp only [h, decide_true, if_true]; omega
  · rw [if_neg (by simpa using h)]; omega

theorem fKey_pack_zero (s : Bool) : fKey (pack s 0) = 0 := by cases s <;> decide

theorem fKey_fadd {a b : Word} (ha : isFinite a = true) (hb : isFinite b = true) :
    fKey (fadd a b) = rKey (fUnits a + fUnits b) 1 := by
  rw [fadd_finite ha hb]
  split
  · rename_i h; rw [h, fKey_pack_zero, rKey_zero]
  · rw [fKey_pack_round, sign_natAbs]

theorem isNaN_fadd {a b : Word} (ha : isFinite a = true) (hb : isFinite b = true) : isNaN (fadd a b) = false := by
  rw [not_isNaN_iff_fKey, fKey_fadd ha hb]
  exact rKey_bound _ _

theorem fKey_fsub {a b : Word} (ha : isFinite a = true) (hb : isFinite b = true) :
    fKey (fsub a b) = rKey (fUnits a - fUnits b) 1 := by
  rw [fsub, fKey_fadd ha (by simpa), fUnits_fneg, sub_eq_add_neg]

theorem isNaN_fsub {a b : Word} (ha : isFinite a = true) (hb : isFinite b = true) : isNaN (fsub a b) = false :=
  isNaN_fadd ha (by simpa)

theorem fmul_finite {a b : Word} (ha : isFinite a = true) (hb : isFinite b = true) :
    fmul a b = pack (fSign a != fSign b) (roundMag (magUnits (fMag a) * magUnits (fMag b)) (2 ^ 149)) := by
  simp [fmul, isNaN_of_isFinite ha, isNaN_of_isFinite hb, isInf_of_isFinite ha, isInf_of_isFinite hb]

theorem fKey_fmul {a b : Word} (ha : isFinite a = true) (hb : isFinite b = true) :
    fKey (fmul a b) = rKey (fUnits a * fUnits b) (2 ^ 149) := by
  rw [fmul_finite ha hb, fKey_pack_round, fUnits_eq a, fUnits_eq b]
  congr 1
  push_cast
  cases fSign a <;> cases fSign b <;> simp

theorem isNaN_fmul {a b : Word} (ha : isFinite a = true) (hb : isFinite b = true) : isNaN (fmul a b) = false := by
  rw [fmul_finite ha hb]
  exact isNaN_pack_round _ _ _

theorem fdiv_finite {a b : Word} (ha : isFinite a = true) (hb : isFinite b = true) (h0 : isZero b = false) :
    fdiv a b = pack (fSign a != fSign b) (roundMag (magUnits (fMag a) * 2 ^ 149) (magUnits (fMag b))) := by
  simp [fdiv, isNaN_of_isFinite ha, isNaN_of_isFinite hb, isInf_of_isFinite ha, isInf_of_isFinite hb, h0]

theorem fKey_fdiv {a b : Word} (ha : isFinite a = true) (hb : isFinite b = true) (h0 : isZero b = false) :
    fKey (fdiv a b) = rKey ((if fSign b then -1 else 1) * (fUnits a * 2 ^ 149)) (magUnits (fMag b)) := by
  rw [fdiv_finite ha hb h0, fKey_pack_round, fUnits_eq a]
  congr 1
  push_cast
  cases fSign a <;> cases fSign b <;> simp

theorem isNaN_fdiv {a b : Word} (ha : isFinite a = true) (hb : isFinite b = true) (h0 : isZero b = false) :
    isNaN (fdiv a b) = false := by
  rw [fdiv_finite ha hb h0]
  exact isNaN_pack_round _ _ _

theorem magUnits_pos_of_not_isZero {b : Word} (h : isZero b = false) : 0 < magUnits (fMag b) := by
  have h' : fMag b ≠ 0 := by simpa [isZero] using h
  rw [← magUnits_zero]
  exact magUnits_lt_iff.2 (by omega)

/-! ## Large values and the sum with a zero -/

/-- A value of magnitude 2^23 or more is a whole number. -/
theorem fUnits_dvd_of_large {a : Word} (h : 150 * 2 ^ 23 ≤ fMag a) : (2 ^ 149 : Int) ∣ fUnits a := by
  have hm : fMag a = (fMag a / 2 ^ 23 - 1) * 2 ^ 23 + (fMag a % 2 ^ 23 + 2 ^ 23) := by omega
  have hu : magUnits (fMag a) = (fMag a % 2 ^ 23 + 2 ^ 23) * 2 ^ (fMag a / 2 ^ 23 - 1) := by
    conv_lhs => rw [hm]
    exact magUnits_binade _ _ (by omega) (by omega)
  have hd : (2 ^ 149 : Nat) ∣ magUnits (fMag a) := by
    rw [hu]
    exact Dvd.dvd.mul_left (pow_dvd_pow 2 (by omega)) _
  rw [fUnits_eq]
  exact Dvd.dvd.mul_left (by exact_mod_cast hd) _

/-- A sum with a zero has the key of the other operand. -/
theorem fKey_fadd_zero {a z : Word} (ha : isFinite a = true) (hz : isZero z = true) : fKey (fadd a z) = fKey a := by
  have hf : isFinite z = true := by
    rw [isZero_iff] at hz
    rw [isFinite_iff, hz]
    decide
  have hu : fUnits z = 0 := by
    rw [isZero_iff] at hz
    simp [fUnits, hz]
  rw [fKey_fadd ha hf, hu, add_zero]
  simpa using rKey_exact ha (d := 1) (by norm_num)

end Sys2Proof.Machine
end

