-- ==== Sys2Proof/Laws/State.lean ====
section
/-!
SUPPORT. The small lemmas of the state updates: one per field per update, so that no proof unfolds one.
-/

namespace Sys2Proof.Machine

/-! ## respond -/

@[simp] theorem respond_current (p : Port) (st : StatusCode) (w : Word) : (respond p st w).current = none := rfl
@[simp] theorem respond_responses (p : Port) (st : StatusCode) (w : Word) :
    (respond p st w).responses = p.responses ++ [{ status := st, resp := w }] := rfl
@[simp] theorem respond_hostQueue (p : Port) (st : StatusCode) (w : Word) : (respond p st w).hostQueue = p.hostQueue := rfl
@[simp] theorem respond_tickerQueue (p : Port) (st : StatusCode) (w : Word) :
    (respond p st w).tickerQueue = p.tickerQueue := rfl
@[simp] theorem respond_resetInput (p : Port) (st : StatusCode) (w : Word) :
    (respond p st w).resetInput = p.resetInput := rfl
@[simp] theorem respond_freeIndex (p : Port) (st : StatusCode) (w : Word) : (respond p st w).freeIndex = p.freeIndex := rfl

/-! ## complete and reject -/

@[simp] theorem complete_regs (s : State) (g : Regs) (w : Word) : (complete s g w).regs = g := rfl
@[simp] theorem complete_port (s : State) (g : Regs) (w : Word) : (complete s g w).port = respond s.port statusOk w := rfl
@[simp] theorem reject_regs (c : RejectCode) (s : State) :
    (reject c s).regs = { s.regs with status := statusRejected s.regs.status c } := rfl
@[simp] theorem reject_port (c : RejectCode) (s : State) : (reject c s).port = respond s.port (rejectStatus c) 0 := rfl

/-! ## STATUS -/

@[simp] theorem statusRejected_err (t : StatusReg) (c : RejectCode) : (statusRejected t c).err = true := rfl
@[simp] theorem statusRejected_nonfinite (t : StatusReg) (c : RejectCode) :
    (statusRejected t c).nonfinite = t.nonfinite := rfl
@[simp] theorem statusRejected_lastErr (t : StatusReg) (c : RejectCode) : (statusRejected t c).lastErr = rejectStatus c := rfl
@[simp] theorem statusTicked_err (t : StatusReg) (y : Word) : (statusTicked t y).err = t.err := rfl
@[simp] theorem statusTicked_nonfinite (t : StatusReg) (y : Word) :
    (statusTicked t y).nonfinite = (t.nonfinite || !isFinite y) := rfl
@[simp] theorem statusTicked_lastErr (t : StatusReg) (y : Word) : (statusTicked t y).lastErr = t.lastErr := rfl
@[simp] theorem clearStatus_err (t : StatusReg) (v : Word) : (clearStatus t v).err = (t.err && !v.getLsbD 0) := rfl
@[simp] theorem clearStatus_nonfinite (t : StatusReg) (v : Word) :
    (clearStatus t v).nonfinite = (t.nonfinite && !v.getLsbD 1) := rfl
@[simp] theorem clearStatus_lastErr (t : StatusReg) (v : Word) : (clearStatus t v).lastErr = t.lastErr := rfl

/-! ## The port's other updates -/

@[simp] theorem acceptHost_current (c : Command) (r : List Command) (p : Port) : (acceptHost c r p).current = some c := rfl
@[simp] theorem acceptHost_responses (c : Command) (r : List Command) (p : Port) :
    (acceptHost c r p).responses = p.responses := rfl
@[simp] theorem acceptHost_hostQueue (c : Command) (r : List Command) (p : Port) : (acceptHost c r p).hostQueue = r := rfl
@[simp] theorem acceptHost_tickerQueue (c : Command) (r : List Command) (p : Port) :
    (acceptHost c r p).tickerQueue = p.tickerQueue := rfl
@[simp] theorem acceptHost_resetInput (c : Command) (r : List Command) (p : Port) :
    (acceptHost c r p).resetInput = p.resetInput := rfl
@[simp] theorem acceptHost_freeIndex (c : Command) (r : List Command) (p : Port) :
    (acceptHost c r p).freeIndex = p.freeIndex := rfl
@[simp] theorem acceptTicker_current (c : Command) (r : List Command) (p : Port) :
    (acceptTicker c r p).current = some c := rfl
@[simp] theorem acceptTicker_responses (c : Command) (r : List Command) (p : Port) :
    (acceptTicker c r p).responses = p.responses := rfl
@[simp] theorem acceptTicker_hostQueue (c : Command) (r : List Command) (p : Port) :
    (acceptTicker c r p).hostQueue = p.hostQueue := rfl
@[simp] theorem acceptTicker_tickerQueue (c : Command) (r : List Command) (p : Port) :
    (acceptTicker c r p).tickerQueue = r := rfl
@[simp] theorem acceptTicker_resetInput (c : Command) (r : List Command) (p : Port) :
    (acceptTicker c r p).resetInput = p.resetInput := rfl
@[simp] theorem acceptTicker_freeIndex (c : Command) (r : List Command) (p : Port) :
    (acceptTicker c r p).freeIndex = p.freeIndex := rfl
@[simp] theorem resetByInput_regs (s : State) : (resetByInput s).regs = Regs.reset := rfl
@[simp] theorem withFetchWord_regs (s : State) (n w : Nat) : (s.withFetchWord n w).regs = s.regs := rfl
@[simp] theorem withFetchWord_current (s : State) (n w : Nat) :
    (s.withFetchWord n w).port.current = some (tableCommand n w) := rfl
@[simp] theorem withFetchWord_resetInput (s : State) (n w : Nat) : (s.withFetchWord n w).port.resetInput = false := rfl

/-! ## What the outside does -/

@[simp] theorem offerHost_regs (c : Command) (s : State) : (offerHost c s).regs = s.regs := rfl
@[simp] theorem offerHost_current (c : Command) (s : State) : (offerHost c s).port.current = s.port.current := rfl
@[simp] theorem offerHost_responses (c : Command) (s : State) : (offerHost c s).port.responses = s.port.responses := rfl
@[simp] theorem offerHost_hostQueue (c : Command) (s : State) :
    (offerHost c s).port.hostQueue = s.port.hostQueue ++ [c] := rfl
@[simp] theorem offerHost_tickerQueue (c : Command) (s : State) :
    (offerHost c s).port.tickerQueue = s.port.tickerQueue := rfl
@[simp] theorem offerHost_resetInput (c : Command) (s : State) :
    (offerHost c s).port.resetInput = s.port.resetInput := rfl
@[simp] theorem offerHost_freeIndex (c : Command) (s : State) : (offerHost c s).port.freeIndex = s.port.freeIndex := rfl
@[simp] theorem offerTicker_regs (c : Command) (s : State) : (offerTicker c s).regs = s.regs := rfl
@[simp] theorem offerTicker_current (c : Command) (s : State) : (offerTicker c s).port.current = s.port.current := rfl
@[simp] theorem offerTicker_responses (c : Command) (s : State) :
    (offerTicker c s).port.responses = s.port.responses := rfl
@[simp] theorem offerTicker_hostQueue (c : Command) (s : State) :
    (offerTicker c s).port.hostQueue = s.port.hostQueue := rfl
@[simp] theorem offerTicker_tickerQueue (c : Command) (s : State) :
    (offerTicker c s).port.tickerQueue = s.port.tickerQueue ++ [c] := rfl
@[simp] theorem offerTicker_resetInput (c : Command) (s : State) :
    (offerTicker c s).port.resetInput = s.port.resetInput := rfl
@[simp] theorem offerTicker_freeIndex (c : Command) (s : State) :
    (offerTicker c s).port.freeIndex = s.port.freeIndex := rfl
@[simp] theorem assertReset_regs (s : State) : (assertReset s).regs = s.regs := rfl
@[simp] theorem assertReset_current (s : State) : (assertReset s).port.current = s.port.current := rfl
@[simp] theorem assertReset_responses (s : State) : (assertReset s).port.responses = s.port.responses := rfl
@[simp] theorem assertReset_hostQueue (s : State) : (assertReset s).port.hostQueue = s.port.hostQueue := rfl
@[simp] theorem assertReset_tickerQueue (s : State) : (assertReset s).port.tickerQueue = s.port.tickerQueue := rfl
@[simp] theorem assertReset_resetInput (s : State) : (assertReset s).port.resetInput = true := rfl
@[simp] theorem assertReset_freeIndex (s : State) : (assertReset s).port.freeIndex = s.port.freeIndex := rfl
@[simp] theorem releaseReset_regs (s : State) : (releaseReset s).regs = s.regs := rfl
@[simp] theorem releaseReset_current (s : State) : (releaseReset s).port.current = s.port.current := rfl
@[simp] theorem releaseReset_responses (s : State) : (releaseReset s).port.responses = s.port.responses := rfl
@[simp] theorem releaseReset_hostQueue (s : State) : (releaseReset s).port.hostQueue = s.port.hostQueue := rfl
@[simp] theorem releaseReset_tickerQueue (s : State) : (releaseReset s).port.tickerQueue = s.port.tickerQueue := rfl
@[simp] theorem releaseReset_resetInput (s : State) : (releaseReset s).port.resetInput = false := rfl
@[simp] theorem releaseReset_freeIndex (s : State) : (releaseReset s).port.freeIndex = s.port.freeIndex := rfl

/-- An offer changes the queue of its producer alone, by one command at its end. -/
theorem offer_eq (who : Producer) (c : Command) (s : State) :
    offer who c s = { s with
      port := { s.port with
        hostQueue := s.port.hostQueue ++ (if who = .host then [c] else [])
        tickerQueue := s.port.tickerQueue ++ (if who = .ticker then [c] else []) } } := by
  cases who <;> simp [offer, offerHost, offerTicker]

/-- At a port with nothing offered, an offer is what the port accepts next, and no free choice is read. -/
theorem accept_offer (who : Producer) (c : Command) (s : State) (h : s.port.hostQueue = [])
    (h' : s.port.tickerQueue = []) : accept (offer who c s).port = { s.port with current := some c } := by
  cases who <;> simp [offer, offerHost, offerTicker, accept, h, h', acceptHost, acceptTicker]

/-! ## What accept can do -/

/-- The port accepts nothing, HOST's oldest command, or TICKER's oldest command; a free choice is read only when both
offer one. -/
theorem accept_cases (p : Port) :
    (p.hostQueue = [] ∧ p.tickerQueue = [] ∧ accept p = p) ∨
    (∃ c rest, p.hostQueue = c :: rest ∧ ∃ n, accept p = { acceptHost c rest p with freeIndex := n }) ∨
    (∃ c rest, p.tickerQueue = c :: rest ∧ ∃ n, accept p = { acceptTicker c rest p with freeIndex := n }) := by
  unfold accept
  split
  · rename_i h1 h2; exact .inl ⟨h1, h2, rfl⟩
  · rename_i c rest h1 h2; exact .inr (.inl ⟨c, rest, h1, p.freeIndex, rfl⟩)
  · rename_i c rest h1 h2; exact .inr (.inr ⟨c, rest, h2, p.freeIndex, rfl⟩)
  · rename_i c rest c' rest' h1 h2
    split
    · exact .inr (.inl ⟨c, rest, h1, _, rfl⟩)
    · exact .inr (.inr ⟨c', rest', h2, _, rfl⟩)

end Sys2Proof.Machine
end

