-- ==== Sys2Proof/Laws/Operands.lean ====
section
/-!
SUPPORT. The register map and the read and write of one register, each said once.
-/

namespace Sys2Proof.Machine

theorem mem_allRegs (r : Reg) : r ∈ allRegs := by cases r <;> decide

theorem regIndex_injective {r r' : Reg} (h : regIndex r = regIndex r') : r = r' := by
  revert h
  cases r <;> cases r' <;> decide

/-- The map is the table of 10_state.md R20 read backwards. -/
theorem regOfIndex_eq_some {idx : RegIndex} {r : Reg} : regOfIndex idx = some r ↔ regIndex r = idx := by
  constructor
  · intro h
    simpa using List.find?_some h
  · rintro rfl
    cases r <;> decide

@[simp] theorem regOfIndex_regIndex (r : Reg) : regOfIndex (regIndex r) = some r := regOfIndex_eq_some.2 rfl

/-! ## The operand checks -/

theorem readOperand_cases (idx : RegIndex) :
    (regOfIndex idx = none ∧ readOperand idx = .error .badReg) ∨
    (∃ r, regIndex r = idx ∧ readOperand idx = .ok r) := by
  unfold readOperand
  split
  · rename_i h; exact .inl ⟨h, rfl⟩
  · rename_i r h; exact .inr ⟨r, regOfIndex_eq_some.1 h, rfl⟩

theorem writeOperand_cases (idx : RegIndex) (v : Word) :
    (regOfIndex idx = none ∧ writeOperand idx v = .error .badReg) ∨
    (∃ r, regIndex r = idx ∧ writeKind r = .readOnly ∧ writeOperand idx v = .error .readOnly) ∨
    (∃ r, regIndex r = idx ∧ (writeKind r = .enum2 ∧ 3#32 < v ∨ writeKind r = .flag1 ∧ 1#32 < v) ∧
      writeOperand idx v = .error .badValue) ∨
    (∃ r, regIndex r = idx ∧ writeKind r ≠ .readOnly ∧ (writeKind r = .enum2 → v ≤ 3#32) ∧
      (writeKind r = .flag1 → v ≤ 1#32) ∧ writeOperand idx v = .ok r) := by
  unfold writeOperand
  rcases h : regOfIndex idx with _ | r
  · exact .inl ⟨rfl, rfl⟩
  · have hr := regOfIndex_eq_some.1 h
    right
    rcases hk : writeKind r with _ | _ | _ | _ | _
    · exact .inr (.inr ⟨r, hr, by simp [hk], by simp [hk], by simp [hk], by simp [hk]⟩)
    · by_cases hv : 3#32 < v
      · exact .inr (.inl ⟨r, hr, .inl ⟨hk, hv⟩, by simp [hk, hv]⟩)
      · exact .inr (.inr ⟨r, hr, by simp [hk], fun _ => BitVec.not_lt.1 hv, by simp [hk], by simp [hk, hv]⟩)
    · by_cases hv : 1#32 < v
      · exact .inr (.inl ⟨r, hr, .inr ⟨hk, hv⟩, by simp [hk, hv]⟩)
      · exact .inr (.inr ⟨r, hr, by simp [hk], by simp [hk], fun _ => BitVec.not_lt.1 hv, by simp [hk, hv]⟩)
    · exact .inr (.inr ⟨r, hr, by simp [hk], by simp [hk], by simp [hk], by simp [hk]⟩)
    · exact .inl ⟨r, hr, hk, by simp [hk]⟩

/-! ## One register -/

@[simp] theorem waveKindCode_ofCode (k : BitVec 2) : waveKindCode (waveKindOfCode k) = k := by
  revert k; decide

@[simp] theorem waveKindOfCode_code (k : WaveKind) : waveKindOfCode (waveKindCode k) = k := by
  cases k <;> decide

@[simp] theorem lfoTargetCode_ofCode (k : BitVec 2) : lfoTargetCode (lfoTargetOfCode k) = k := by
  revert k; decide

@[simp] theorem lfoTargetOfCode_code (k : LfoTarget) : lfoTargetOfCode (lfoTargetCode k) = k := by
  cases k <;> decide

/-- The two low bits of a value at most 3, widened, are the value. -/
theorem setWidth_low_two {v : Word} (h : v ≤ 3#32) : (v.extractLsb' 0 2).setWidth 32 = v := by
  apply BitVec.eq_of_toNat_eq
  have : v.toNat ≤ 3 := h
  simp
  omega

/-- The low bit of a value at most 1, widened, is the value. -/
theorem setWidth_low_bit {v : Word} (h : v ≤ 1#32) : (BitVec.ofBool v[0]).setWidth 32 = v := by
  have h' : v.toNat ≤ 1 := h
  rcases Nat.le_one_iff_eq_zero_or_eq_one.1 h' with h0 | h0
  · have : v = 0#32 := BitVec.eq_of_toNat_eq h0
    subst this; decide
  · have : v = 1#32 := BitVec.eq_of_toNat_eq h0
    subst this; decide

/-- What a register reads as after a write of itself: the stored word, for every register that stores one whole. -/
theorem readRegister_writeRegister_self {r : Reg} {v : Word} (g : Regs) (h1 : writeKind r ≠ .readOnly)
    (h2 : writeKind r ≠ .w1c) (h3 : writeKind r = .enum2 → v ≤ 3#32) (h4 : writeKind r = .flag1 → v ≤ 1#32) :
    readRegister r (writeRegister r v g) = v := by
  cases r <;> simp_all [writeKind, readRegister, writeRegister, setWidth_low_two, setWidth_low_bit]

/-- A write of one register leaves every other as it was. -/
theorem readRegister_writeRegister_other {r r' : Reg} (v : Word) (g : Regs) (h : r' ≠ r) :
    readRegister r' (writeRegister r v g) = readRegister r' g := by
  cases r <;> cases r' <;> first | rfl | exact absurd rfl h

end Sys2Proof.Machine
end

