-- ==== Sys2Proof/Laws/PerInstr.lean ====
section
/-!
SUPPORT. A statement about every command, one lemma per constructor: its encoded CMD word matches its own row of the opcode
map (30_encoding.md R80).
-/

namespace Sys2Proof.Laws.EncodedWordMatchesRow

/-- The encoding of i is selected by the match and mask of i's row. -/
def Statement (i : Instr) : Prop := (encode i).cmd &&& rowMask i = rowMatch i

theorem nop : Statement .nop := by unfold Statement; decide

theorem writeReg (idx : RegIndex) (value : Word) : Statement (.writeReg idx value) := by
  show (0x1#4 ++ 0#20 ++ idx) &&& 0xFFFFFF00#32 = 0x10000000#32
  revert idx; decide

theorem readReg (idx : RegIndex) : Statement (.readReg idx) := by
  show (0x2#4 ++ 0#20 ++ idx) &&& 0xFFFFFF00#32 = 0x20000000#32
  revert idx; decide

theorem noteOn : Statement .noteOn := by unfold Statement; decide

theorem noteOff : Statement .noteOff := by unfold Statement; decide

theorem lfoReset : Statement .lfoReset := by unfold Statement; decide

theorem tick : Statement .tick := by unfold Statement; decide

theorem envStep : Statement .envStep := by unfold Statement; decide

theorem lfoStep : Statement .lfoStep := by unfold Statement; decide

theorem oscStep (freq : Word) : Statement (.oscStep freq) := by
  show (0x9#4 ++ 0#20 ++ 0#8) &&& 0xFFFFFFFF#32 = 0x90000000#32
  decide

theorem filtStep (x : Word) : Statement (.filtStep x) := by
  show (0xA#4 ++ 0#20 ++ 0#8) &&& 0xFFFFFFFF#32 = 0xA0000000#32
  decide

theorem waveEval (kind : WaveKind) (phase : Word) : Statement (.waveEval kind phase) := by
  show (0xB#4 ++ 0#20 ++ (waveKindCode kind).setWidth 8) &&& 0xFFFFFFFC#32 = 0xB0000000#32
  cases kind <;> decide

theorem reset : Statement .reset := by unfold Statement; decide

end Sys2Proof.Laws.EncodedWordMatchesRow
end

