-- ==== Sys2Proof/Laws/Units.lean ====
section
/-!
SUPPORT. What each unit of the pipeline does to the register file, said once per unit: `envStep`, `lfoStep`, `oscStep`,
`filterStep`, `pushCutoff`, `recordTick`; and that a unit's result is a canonical NaN if it is a NaN at all.
-/

namespace Sys2Proof.Machine

/-! ## Envelope -/

@[simp] theorem envStep_regs (dt : Word) (g : Regs) :
    (envStep dt g).2 = { g with envState := (envNext dt g).1, envValue := (envNext dt g).2 } := rfl

@[simp] theorem envStep_value (dt : Word) (g : Regs) : (envStep dt g).1 = (envNext dt g).2 := rfl

/-- The segment chosen by the state, with its transition or without (43_envelope.md R106 to R110). -/
theorem envNext_cases (dt : Word) (g : Regs) :
    (g.envState = .idle ∧ envNext dt g = (.idle, posZero)) ∨
    (g.envState = .attack ∧ fge (attackValue dt g) ONE = true ∧ envNext dt g = (.decay, ONE)) ∨
    (g.envState = .attack ∧ fge (attackValue dt g) ONE = false ∧ envNext dt g = (.attack, attackValue dt g)) ∨
    (g.envState = .decay ∧ fle (decayValue dt g) g.envSustain = true ∧ envNext dt g = (.sustain, g.envSustain)) ∨
    (g.envState = .decay ∧ fle (decayValue dt g) g.envSustain = false ∧ envNext dt g = (.decay, decayValue dt g)) ∨
    (g.envState = .sustain ∧ envNext dt g = (.sustain, g.envSustain)) ∨
    (g.envState = .release ∧ fle (releaseValue dt g) posZero = true ∧ envNext dt g = (.idle, posZero)) ∨
    (g.envState = .release ∧ fle (releaseValue dt g) posZero = false ∧
      envNext dt g = (.release, releaseValue dt g)) := by
  unfold envNext
  cases g.envState
  · simp
  · cases h : fge (attackValue dt g) ONE <;> simp
  · cases h : fle (decayValue dt g) g.envSustain <;> simp
  · simp
  · cases h : fle (releaseValue dt g) posZero <;> simp

/-! ## Phase -/

/-- The advanced phase is the sum, or the sum less TWO_PI where the sum is at or above it. -/
theorem phaseAdvance_cases (p f dt : Word) :
    (fge (fadd p (phaseInc f dt)) TWO_PI = true ∧
      phaseAdvance p f dt = fsub (fadd p (phaseInc f dt)) TWO_PI) ∨
    (fge (fadd p (phaseInc f dt)) TWO_PI = false ∧ phaseAdvance p f dt = fadd p (phaseInc f dt)) := by
  unfold phaseAdvance
  dsimp only
  cases h : fge (fadd p (phaseInc f dt)) TWO_PI <;> simp

theorem phaseAdvance_canonical (p f dt : Word) (h : isNaN (phaseAdvance p f dt) = true) :
    phaseAdvance p f dt = canonNaN := by
  rcases phaseAdvance_cases p f dt with ⟨_, e⟩ | ⟨_, e⟩
  · rw [e] at h ⊢; exact fsub_canonical _ _ h
  · rw [e] at h ⊢; exact fadd_canonical _ _ h

theorem phaseAdvance_nan {p : Word} (f dt : Word) (h : isNaN p = true) : phaseAdvance p f dt = canonNaN := by
  rcases phaseAdvance_cases p f dt with ⟨_, e⟩ | ⟨_, e⟩
  · rw [e, fadd_nan_left h, fsub_nan_left isNaN_canonNaN]
  · rw [e, fadd_nan_left h]

@[simp] theorem oscStep_value (f : Word) (g : Regs) : (oscStep f g).1 = phaseAdvance g.oscPhase f g.dt := rfl
@[simp] theorem oscStep_regs (f : Word) (g : Regs) :
    (oscStep f g).2 = { g with oscPhase := phaseAdvance g.oscPhase f g.dt } := rfl

/-! ## LFO -/

/-- The phase an LFO step leaves: advanced when enabled, kept when not (44_lfo.md R117, R118). -/
def lfoNextPhase (dt : Word) (g : Regs) : Word :=
  if g.lfoEnable then phaseAdvance g.lfoPhase g.lfoRate dt else g.lfoPhase

/-- The value an LFO step returns. -/
def lfoValue (dt : Word) (g : Regs) : Word :=
  if g.lfoEnable then fmul (wave g.lfoWave (phaseAdvance g.lfoPhase g.lfoRate dt)) g.lfoDepth else posZero

theorem lfoStep_eq (dt : Word) (g : Regs) :
    lfoStep dt g = (lfoValue dt g, { g with lfoPhase := lfoNextPhase dt g }) := by
  unfold lfoStep lfoValue lfoNextPhase
  split <;> rfl

theorem lfoValue_canonical (dt : Word) (g : Regs) (h : isNaN (lfoValue dt g) = true) : lfoValue dt g = canonNaN := by
  revert h
  unfold lfoValue
  split
  · exact fmul_canonical _ _
  · simp

/-! ## Filter -/

@[simp] theorem filterStep_value (x : Word) (g : Regs) : (filterStep x g).1 = filterOut g.filtCutoff x g.filtPrev := rfl
@[simp] theorem filterStep_regs (x : Word) (g : Regs) :
    (filterStep x g).2 = { g with filtPrev := filterOut g.filtCutoff x g.filtPrev } := rfl

theorem filterOut_canonical (c x prev : Word) (h : isNaN (filterOut c x prev) = true) :
    filterOut c x prev = canonNaN := fadd_canonical _ _ h

theorem filterOut_nan_prev (c x : Word) {prev : Word} (h : isNaN prev = true) : filterOut c x prev = canonNaN := by
  rw [filterOut, fmul_nan_right h, fadd_nan_right isNaN_canonNaN]

/-! ## The pipeline -/

/-- The cutoff the filter of a TICK runs with (46_pipeline.md R132, R133). -/
def tickCutoff (m : Modulated) (g : Regs) : Word := if g.lfoTarget = .filter then m.cutoff else g.filtCutoff

theorem pushCutoff_eq (m : Modulated) (g : Regs) : pushCutoff m g = { g with filtCutoff := tickCutoff m g } := by
  unfold pushCutoff tickCutoff
  split <;> rename_i h
  · rw [if_pos h]
  all_goals rw [if_neg (by rw [h]; decide)]

/-- envVal, lfoVal, the modulated parameters, the phase, the sample into the filter and the output of one TICK from the
register file g (46_pipeline.md R127). -/
def tickEnv (g : Regs) : Word := (envNext g.dt g).2
def tickLfo (g : Regs) : Word := lfoValue g.dt g
def tickMod (g : Regs) : Modulated := modulate (tickLfo g) g
def tickPhase (g : Regs) : Word := phaseAdvance g.oscPhase (tickMod g).freq g.dt
def tickSample (g : Regs) : Word := fmul (wave g.waveType (tickPhase g)) (fmul (tickMod g).amp (tickEnv g))
def tickOut (g : Regs) : Word := filterOut (tickCutoff (tickMod g) g) (tickSample g) g.filtPrev

/-- Everything a TICK does, in closed form. -/
theorem tickStep_eq (g : Regs) :
    tickStep g =
      (tickOut g,
        { g with
          envState := (envNext g.dt g).1
          envValue := tickEnv g
          lfoPhase := lfoNextPhase g.dt g
          filtCutoff := tickCutoff (tickMod g) g
          oscPhase := tickPhase g
          filtPrev := tickOut g
          outSample := tickOut g
          lastEnv := tickEnv g
          lastLfo := tickLfo g
          lastModFreq := (tickMod g).freq
          lastModAmp := (tickMod g).amp
          lastModCutoff := (tickMod g).cutoff
          tickCount := g.tickCount + 1
          status := statusTicked g.status (tickOut g) }) := by
  simp only [tickStep, lfoStep_eq, pushCutoff_eq, envStep_regs, envStep_value, oscStep_value, oscStep_regs,
    filterStep_value, filterStep_regs, recordTick]
  rfl

/-- The modulated parameters by target: at most one is not the copy of its base (46_pipeline.md R129 to R133). -/
theorem modulate_cases (l : Word) (g : Regs) :
    (g.lfoTarget = .none ∧ modulate l g = ⟨g.baseFreq, g.amplitude, g.baseCutoff⟩) ∨
    (g.lfoTarget = .pitch ∧ modulate l g = ⟨modulated g.baseFreq l K_PITCH, g.amplitude, g.baseCutoff⟩) ∨
    (g.lfoTarget = .amplitude ∧
      modulate l g = ⟨g.baseFreq, clampAmp (modulated g.amplitude l K_AMP), g.baseCutoff⟩) ∨
    (g.lfoTarget = .filter ∧
      modulate l g = ⟨g.baseFreq, g.amplitude, clampCutoff (modulated g.baseCutoff l K_CUT)⟩) := by
  unfold modulate
  cases g.lfoTarget <;> simp

end Sys2Proof.Machine
end

