-- ==== Sys2Proof/Tests/Slice0.lean ====
section
/-!
SUPPORT. Tests: ill-formed terms, words written out from the encodings, one-step vectors of spec/95_test_vectors.md (named
V-… as there), and for each obligation with hypotheses a named witness that meets them.
-/

namespace Sys2Proof.Tests

open Sys2Proof Sys2Proof.Machine

/-! ## Helpers -/

/-- The reset state with the register file g. -/
def at' (g : Regs) : State := { State.reset with regs := g }

/-- The state a command leaves. -/
def after (i : Instr) (s : State) : State :=
  match exec i s with
  | .next t => t
  | .fault _ => s
  | .refused _ => s

/-- The state a transaction leaves. -/
def afterWords (cmd data : Word) (s : State) : State :=
  match runCommand ⟨cmd, data⟩ s with
  | .next t => t
  | .fault _ => s
  | .refused _ => s

/-- The last response sent, (STATUS, RESP). -/
def answer (s : State) : Option (StatusCode × Word) := s.port.responses.getLast?.map fun r => (r.status, r.resp)

/-- The word register STATUS reads as. -/
def statusAfter (s : State) : Word := readRegister .status s.regs

/-! ## Well-formedness: one ill-formed term per check -/

/-- BAD_REG on a read and on a write (30_encoding.md R82). -/
theorem test_illformed_bad_reg :
    wellFormed (.readReg 0x11) = false ∧ wellFormed (.writeReg 0xFF 0) = false := by decide

/-- READ_ONLY (10_state.md R17). -/
theorem test_illformed_read_only : wellFormed (.writeReg 0x20 0) = false := by decide

/-- BAD_VALUE of an enumeration and of a flag (10_state.md R17). -/
theorem test_illformed_bad_value :
    wellFormed (.writeReg 0x01 4) = false ∧ wellFormed (.writeReg 0x0F 2) = false := by decide

/-- The same registers at their last legal values. -/
theorem test_wellformed_boundaries :
    wellFormed (.writeReg 0x01 3) = true ∧ wellFormed (.writeReg 0x0F 1) = true ∧
      wellFormed (.writeReg 0x30 0xFFFFFFFF) = true ∧ wellFormed (.readReg 0x30) = true := by decide

/-! ## Decoding: words written out from 30_encoding.md R77 to R80 -/

/-- OP 0 to 5: NOP, WRITE_REG BASE_FREQ, READ_REG OSC_PHASE, NOTE_ON, NOTE_OFF, LFO_RESET. -/
theorem test_decode_interface :
    decode ⟨0x00000000, 0xDEADBEEF⟩ = .command .nop ∧
    decode ⟨0x10000002, 0x43DC0000⟩ = .command (.writeReg 0x02 0x43DC0000) ∧
    decode ⟨0x20000022, 0⟩ = .command (.readReg 0x22) ∧
    decode ⟨0x30000000, 0⟩ = .command .noteOn ∧
    decode ⟨0x40000000, 0⟩ = .command .noteOff ∧
    decode ⟨0x50000000, 0⟩ = .command .lfoReset := by decide

/-- OP 6 to 0xC: TICK, ENV_STEP, LFO_STEP, OSC_STEP, FILT_STEP, WAVE_EVAL TRIANGLE, RESET. -/
theorem test_decode_units :
    decode ⟨0x60000000, 0⟩ = .command .tick ∧
    decode ⟨0x70000000, 0⟩ = .command .envStep ∧
    decode ⟨0x80000000, 0⟩ = .command .lfoStep ∧
    decode ⟨0x90000000, 0x43DC0000⟩ = .command (.oscStep 0x43DC0000) ∧
    decode ⟨0xA0000000, 0x3F800000⟩ = .command (.filtStep 0x3F800000) ∧
    decode ⟨0xB0000002, 0x3FC90FDB⟩ = .command (.waveEval .triangle 0x3FC90FDB) ∧
    decode ⟨0xC0000000, 0⟩ = .command .reset := by decide

/-- V-X3, V-X5, V-X6, V-X8, V-X9: the decoder's refusals and which wins. -/
theorem test_decode_refusals :
    decode ⟨0xF1234567, 0⟩ = .rejected .illegalOp ∧
    decode ⟨0x30000100, 0⟩ = .rejected .reservedBits ∧
    decode ⟨0x30000001, 0⟩ = .rejected .reservedBits ∧
    decode ⟨0xB0000004, 0⟩ = .rejected .reservedBits ∧
    decode ⟨0x10000101, 0⟩ = .rejected .reservedBits := by decide

/-- The host's numbering: CMD is bits 31:0, DATA bits 63:32 (spec/opcode_table.json). -/
theorem test_table_word :
    decodeTableWord 64 0x43DC000090000000 = some (.oscStep 0x43DC0000) ∧
    decodeTableWord 32 0x90000000 = some (.oscStep 0) ∧ decodeTableWord 32 0xD0000000 = none := by decide

/-! ## Arithmetic: 00_scope.md R9 to R11 -/

/-- Ties to even both ways, a subnormal result, overflow to infinity. -/
theorem test_rounding :
    fadd 0x4B800000 0x3F800000 = 0x4B800000 ∧ fadd 0x4B800001 0x3F800000 = 0x4B800002 ∧
    fmul 0x00800000 0x3F000000 = 0x00400000 ∧ fadd 0x7F7FFFFF 0x7F7FFFFF = 0x7F800000 ∧
    fdiv 0x3F800000 0x40400000 = 0x3EAAAAAB := by decide

/-- The floor of -0.5 is -1, of 2.5 is 2; R10's zero sums. -/
theorem test_floor_and_zero :
    ffloor 0xBF000000 = 0xBF800000 ∧ ffloor 0x40200000 = 0x40000000 ∧
    fadd 0x80000000 0x80000000 = 0x80000000 ∧ fadd 0x80000000 0x00000000 = 0x00000000 := by decide

/-! ## One step per command -/

/-- V-I7. -/
theorem test_nop : answer (after .nop State.reset) = some (0, 0) ∧ (after .nop State.reset).regs = Regs.reset := by decide

/-- V-I4, V-I10: stored without change; the other routing register stays. -/
theorem test_write_reg :
    (after (.writeReg 0x02 0x7F800001) State.reset).regs.baseFreq = 0x7F800001 ∧
    (after (.writeReg 0x0E 3) State.reset).regs.lfoTarget = .filter ∧
    (after (.writeReg 0x0E 3) State.reset).regs.lfoEnable = false := by decide

/-- V-X12, V-X14, V-X20: a refusal sets STATUS, W1C clears ERR and keeps LAST_ERR. -/
theorem test_write_reg_status :
    answer (afterWords 0x10000020 0 State.reset) = some (4, 0) ∧
    statusAfter (afterWords 0x10000020 0 State.reset) = 0x00000401 ∧
    statusAfter (afterWords 0x10000001 4 State.reset) = 0x00000501 ∧
    statusAfter (afterWords 0x10000030 1 (afterWords 0x10000020 0 State.reset)) = 0x00000400 := by decide

/-- V-I1, V-X10. -/
theorem test_read_reg :
    answer (after (.readReg 0x00) State.reset) = some (0, 0x47530007) ∧
    answer (after (.readReg 0x10) State.reset) = some (0, 0x37BE37C6) ∧
    answer (after (.readReg 0x11) State.reset) = some (3, 0) := by decide

/-- V-E1: the state changes, the value is kept. -/
theorem test_note_on :
    (after .noteOn (at' { Regs.reset with envState := .release, envValue := 0x3E99999A })).regs.envState = .attack ∧
    (after .noteOn (at' { Regs.reset with envState := .release, envValue := 0x3E99999A })).regs.envValue =
      0x3E99999A := by decide

/-- V-E7. -/
theorem test_note_off :
    (after .noteOff (at' { Regs.reset with envState := .sustain })).regs.envState = .release := by decide

/-- V-L4. -/
theorem test_lfo_reset : (after .lfoReset (at' { Regs.reset with lfoPhase := 0x3B3ABEF7 })).regs.lfoPhase = 0 := by decide

/-- V-T1. -/
theorem test_tick :
    (after .tick State.reset).regs.oscPhase = 0x3D80634A ∧ (after .tick State.reset).regs.tickCount = 1 ∧
    (after .tick State.reset).regs.lastModCutoff = 0x447A0000 ∧ (after .tick State.reset).regs.envState = .idle := by
  refine ⟨?_, ?_, ?_, ?_⟩ <;> rfl

/-- V-T16 with a Triangle: a NaN amplitude reaches the output and sets NONFINITE. -/
theorem test_tick_nan :
    answer (after .tick (at' { Regs.reset with amplitude := 0x7FC00000, waveType := .triangle })) =
      some (0, 0x7FC00000) ∧
    statusAfter (after .tick (at' { Regs.reset with amplitude := 0x7FC00000, waveType := .triangle })) = 2 := by
  decide +kernel

/-- V-E2, V-E4, V-E13: Attack's first step; Decay's first step; Sustain follows its register. -/
theorem test_env_step :
    answer (after .envStep (at' { Regs.reset with envState := .attack })) = some (0, 0x3B149B93) ∧
    answer (after .envStep (at' { Regs.reset with envState := .decay, envValue := 0x3F800000 })) =
      some (0, 0x3F7FFD07) ∧
    answer (after .envStep (at' { Regs.reset with envState := .sustain, envSustain := 0x3F000000 })) =
      some (0, 0x3F000000) := by decide

/-- V-E15, V-E18. -/
theorem test_env_step_contract :
    (after .envStep (at' { Regs.reset with envState := .attack, envAttack := 0 })).regs.envState = .decay ∧
    answer (after .envStep (at' { Regs.reset with
      envState := .decay, envValue := 0x3F800000, envDecay := 0, envSustain := 0x3F800000 })) = some (0, 0x7FC00000) := by
  decide

/-- V-L7, V-L8. -/
theorem test_lfo_step :
    answer (after .lfoStep (at' { Regs.reset with lfoEnable := true, lfoWave := .triangle })) = some (0, 0xBEFFE247) ∧
    answer (after .lfoStep (at' { Regs.reset with lfoEnable := true, lfoWave := .saw })) = some (0, 0x38EDC5B7) := by
  decide

/-- V-L5. -/
theorem test_lfo_step_disabled :
    answer (after .lfoStep (at' { Regs.reset with lfoRate := 0x7FC00000, lfoDepth := 0x7FC00000 })) = some (0, 0) := by
  decide

/-- V-P2, V-P6. -/
theorem test_osc_step :
    answer (after (.oscStep 0x43DC0000) (at' { Regs.reset with oscPhase := 0x40C90FDA })) = some (0, 0x3D806300) ∧
    answer (after (.oscStep 0xC3DC0000) State.reset) = some (0, 0xBD80634A) := by decide

/-- V-F1, V-F6. -/
theorem test_filt_step :
    answer (after (.filtStep 0x3F800000) State.reset) = some (0, 0x3F7FBE88) ∧
    answer (after (.filtStep 0x3F800000) (at' { Regs.reset with filtCutoff := 0xBF800000 })) = some (0, 0x7FC00000) := by
  decide

/-- V-W9, V-W10. -/
theorem test_wave_eval :
    answer (after (.waveEval .triangle 0x40800000) State.reset) = some (0, 0x3EE833E8) ∧
    answer (after (.waveEval .saw 0xBF800000) State.reset) = some (0, 0xBEA2F983) := by decide

/-- V-I8: every register back. -/
theorem test_reset :
    (after .reset (at' { Regs.reset with amplitude := 0, tickCount := 5, filtResonance := 0x12345678 })).regs =
      Regs.reset := by decide

/-- From reset with nothing offered a step changes nothing; an offered command is accepted, then run. -/
theorem test_step_accepts_then_runs :
    step State.reset = .next State.reset ∧
    step (offerHost ⟨0x30000000, 0⟩ State.reset) = .next (State.reset.withFetchWord 64 0x30000000) ∧
    step (State.reset.withFetchWord 64 0x30000000) =
      .next { regs := { Regs.reset with envState := .attack }, port := { Port.reset with responses := [⟨0, 0⟩] } } :=
  ⟨rfl, rfl, rfl⟩

/-! ## Witnesses: each obligation's hypotheses are met, each clause at the ends of its range -/

/-- A transaction with a DATA word its command ignores, and one whose DATA is its operand. -/
theorem test_witness_DecodedCommandReencodes :
    decode ⟨0x30000000, 5⟩ = .command .noteOn ∧ decode ⟨0xB0000003, 5⟩ = .command (.waveEval .saw 5) := by decide

/-- A CMD with every free bit of its row set, decoded and selected. -/
theorem test_witness_OpcodeMapSelects :
    decode ⟨0x100000FF, 0⟩ = .command (.writeReg 0xFF 0) ∧
    (0x100000FF : Word) &&& rowMask (.writeReg 0 0) = rowMatch (.writeReg 0 0) ∧
    (0xB0000003 : Word) &&& rowMask (.waveEval .sine 0) = rowMatch (.waveEval .sine 0) := by decide

/-- Both refusals at the ends of their ranges, and their neighbours that pass. -/
theorem test_witness_DecoderRefusesBadWords :
    decode ⟨0xD0000000, 0⟩ = .rejected .illegalOp ∧ decode ⟨0xCFFFFFFF, 0⟩ = .rejected .reservedBits ∧
    decode ⟨0xC0000000, 0⟩ = .command .reset ∧ decode ⟨0xB0000003, 0⟩ = .command (.waveEval .saw 0) := by decide

/-- A command in execution that decodes to a command, and one that is refused. -/
theorem test_witness_StepRunsDecodedCommand :
    (State.reset.withFetchWord 64 0x30000000).port.resetInput = false ∧
    (State.reset.withFetchWord 64 0x30000000).port.current = some ⟨0x30000000, 0⟩ ∧
    decode ⟨0x30000000, 0⟩ = .command .noteOn ∧
    (State.reset.withFetchWord 64 0xD0000000).port.current = some ⟨0xD0000000, 0⟩ ∧
    decode ⟨0xD0000000, 0⟩ = .rejected .illegalOp := by decide

/-- Nothing offered; one offer of each producer. -/
theorem test_witness_StepAcceptsOldestOffer :
    State.reset.port.resetInput = false ∧ State.reset.port.current = none ∧
    (offerHost ⟨0, 0⟩ State.reset).port.hostQueue = [⟨0, 0⟩] ∧
    (offerTicker ⟨0, 0⟩ State.reset).port.tickerQueue = [⟨0, 0⟩] ∧
    (offerTicker ⟨0, 0⟩ State.reset).port.current = none := by decide

/-- The reset input asserted, with and without a command in flight. -/
theorem test_witness_StepUnderResetInput :
    (assertReset State.reset).port.resetInput = true ∧ (assertReset State.reset).port.current = none ∧
    (assertReset (State.reset.withFetchWord 64 0)).port.resetInput = true ∧
    (assertReset (State.reset.withFetchWord 64 0)).port.current = some ⟨0, 0⟩ := by decide

/-- A state after a refusal, with a response sent and a NaN in the filter history, meets the invariant and steps. -/
theorem test_witness_StepKeepsMachineInvariant :
    let s : State := {
      regs := { Regs.reset with filtPrev := canonNaN, status := ⟨true, true, 5⟩ }
      port := { Port.reset with responses := [⟨5, 0⟩], current := some ⟨0, 0⟩ } }
    MachineInv s ∧ ∃ t, step s = .next t := by
  refine ⟨⟨⟨by decide, by decide⟩, ?_, ?_⟩, _, rfl⟩
  · intro r hr
    rw [List.mem_singleton.1 hr]
    exact ⟨by decide, by decide⟩
  · refine ⟨?_, ?_, ?_, ?_, ?_⟩ <;> (unfold canonical; decide)

/-- Each cause of a refusal, at the end of its range. -/
theorem test_witness_RejectedCommandOnlyTouchesStatus :
    specVerdict ⟨0xD0000000, 0⟩ = some .illegalOp ∧ specVerdict ⟨0xC0000001, 0⟩ = some .reservedBits ∧
    specVerdict ⟨0x20000031, 0⟩ = some .badReg ∧ specVerdict ⟨0x1000002E, 0⟩ = some .readOnly ∧
    specVerdict ⟨0x1000000D, 4⟩ = some .badValue ∧ specVerdict ⟨0x1000000F, 2⟩ = some .badValue := by decide

/-- The neighbours of those refusals pass. -/
theorem test_witness_PassedChecksExecute :
    specVerdict ⟨0xC0000000, 0⟩ = none ∧ specVerdict ⟨0x20000030, 0⟩ = none ∧ specVerdict ⟨0x10000030, 0⟩ = none ∧
    specVerdict ⟨0x1000000D, 3⟩ = none ∧ specVerdict ⟨0x1000000F, 1⟩ = none := by decide

/-- The ends of the ranges of unmapped indices, and the mapped indices beside them. -/
theorem test_witness_UnmappedIndexIsRefused :
    unmappedIndex 0x11 = true ∧ unmappedIndex 0x1F = true ∧ unmappedIndex 0x25 = true ∧ unmappedIndex 0x27 = true ∧
    unmappedIndex 0x2F = true ∧ unmappedIndex 0x31 = true ∧ unmappedIndex 0xFF = true ∧ unmappedIndex 0x10 = false ∧
    unmappedIndex 0x20 = false ∧ unmappedIndex 0x24 = false ∧ unmappedIndex 0x28 = false ∧ unmappedIndex 0x2E = false ∧
    unmappedIndex 0x30 = false := by decide

/-- A binary32, an enumeration and a flag register at their largest values. -/
theorem test_witness_WriteRegStoresLegalValue :
    writeKind .dt = .f32 ∧ writeKind .lfoWave = .enum2 ∧ (3 : Word) ≤ 3#32 ∧
    writeKind .lfoEnable = .flag1 ∧ (1 : Word) ≤ 1#32 := by decide

/-- A Triangle select, written and read back. -/
theorem test_witness_WriteThenReadReturnsValue :
    writeKind .waveType ≠ .readOnly ∧ writeKind .waveType ≠ .w1c ∧
    (writeKind .waveType = .enum2 → (2 : Word) ≤ 3#32) ∧ (writeKind .waveType = .flag1 → (2 : Word) ≤ 1#32) := by decide

/-- The last index at an idle port; an access while a command is in execution and one is offered; accesses too narrow,
unaligned, and beyond the last index; the last byte. -/
theorem test_witness_BusAccessReachesOneRegister :
    255 < 256 ∧ State.reset.port.resetInput = false ∧ State.reset.port.current = none ∧
    State.reset.port.hostQueue = [] ∧ State.reset.port.tickerQueue = [] ∧
    busStep { producer := .host, offset := 1020, width := 32, store := none }
        (offerHost ⟨0, 0⟩ (State.reset.withFetchWord 64 0)) =
      .next (offerHost ⟨0x200000FF, 0⟩ (offerHost ⟨0, 0⟩ (State.reset.withFetchWord 64 0))) ∧
    ¬ (16 = 32 ∧ 0 % 4 = 0 ∧ 0 < 4 * 256) ∧ ¬ (32 = 32 ∧ 2 % 4 = 0 ∧ 2 < 4 * 256) ∧
    ¬ (32 = 32 ∧ 1024 % 4 = 0 ∧ 1024 < 4 * 256) ∧ 3 < 4 ∧ busByte 0x47530007 3 = 0x47 :=
  ⟨by decide, rfl, rfl, rfl, rfl, rfl, by decide, by decide, by decide, by decide, by decide⟩

/-- A load through the mapping waits behind the command in execution and does not drop it (20_memory.md R66): NOTE_ON
answers first, then the load of ENV_STATE answers 1. -/
theorem test_bus_waits :
    ∃ t u v w, busStep { producer := .host, offset := 4 * 0x20, width := 32, store := none }
        (State.reset.withFetchWord 64 0x30000000) = .next t ∧ step t = .next u ∧ step u = .next v ∧ step v = .next w ∧
      w.port.responses = [⟨0, 0⟩, ⟨0, 1⟩] :=
  ⟨_, _, _, _, rfl, rfl, rfl, rfl, rfl⟩

/-- Finite operands: the largest value, and a pair whose exact sum is zero. -/
theorem test_witness_SumsRoundCorrectly :
    isFinite 0x7F7FFFFF = true ∧ isFinite 0xFF7FFFFF = true ∧ isFinite negZero = true ∧
    fRat negZero + fRat negZero = 0 := by
  refine ⟨by decide, by decide, by decide, ?_⟩
  have h : fUnits negZero = 0 := by decide
  simp [fRat, h]

/-- The smallest non-zero divisor. -/
theorem test_witness_ProductsAndQuotientsRoundCorrectly :
    isFinite 0x7F7FFFFF = true ∧ isFinite 0x00000001 = true ∧ isZero 0x00000001 = false := by decide

/-- A number that is neither zero nor a NaN, the zeros, both infinities with equal and with different signs, a finite value
and a finite zero, a signalling NaN. -/
theorem test_witness_ArithmeticSpecialCases :
    isNaN 0x7F800000 = false ∧ isZero 0x7F800000 = false ∧ isZero posZero = true ∧ isZero negZero = true ∧
    isInf 0x7F800000 = true ∧ isInf 0xFF800000 = true ∧ isFinite 0x7F7FFFFF = true ∧ isFinite negZero = true ∧
    isNaN 0x00000001 = false ∧ isZero 0x00000001 = false ∧ fSign 0xFF800000 = fSign 0xFF800000 ∧
    fSign 0x7F800000 ≠ fSign 0xFF800000 ∧ isNaN 0x7F800001 = true := by decide

/-- A signalling NaN, finite ends, a zero, an infinity, and a value in (0, 1). -/
theorem test_witness_ComparisonsAndFloor :
    isNaN 0x7F800001 = true ∧ isFinite 0xFF7FFFFF = true ∧ isZero negZero = true ∧ isInf 0xFF800000 = true ∧
    isFinite HALF = true ∧ 0 < fRat HALF ∧ fRat HALF < 1 := by
  have h : fUnits HALF = 2 ^ 148 := by decide
  refine ⟨by decide, by decide, by decide, by decide, by decide, ?_, ?_⟩ <;> norm_num [fRat, h]

/-- A function with the properties of R12: the identity on zeros, +0 on the other finite words. -/
theorem test_witness_SinChoiceMeetsProperties :
    SinProperties (fun x => if isFinite x then (if isZero x then x else posZero) else canonNaN) := by
  refine ⟨fun x hx => ?_, by decide, by decide, fun x hx => by simp [hx]⟩
  simp only [hx, if_true]
  split
  · rename_i hz
    have hm : fMag x = 0 := isZero_iff.1 hz
    rw [← pack_sign_mag x, hm]
    cases fSign x <;> exact ⟨by decide, by decide⟩
  · exact ⟨by decide, by decide⟩

/-- A sine above and below +0 for a choice of SIN32; the sine of +0 is a zero and of +inf a NaN for every choice. -/
theorem test_witness_SquareIsAlwaysOne :
    fgt (sin32Of (fun _ => ONE) ONE) posZero = true ∧ flt (sin32Of (fun _ => NEG1) ONE) posZero = true ∧
    isZero (sin32 posZero) = true ∧ isNaN (sin32 0x7F800000) = true := by decide

/-- The infinities and a NaN; the first phase of the band and the largest finite one. -/
theorem test_witness_BrokenPhaseWaves :
    isFinite 0x7F800000 = false ∧ isFinite 0xFF800000 = false ∧ isFinite 0x7FC00000 = false ∧
    isFinite 0xCC490FDC = true ∧ fle 0x4C490FDC (fabs 0xCC490FDC) = true ∧ isFinite 0x7F7FFFFF = true ∧
    fle 0x4C490FDC (fabs 0x7F7FFFFF) = true := by decide

/-- The band of 41_waveform_generator.md R97: V-W12 and its negative (odd t), V-W13 (beyond 2^24), and 52707180.0, which is
below the band but divides to 2^23 (V-W11). -/
theorem test_wave_band :
    wave .saw 0x4C490FDC = 0xC0000000 ∧ wave .triangle 0xCC490FDC = 0x40400000 ∧ wave .saw 0x4E800000 = 0 ∧
    wave .triangle 0x4E800000 = 0xBF800000 ∧ wave .triangle 0x4C490FDB = 0xBF800000 := by decide

/-- The ends of [0, TWO_PI), -0 included, and the first phase outside. -/
theorem test_witness_WavesInRangeOnPhase :
    inPhase posZero ∧ inPhase negZero ∧ inPhase 0x40C90FDA ∧ ¬ inPhase TWO_PI := by
  unfold inPhase
  decide

/-- The largest phase with the largest increment below TWO_PI (44100 Hz at the reset time step). -/
theorem test_witness_PhaseInvariantHolds :
    inPhase 0x40C90FDA ∧ inPhase (fmul (fmul TWO_PI 0x472C4400) 0x37BE37C6) := by
  unfold inPhase
  decide

/-- A register file of the reset parameters with an envelope state and value. -/
def envAt (st : EnvState) (w : Word) : Regs := { Regs.reset with envState := st, envValue := w }

/-- Each envelope state at both sides of its segment's comparison. -/
theorem test_witness_EnvSteps :
    (envAt .idle 0).envState = .idle ∧ (envAt .sustain 0).envState = .sustain ∧
    (envAt .attack ONE).envState = .attack ∧ fge (attackValue Regs.reset.dt (envAt .attack ONE)) ONE = true ∧
    fge (attackValue Regs.reset.dt (envAt .attack posZero)) ONE = false ∧
    (envAt .decay ONE).envState = .decay ∧
    fle (decayValue Regs.reset.dt (envAt .decay 0x3F4CCCCD)) 0x3F4CCCCD = true ∧
    fle (decayValue Regs.reset.dt (envAt .decay ONE)) 0x3F4CCCCD = false ∧
    (envAt .release ONE).envState = .release ∧
    fle (releaseValue Regs.reset.dt (envAt .release posZero)) posZero = true ∧
    fle (releaseValue Regs.reset.dt (envAt .release ONE)) posZero = false := by decide

/-- The contract at the reset parameters, with the value at each end of [0, 1]; Decay from S itself. -/
theorem test_witness_EnvelopeStaysInUnit :
    envInContract Regs.reset ∧ envInContract { Regs.reset with envState := .attack, envValue := 0x3F800000 } ∧
    envInContract { Regs.reset with envState := .decay, envValue := 0x3F4CCCCD } ∧
    fle Regs.reset.envSustain 0x3F4CCCCD = true := by
  unfold envInContract posFinite inUnit
  decide

/-- Attack with attack times of +0 and of -0 (clauses 1 and 2). -/
theorem test_witness_EnvelopeOutOfContract_attack :
    let g := { envAt .attack HALF with envAttack := posZero }
    let h := { envAt .attack HALF with envAttack := negZero }
    isFinite g.envValue = true ∧ g.envState = .attack ∧ posFinite g.dt ∧ g.envAttack = posZero ∧
    isFinite h.envValue = true ∧ h.envState = .attack ∧ posFinite h.dt ∧ h.envAttack = negZero := by
  unfold posFinite
  decide

/-- Decay with a decay time of +0 below full sustain, and of ±0 at full sustain (clauses 3 and 4). -/
theorem test_witness_EnvelopeOutOfContract_decay :
    let g := { envAt .decay ONE with envDecay := posZero }
    let h := { envAt .decay ONE with envDecay := negZero, envSustain := ONE }
    isFinite g.envValue = true ∧ g.envState = .decay ∧ inUnit g.envSustain ∧ posFinite g.dt ∧
    isZero (fmul g.dt (fsub ONE g.envSustain)) = false ∧ g.envDecay = posZero ∧
    isFinite h.envValue = true ∧ h.envState = .decay ∧ posFinite h.dt ∧ h.envSustain = ONE ∧ h.envDecay = negZero := by
  unfold posFinite inUnit
  decide

/-- Release with a release time of +0, and with sustain 0 from a positive value (clauses 5 and 6). -/
theorem test_witness_EnvelopeOutOfContract_release :
    let g := { envAt .release HALF with envRelease := posZero }
    let h := { envAt .release HALF with envSustain := posZero }
    isFinite g.envValue = true ∧ g.envState = .release ∧ inUnit g.envSustain ∧ posFinite g.dt ∧
    isZero (fmul g.dt g.envSustain) = false ∧ g.envRelease = posZero ∧
    isFinite h.envValue = true ∧ h.envState = .release ∧ posFinite h.dt ∧ h.envSustain = posZero ∧
    posFinite h.envRelease ∧ posFinite h.envValue := by
  unfold posFinite inUnit
  decide

/-- A NaN time step in Attack (clause 7). -/
theorem test_witness_EnvelopeOutOfContract_nan :
    let g := { envAt .attack HALF with dt := 0x7F800001 }
    isFinite g.envValue = true ∧ isNaN g.dt = true ∧ g.envState = .attack := by
  decide

/-- Disabled at reset; enabled after a write. -/
theorem test_witness_LfoStep :
    State.reset.regs.lfoEnable = false ∧ (at' { Regs.reset with lfoEnable := true }).regs.lfoEnable = true := by decide

/-- Enabled at the reset rate, at the largest phase, with the largest depth. -/
theorem test_witness_LfoStaysWithinDepth :
    let g := { Regs.reset with lfoEnable := true, lfoPhase := 0x40C90FDA, lfoDepth := 0xFF7FFFFF }
    g.lfoEnable = true ∧ inPhase g.lfoPhase ∧ inPhase (phaseInc g.lfoRate g.dt) ∧ isFinite g.lfoDepth = true := by
  unfold inPhase
  decide

/-- The smallest and the largest transparent cutoff; the zero cutoffs; a zero and a non-zero history. -/
theorem test_witness_FilterAtExtremeCutoffs :
    isFinite 0x4C000000 = true ∧ fge 0x4C000000 0x4C000000 = true ∧ isFinite 0x7F7FFFFF = true ∧
    fge 0x7F7FFFFF 0x4C000000 = true ∧ (posZero : Word) ≠ negZero ∧ isZero posZero = true ∧ isZero negZero = true ∧
    isZero ONE = false := by decide

/-- Each target, the target None at reset. -/
theorem test_witness_Targets :
    State.reset.regs.lfoTarget = .none ∧ (at' { Regs.reset with lfoTarget := .filter }).regs.lfoTarget = .filter ∧
    (at' { Regs.reset with lfoTarget := .amplitude }).regs.lfoTarget = .amplitude := by decide

/-- TICK_COUNT before its wrap (V-T15). -/
theorem test_witness_TickCountCountsTicks :
    (Instr.tick = .tick) ∧ (Instr.reset = .reset) ∧ Instr.nop ≠ .tick ∧ Instr.nop ≠ .reset ∧
    ((0xFFFFFFFF : Word).toNat + 1) % 2 ^ 32 = 0 := by decide

/-- A voice at rest away from reset: another phase, frequency and amplitude. -/
theorem test_witness_QuietVoiceStaysSilent :
    quietVoice { Regs.reset with oscPhase := 0x40C90FDA, baseFreq := 0x472C4400, amplitude := 0xFF7FFFFF } := by
  unfold quietVoice inPhase posFinite
  decide

/-- The situation of R139; a phase of +0 keeps SIN32 away from -0, a phase of -0 with an increment of -0 gives -0. -/
theorem test_witness_TickReproducesSine :
    (let g := { Regs.reset with envState := EnvState.sustain, envSustain := ONE, filtCutoff := 0x4C000000 }
     g.waveType = .sine ∧ g.amplitude = ONE ∧ g.envState = .sustain ∧ g.envSustain = ONE ∧ g.lfoTarget = .none ∧
     isFinite g.filtCutoff = true ∧ fge g.filtCutoff 0x4C000000 = true ∧ isFinite g.filtPrev = true) ∧
    sin32 (phaseAdvance posZero posZero Regs.reset.dt) ≠ negZero ∧
    sin32 (phaseAdvance negZero negZero Regs.reset.dt) = negZero := by
  refine ⟨by decide, ?_, ?_⟩
  · have h : phaseAdvance posZero posZero Regs.reset.dt = posZero := by decide
    rw [h]
    decide
  · have h : phaseAdvance negZero negZero Regs.reset.dt = negZero := by decide
    rw [h]
    decide

/-- One command per clause that leaves the register alone. -/
theorem test_witness_StateChangesOnlyByOwner :
    Instr.nop ≠ .reset ∧ Instr.nop ≠ .tick ∧ (∀ f, Instr.nop ≠ .oscStep f) ∧ Instr.nop ≠ .lfoStep ∧
    Instr.nop ≠ .lfoReset ∧ (∀ x, Instr.nop ≠ .filtStep x) ∧ Instr.nop ≠ .envStep ∧ Instr.nop ≠ .noteOn ∧
    Instr.nop ≠ .noteOff ∧ (∀ a v, Instr.nop ≠ .writeReg a v) ∧ writeKind .dt ≠ .readOnly ∧ Reg.dt ≠ .status ∧
    Reg.dt ≠ .filtCutoff ∧ wellFormed .nop = true ∧ wellFormed (.writeReg 0x30 0xFFFFFFFF) = true ∧
    (∀ v, Instr.writeReg 0x02 7 ≠ .writeReg 0x30 v) ∧ wellFormed (.writeReg 0x02 7) = true := by
  refine ⟨by simp, by simp, by simp, by simp, by simp, by simp, by simp, by simp, by simp, by simp, by decide, by decide,
    by decide, by decide, by decide, by simp, by decide⟩

/-- A NaN in each register that keeps it, in an envelope that ramps. -/
theorem test_witness_NanSticksUntilReset :
    let g := { Regs.reset with
      oscPhase := canonNaN, filtPrev := canonNaN, lfoPhase := canonNaN, envValue := canonNaN, envState := .decay }
    isNaN g.oscPhase = true ∧ isNaN g.filtPrev = true ∧ isNaN g.lfoPhase = true ∧ isNaN g.envValue = true ∧
    g.envState = .decay ∧ Instr.tick ≠ .reset ∧ Instr.tick ≠ .lfoReset := by decide

/-- Two states that differ in the unread registers alone, with a command that reads none of them. -/
theorem test_witness_UnreadRegistersDoNotInterfere :
    (∀ r ∈ unreadRegs, Instr.tick ≠ .readReg (regIndex r)) ∧
    (∀ r ∈ unreadRegs, Instr.readReg (regIndex .dt) ≠ .readReg (regIndex r)) ∧
    Regs.reset ≠ { Regs.reset with filtResonance := 1, tickCount := 0xFFFFFFFF } ∧
    eraseUnread Regs.reset = eraseUnread { Regs.reset with filtResonance := 1, tickCount := 0xFFFFFFFF } := by decide

/-- An entry of the table, at its last index, and the neighbours of the unmapped ranges. -/
theorem test_witness_ReadRegAnswersRegisterWord :
    (0x30, 0x00000503#32) ∈ mapWords { Regs.reset with status := ⟨true, true, 5⟩ } ∧ unmappedIndex 0x10 = false ∧
    unmappedIndex 0x24 = false ∧ unmappedIndex 0x2E = false ∧ unmappedIndex 0x30 = false := by decide

/-- STATUS, ENV_STATE and LFO_TARGET as READ_REG answers them (10_state.md R51, R53). -/
theorem test_read_fields :
    answer (after (.readReg 0x30) (at' { Regs.reset with status := ⟨false, true, 3⟩ })) = some (0, 0x00000302) ∧
    answer (after (.readReg 0x20) (at' { Regs.reset with envState := .sustain })) = some (0, 3) ∧
    answer (after (.readReg 0x0E) (at' { Regs.reset with lfoTarget := .amplitude })) = some (0, 2) := by decide

/-- Phases and increments at the top of [0, TWO_PI): OSC_STEP and TICK at 44100 Hz, the enabled LFO at 44100 Hz. -/
theorem test_witness_PhasesStayInRange :
    let g := { Regs.reset with oscPhase := 0x40C90FDA, lfoPhase := 0x40C90FDA, baseFreq := 0x472C4400 }
    let h := { g with lfoRate := 0x472C4400, lfoEnable := true }
    inPhase g.oscPhase ∧ inPhase g.lfoPhase ∧ inPhase (phaseInc 0x472C4400 g.dt) ∧
    (after .tick (at' g)).regs.lastModFreq = 0x472C4400 ∧
    (after .lfoStep (at' h)).port.current = none ∧ inPhase (phaseInc h.lfoRate h.dt) := by
  refine ⟨?_, ?_, ?_, rfl, rfl, ?_⟩ <;> (unfold inPhase; decide)

/-- The largest finite phase for Sine; the last phase below the band, of both signs. -/
theorem test_witness_WavesInRangeBelowBand :
    isFinite 0x7F7FFFFF = true ∧ flt (fabs 0x4C490FDB) 0x4C490FDC = true ∧
    flt (fabs 0xCC490FDB) 0x4C490FDC = true ∧ flt (fabs 0x4C490FDC) 0x4C490FDC = false := by decide

end Sys2Proof.Tests
end

/-!
PROOF. Sums, products and quotients of binary32 words are correctly rounded (00_scope.md R9, R10): the rounded magnitude
is nearest among the magnitudes, and the sign carries this over to the signed values.
-/

namespace Sys2Proof.Machine

/-! ## The rounded magnitude is a nearest one -/

/-- No larger pattern is nearer than the rounded one, and one as near leaves it even (R9). -/
theorem roundMag_nearest_below {n d m : Nat} (hd : 0 < d) (hfin : roundMag n d < infMag) (h : roundMag n d < m) :
    2 * n ≤ (magUnits (roundMag n d) + magUnits m) * d ∧
      (2 * n = (magUnits (roundMag n d) + magUnits m) * d → roundMag n d % 2 = 0) := by
  have hround := (roundMag_le_iff hd hfin).1 le_rfl
  have hnext : magUnits (roundMag n d + 1) ≤ magUnits m := magUnits_le_iff.2 h
  have hmid : (magUnits (roundMag n d) + magUnits (roundMag n d + 1)) * d ≤
      (magUnits (roundMag n d) + magUnits m) * d := Nat.mul_le_mul_right d (by omega)
  omega

/-- No smaller pattern is nearer than the rounded one, and one as near leaves it even (R9). -/
theorem roundMag_nearest_above {n d m : Nat} (hd : 0 < d) (h : m < roundMag n d) :
    (magUnits m + magUnits (roundMag n d)) * d ≤ 2 * n ∧
      (2 * n = (magUnits m + magUnits (roundMag n d)) * d → roundMag n d % 2 = 0) := by
  have hle := roundMag_le_infMag n d
  obtain ⟨p, hp⟩ : ∃ p, roundMag n d = p + 1 := ⟨roundMag n d - 1, by omega⟩
  have hround : ¬ roundMag n d ≤ p := by omega
  rw [roundMag_le_iff hd (by omega)] at hround
  rw [hp]
  have hprev : magUnits m ≤ magUnits p := magUnits_le_iff.2 (by omega)
  have hmid : (magUnits m + magUnits (p + 1)) * d ≤ (magUnits p + magUnits (p + 1)) * d :=
    Nat.mul_le_mul_right d (by omega)
  omega

/-- The rounded pattern is a nearest one, and another as near leaves it even (R9). -/
theorem roundMag_nearest {n d : Nat} (hd : 0 < d) (hfin : roundMag n d < infMag) (m : Nat) :
    |(magUnits (roundMag n d) : ℚ) - n / d| ≤ |(magUnits m : ℚ) - n / d| ∧
      (|(magUnits m : ℚ) - n / d| = |(magUnits (roundMag n d) : ℚ) - n / d| → m ≠ roundMag n d →
        roundMag n d % 2 = 0) := by
  have hdq : (0 : ℚ) < d := by exact_mod_cast hd
  have hmid (c : Nat) : (2 * n ≤ c * d ↔ 2 * ((n : ℚ) / d) ≤ c) ∧ (2 * n = c * d ↔ 2 * ((n : ℚ) / d) = c) ∧
      (c * d ≤ 2 * n ↔ (c : ℚ) ≤ 2 * (n / d)) := by
    rw [← mul_div_assoc, div_le_iff₀ hdq, div_eq_iff hdq.ne', le_div_iff₀ hdq]
    norm_cast
  rcases lt_trichotomy m (roundMag n d) with h | h | h
  · obtain ⟨hle, htie⟩ := roundMag_nearest_above hd h
    have hlt : (magUnits m : ℚ) < magUnits (roundMag n d) := by exact_mod_cast magUnits_lt_iff.2 h
    rw [(hmid _).2.2] at hle
    rw [(hmid _).2.1] at htie
    push_cast at hle htie
    rw [abs_of_nonpos (by linarith : (magUnits m : ℚ) - n / d ≤ 0)]
    refine ⟨abs_le.2 ⟨by linarith, by linarith⟩, fun he _ => htie ?_⟩
    rcases abs_cases ((magUnits (roundMag n d) : ℚ) - n / d) with ⟨ha, _⟩ | ⟨ha, _⟩ <;> linarith
  · exact ⟨by rw [h], fun _ hne => absurd h hne⟩
  · obtain ⟨hle, htie⟩ := roundMag_nearest_below hd hfin h
    have hlt : (magUnits (roundMag n d) : ℚ) < magUnits m := by exact_mod_cast magUnits_lt_iff.2 h
    rw [(hmid _).1] at hle
    rw [(hmid _).2.1] at htie
    push_cast at hle htie
    rw [abs_of_nonneg (by linarith : 0 ≤ (magUnits m : ℚ) - n / d)]
    refine ⟨abs_le.2 ⟨by linarith, by linarith⟩, fun he _ => htie ?_⟩
    rcases abs_cases ((magUnits (roundMag n d) : ℚ) - n / d) with ⟨ha, _⟩ | ⟨ha, _⟩ <;> linarith

/-- Overflow: a finite pattern below the midpoint above the largest finite value, and the infinity's from it on (R9). -/
theorem roundMag_lt_infMag_iff {n d : Nat} (hd : 0 < d) :
    roundMag n d < infMag ↔ (n : ℚ) / d / 2 ^ 149 < (2 ^ 24 - 1 / 2) * 2 ^ 104 := by
  have hmax : magUnits (infMag - 1) + magUnits (infMag - 1 + 1) = (2 ^ 25 - 1) * 2 ^ 253 := by decide
  have hodd : (infMag - 1) % 2 = 1 := by decide
  have hle : roundMag n d < infMag ↔ roundMag n d ≤ infMag - 1 := by
    have := infMag_eq
    omega
  have hdq : (0 : ℚ) < d := by exact_mod_cast hd
  rw [hle, roundMag_le_iff hd (by decide), hmax, hodd, div_div, div_lt_iff₀ (by positivity)]
  simp only [one_ne_zero, and_false, or_false]
  rw [← Nat.cast_lt (α := ℚ)]
  push_cast
  constructor <;> intro h <;> linarith

/-! ## Signed values -/

/-- The value of a sign and a magnitude. -/
def signedRat (neg : Bool) (y : ℚ) : ℚ := if neg then -y else y

@[simp] theorem signedRat_false (y : ℚ) : signedRat false y = y := rfl
@[simp] theorem signedRat_true (y : ℚ) : signedRat true y = -y := rfl

@[simp] theorem signedRat_zero (neg : Bool) : signedRat neg 0 = 0 := by cases neg <;> simp

theorem abs_signedRat (neg : Bool) {y : ℚ} (hy : 0 ≤ y) : |signedRat neg y| = y := by
  cases neg <;> simp [hy]

theorem abs_signedRat_sub (neg : Bool) (y z : ℚ) : |signedRat neg y - signedRat neg z| = |y - z| := by
  cases neg
  · rfl
  · rw [signedRat_true, signedRat_true, neg_sub_neg, abs_sub_comm]

theorem signedRat_mul (s t : Bool) (y z : ℚ) : signedRat s y * signedRat t z = signedRat (s != t) (y * z) := by
  cases s <;> cases t <;> simp

theorem signedRat_div (s t : Bool) (y z : ℚ) : signedRat s y / signedRat t z = signedRat (s != t) (y / z) := by
  cases s <;> cases t <;> simp [neg_div, div_neg]

theorem fRat_eq_signedRat (a : Word) : fRat a = signedRat (fSign a) (magUnits (fMag a) / 2 ^ 149) := by
  rw [fRat, fUnits_eq]
  cases fSign a <;> simp [neg_div]

theorem abs_fRat (a : Word) : |fRat a| = magUnits (fMag a) / 2 ^ 149 := by
  rw [fRat_eq_signedRat, abs_signedRat _ (by positivity)]

@[simp] theorem fRat_fneg (a : Word) : fRat (fneg a) = -fRat a := by simp [fRat, neg_div]

/-- Different values of one magnitude are opposite. -/
theorem fRat_eq_neg_of_fMag_eq {a b : Word} (hm : fMag a = fMag b) (hne : fRat a ≠ fRat b) : fRat a = -fRat b := by
  have habs : |fRat a| = |fRat b| := by rw [abs_fRat, abs_fRat, hm]
  exact (abs_eq_abs.1 habs).resolve_left hne

theorem toNat_mod_two (a : Word) : a.toNat % 2 = fMag a % 2 := by
  rw [toNat_eq_sign_mag]
  split <;> omega

/-! ## The packed rounded magnitude is the correct rounding -/

theorem fRat_pack_roundMag (neg : Bool) (n d : Nat) :
    fRat (pack neg (roundMag n d)) = signedRat neg (magUnits (roundMag n d) / 2 ^ 149) := by
  rw [fRat_eq_signedRat, fSign_pack (roundMag_lt n d), fMag_pack (roundMag_lt n d)]

/-- The distance of the packed rounding from the exact value is that of the magnitudes. -/
theorem abs_fRat_pack_roundMag_sub (neg : Bool) (n d : Nat) :
    |fRat (pack neg (roundMag n d)) - signedRat neg (n / d / 2 ^ 149)| =
      |(magUnits (roundMag n d) : ℚ) - n / d| / 2 ^ 149 := by
  rw [fRat_pack_roundMag, abs_signedRat_sub, ← sub_div, abs_div, abs_of_pos (by positivity : (0 : ℚ) < 2 ^ 149)]

/-- The distance of any value from the exact one is at least that of the magnitudes. -/
theorem le_abs_fRat_sub (q : Word) (neg : Bool) (n d : Nat) :
    |(magUnits (fMag q) : ℚ) - n / d| / 2 ^ 149 ≤ |fRat q - signedRat neg (n / d / 2 ^ 149)| := by
  have h := abs_abs_sub_abs_le (fRat q) (signedRat neg (n / d / 2 ^ 149))
  rwa [abs_fRat, abs_signedRat _ (by positivity), ← sub_div, abs_div,
    abs_of_pos (by positivity : (0 : ℚ) < 2 ^ 149)] at h

theorem fRat_pack_roundMag_nearest (neg : Bool) {n d : Nat} (hd : 0 < d) (hfin : roundMag n d < infMag) (q : Word) :
    |fRat (pack neg (roundMag n d)) - signedRat neg (n / d / 2 ^ 149)| ≤
      |fRat q - signedRat neg (n / d / 2 ^ 149)| := by
  rw [abs_fRat_pack_roundMag_sub]
  exact (div_le_div_of_nonneg_right (roundMag_nearest hd hfin (fMag q)).1 (by positivity)).trans
    (le_abs_fRat_sub q neg n d)

/-- The opposite of the rounding is as near to the exact value only where the rounding is a zero. -/
theorem roundMag_eq_zero_of_opposite_tie {neg : Bool} {n d : Nat} (hd : 0 < d)
    (htie : |-fRat (pack neg (roundMag n d)) - signedRat neg (n / d / 2 ^ 149)| =
      |fRat (pack neg (roundMag n d)) - signedRat neg (n / d / 2 ^ 149)|) : roundMag n d = 0 := by
  have hprod : (magUnits (roundMag n d) / 2 ^ 149 : ℚ) * (n / d / 2 ^ 149) = 0 := by
    have hsq := (sq_eq_sq_iff_abs_eq_abs _ _).2 htie
    have hmul := signedRat_mul neg neg (magUnits (roundMag n d) / 2 ^ 149) (n / d / 2 ^ 149)
    rw [← fRat_pack_roundMag, bne_self_eq_false, signedRat_false] at hmul
    linarith
  rcases mul_eq_zero.1 hprod with h | h
  · simpa using h
  · have hn : n = 0 := by simpa [hd.ne'] using h
    rw [hn, roundMag_zero]

theorem roundMag_even_of_tie {neg : Bool} {n d : Nat} (hd : 0 < d) (hfin : roundMag n d < infMag) {q : Word}
    (htie : |fRat q - signedRat neg (n / d / 2 ^ 149)| =
      |fRat (pack neg (roundMag n d)) - signedRat neg (n / d / 2 ^ 149)|)
    (hne : fRat q ≠ fRat (pack neg (roundMag n d))) : roundMag n d % 2 = 0 := by
  by_cases hm : fMag q = roundMag n d
  · rw [fRat_eq_neg_of_fMag_eq (by rw [hm, fMag_pack (roundMag_lt n d)]) hne] at htie
    rw [roundMag_eq_zero_of_opposite_tie hd htie]
  · obtain ⟨hle, heven⟩ := roundMag_nearest hd hfin (fMag q)
    have hge := le_abs_fRat_sub q neg n d
    rw [htie, abs_fRat_pack_roundMag_sub, div_le_div_iff_of_pos_right (by positivity)] at hge
    exact heven (le_antisymm hge hle) hm

/-- The word of a sign and a rounded magnitude is the correct rounding of the signed quotient (R9). -/
theorem roundsTo_pack_roundMag (neg : Bool) (n : Nat) {d : Nat} (hd : 0 < d) :
    RoundsTo (signedRat neg (n / d / 2 ^ 149)) (pack neg (roundMag n d)) := by
  have hx : (0 : ℚ) ≤ n / d / 2 ^ 149 := by positivity
  have hmag := fMag_pack (s := neg) (roundMag_lt n d)
  constructor
  · intro h0
    rw [fSign_pack (roundMag_lt n d)]
    cases neg
    · simp [hx.not_gt]
    · simpa using lt_of_le_of_ne hx (by simpa [eq_comm] using h0)
  rw [abs_signedRat neg hx]
  split
  next hover =>
    have hinf : ¬ roundMag n d < infMag := by rwa [roundMag_lt_infMag_iff hd, not_lt]
    have := roundMag_le_infMag n d
    rw [isInf_iff, hmag]
    omega
  next hover =>
    have hfin : roundMag n d < infMag := by rwa [roundMag_lt_infMag_iff hd, ← not_le]
    refine ⟨by rwa [isFinite_iff, hmag], fun q _ => fRat_pack_roundMag_nearest neg hd hfin q, fun q _ htie hne => ?_⟩
    rw [toNat_mod_two, hmag]
    exact roundMag_even_of_tie hd hfin htie hne

/-! ## Sums, products and quotients -/

/-- The signed value of a whole number's magnitude, over a divisor. -/
theorem signedRat_natAbs_div (k : Int) (y : ℚ) : signedRat (decide (k < 0)) (k.natAbs / y) = k / y := by
  rcases lt_or_ge k 0 with h | h
  · simp [h, abs_of_neg, neg_div]
  · simp [abs_of_nonneg, h, h.not_gt]

theorem fRat_add (a b : Word) : fRat a + fRat b = ((fUnits a + fUnits b : Int) : ℚ) / 2 ^ 149 := by
  rw [fRat, fRat, ← add_div, Int.cast_add]

theorem roundsTo_fadd {a b : Word} (ha : isFinite a = true) (hb : isFinite b = true) :
    RoundsTo (fRat a + fRat b) (fadd a b) := by
  rw [fRat_add, fadd_finite ha hb]
  split
  next h0 =>
    have hzero := roundsTo_pack_roundMag (fSign a && fSign b) 0 one_pos
    simpa [h0] using hzero
  next h0 =>
    have hround := roundsTo_pack_roundMag (decide (fUnits a + fUnits b < 0)) (fUnits a + fUnits b).natAbs one_pos
    rwa [Nat.cast_one, div_one, signedRat_natAbs_div] at hround

theorem roundsTo_fsub {a b : Word} (ha : isFinite a = true) (hb : isFinite b = true) :
    RoundsTo (fRat a - fRat b) (fsub a b) := by
  have hsum := roundsTo_fadd ha ((isFinite_fneg b).trans hb)
  rwa [fRat_fneg, ← sub_eq_add_neg] at hsum

/-- An exact zero sum is +0 except (-0) + (-0) = -0 (R10). -/
theorem fadd_of_fRat_add_eq_zero {a b : Word} (ha : isFinite a = true) (hb : isFinite b = true)
    (h : fRat a + fRat b = 0) : fadd a b = if fSign a && fSign b then negZero else posZero := by
  have hunits : fUnits a + fUnits b = 0 := by
    rw [fRat_add, div_eq_zero_iff] at h
    exact_mod_cast h.resolve_right (by positivity)
  rw [fadd_finite ha hb, if_pos hunits]
  cases fSign a && fSign b <;> rfl

theorem roundsTo_fmul {a b : Word} (ha : isFinite a = true) (hb : isFinite b = true) :
    RoundsTo (fRat a * fRat b) (fmul a b) := by
  have hround := roundsTo_pack_roundMag (fSign a != fSign b) (magUnits (fMag a) * magUnits (fMag b))
    (Nat.two_pow_pos 149)
  rw [fmul_finite ha hb, fRat_eq_signedRat, fRat_eq_signedRat, signedRat_mul]
  convert hround using 2
  push_cast
  ring

theorem roundsTo_fdiv {a b : Word} (ha : isFinite a = true) (hb : isFinite b = true) (h0 : isZero b = false) :
    RoundsTo (fRat a / fRat b) (fdiv a b) := by
  have hround := roundsTo_pack_roundMag (fSign a != fSign b) (magUnits (fMag a) * 2 ^ 149)
    (magUnits_pos_of_not_isZero h0)
  rw [fdiv_finite ha hb h0, fRat_eq_signedRat, fRat_eq_signedRat, signedRat_div]
  convert hround using 2
  rw [div_div_div_cancel_right₀ (by positivity), Nat.cast_mul, Nat.cast_pow, Nat.cast_ofNat, mul_div_right_comm,
    mul_div_cancel_right₀ _ (by positivity)]

theorem fSign_fmul {a b : Word} (ha : isFinite a = true) (hb : isFinite b = true) :
    fSign (fmul a b) = (fSign a != fSign b) := by
  rw [fmul_finite ha hb, fSign_pack (roundMag_lt _ _)]

theorem fSign_fdiv {a b : Word} (ha : isFinite a = true) (hb : isFinite b = true) (h0 : isZero b = false) :
    fSign (fdiv a b) = (fSign a != fSign b) := by
  rw [fdiv_finite ha hb h0, fSign_pack (roundMag_lt _ _)]

/-- Settles O25: the exact sum rounded once is the packed rounded magnitude, which is a nearest value. -/
theorem sumsRoundCorrectly : Obligations.SumsRoundCorrectly := fun _ _ ha hb =>
  ⟨roundsTo_fadd ha hb, roundsTo_fsub ha hb, fadd_of_fRat_add_eq_zero ha hb⟩

/-- Settles O26: the exact product and quotient rounded once, as for sums. -/
theorem productsAndQuotientsRoundCorrectly : Obligations.ProductsAndQuotientsRoundCorrectly := fun _ _ ha hb =>
  ⟨roundsTo_fmul ha hb, fSign_fmul ha hb, fun h0 => ⟨roundsTo_fdiv ha hb h0, fSign_fdiv ha hb h0⟩⟩

end Sys2Proof.Machine

/-!
PROOF. The special cases of 00_scope.md R10 and R11, one lemma per pair of operand classes, and SIN32's free choice (R12).
-/

namespace Sys2Proof.Machine

/-! ## Infinities and zeros -/

@[simp] theorem fSign_posZero : fSign posZero = false := by decide
@[simp] theorem fSign_negZero : fSign negZero = true := by decide
@[simp] theorem isZero_posZero : isZero posZero = true := by decide
@[simp] theorem isZero_negZero : isZero negZero = true := by decide

theorem isFinite_of_isZero {a : Word} (h : isZero a = true) : isFinite a = true := by
  rw [isZero_iff] at h
  rw [isFinite_iff, h]
  decide

theorem isZero_of_isInf {a : Word} (h : isInf a = true) : isZero a = false := by
  rw [isInf_iff] at h
  simp [isZero, h, infMag]

theorem eq_pack_of_isInf {a : Word} (h : isInf a = true) : a = pack (fSign a) infMag := by
  rw [← isInf_iff.1 h, pack_sign_mag]

theorem eq_posZero_or_negZero {a : Word} (h : isZero a = true) : a = posZero ∨ a = negZero := by
  rw [← pack_sign_mag a, isZero_iff.1 h]
  cases fSign a
  · exact .inl rfl
  · exact .inr rfl

theorem fneg_of_isInf {a : Word} (h : isInf a = true) : fneg a = pack (!fSign a) infMag := by
  rw [← fSign_fneg]
  exact eq_pack_of_isInf ((isInf_fneg a).trans h)

/-! ## Sums with an infinity -/

theorem fadd_inf_finite {a b : Word} (ha : isInf a = true) (hb : isFinite b = true) : fadd a b = a ∧ fadd b a = a := by
  simp [fadd, ha, isNaN_of_isInf ha, isNaN_of_isFinite hb, isInf_of_isFinite hb]

theorem fadd_inf_inf {a b : Word} (ha : isInf a = true) (hb : isInf b = true) :
    fadd a b = if fSign a = fSign b then a else canonNaN := by
  simp only [fadd, ha, hb, isNaN_of_isInf ha, isNaN_of_isInf hb]
  cases fSign a <;> cases fSign b <;> rfl

theorem fsub_inf_finite {a b : Word} (ha : isInf a = true) (hb : isFinite b = true) :
    fsub a b = a ∧ fsub b a = pack (!fSign a) infMag := by
  rw [← fneg_of_isInf ha]
  exact ⟨(fadd_inf_finite ha ((isFinite_fneg b).trans hb)).1, (fadd_inf_finite ((isInf_fneg a).trans ha) hb).2⟩

theorem fsub_inf_inf {a b : Word} (ha : isInf a = true) (hb : isInf b = true) :
    fsub a b = if fSign a = fSign b then canonNaN else a := by
  rw [fsub, fadd_inf_inf ha ((isInf_fneg b).trans hb), fSign_fneg]
  cases fSign a <;> cases fSign b <;> rfl

theorem fsub_self {a : Word} (ha : isFinite a = true) : fsub a a = posZero := by
  rw [fsub, fadd_of_fRat_add_eq_zero ha ((isFinite_fneg a).trans ha) (by simp), fSign_fneg]
  simp

/-! ## Products and quotients with an infinity or a zero -/

theorem fmul_comm (a b : Word) : fmul a b = fmul b a := by
  simp only [fmul, Bool.or_comm (isNaN a), Bool.or_comm (isInf a), Bool.or_comm (isZero a), bne_comm (a := fSign a),
    Nat.mul_comm (magUnits (fMag a))]

theorem fmul_zero_inf {a b : Word} (ha : isZero a = true) (hb : isInf b = true) : fmul a b = canonNaN := by
  simp [fmul, ha, hb]

theorem fmul_inf {a b : Word} (ha : isInf a = true) (hb : isNaN b = false) (h0 : isZero b = false) :
    fmul a b = pack (fSign a != fSign b) infMag := by
  simp [fmul, ha, hb, h0, isNaN_of_isInf ha, isZero_of_isInf ha]

theorem fdiv_zero {a b : Word} (hnan : isNaN a = false) (ha : isZero a = false) (hb : isZero b = true) :
    fdiv a b = pack (fSign a != fSign b) infMag := by
  have hfin := isFinite_of_isZero hb
  simp [fdiv, hnan, ha, hb, isNaN_of_isFinite hfin, isInf_of_isFinite hfin]

theorem fdiv_zero_zero {a b : Word} (ha : isZero a = true) (hb : isZero b = true) : fdiv a b = canonNaN := by
  simp [fdiv, ha, hb, isInf_of_isFinite (isFinite_of_isZero ha), isInf_of_isFinite (isFinite_of_isZero hb)]

theorem fdiv_inf_inf {a b : Word} (ha : isInf a = true) (hb : isInf b = true) : fdiv a b = canonNaN := by
  simp [fdiv, ha, hb]

theorem fdiv_inf_finite {a b : Word} (ha : isInf a = true) (hb : isFinite b = true) :
    fdiv a b = pack (fSign a != fSign b) infMag ∧ fdiv b a = pack (fSign a != fSign b) 0 := by
  simp [fdiv, ha, bne_comm (a := fSign b), isNaN_of_isInf ha, isNaN_of_isFinite hb, isInf_of_isFinite hb]

/-! ## ffloor and SIN32: NaN operands and canonical results -/

theorem ffloor_nan {a : Word} (h : isNaN a = true) : ffloor a = canonNaN := by simp [ffloor, h]

theorem ffloor_canonical (a : Word) (h : isNaN (ffloor a) = true) : ffloor a = canonNaN := by
  revert h
  unfold ffloor
  split
  · simp
  next hnan =>
    split
    · simp [hnan]
    · dsimp only
      split
      · simp
      · rw [isNaN_pack_round]; simp

theorem sin32Of_not_finite (raw : Word → Word) {x : Word} (h : isFinite x = false) : sin32Of raw x = canonNaN := by
  rw [isFinite_eq] at h
  cases hn : isNaN x <;> simp_all [sin32Of]

theorem sin32Of_zero (raw : Word → Word) {x : Word} (h : isZero x = true) : sin32Of raw x = x := by
  have hfin := isFinite_of_isZero h
  simp [sin32Of, h, isNaN_of_isFinite hfin, isInf_of_isFinite hfin]

theorem sin32Of_nonzero (raw : Word → Word) {x : Word} (hfin : isFinite x = true) (h : isZero x = false) :
    sin32Of raw x = unitOnly (raw x) := by
  simp [sin32Of, h, isNaN_of_isFinite hfin, isInf_of_isFinite hfin]

theorem inSignedUnit_of_isZero {x : Word} (h : isZero x = true) : inSignedUnit x := by
  obtain rfl | rfl := eq_posZero_or_negZero h
  · exact ⟨by decide, by decide⟩
  · exact ⟨by decide, by decide⟩

theorem unitOnly_of_inSignedUnit {v : Word} (h : inSignedUnit v) : unitOnly v = v := by
  obtain ⟨hge, hle⟩ := h
  simp [unitOnly, hge, hle]

theorem inSignedUnit_unitOnly (v : Word) : inSignedUnit (unitOnly v) := by
  by_cases h : inSignedUnit v
  · rwa [unitOnly_of_inSignedUnit h]
  · have hzero : unitOnly v = posZero := if_neg (by simpa [inSignedUnit] using h)
    rw [hzero]
    exact inSignedUnit_of_isZero isZero_posZero

theorem inSignedUnit_sin32Of (raw : Word → Word) {x : Word} (hfin : isFinite x = true) :
    inSignedUnit (sin32Of raw x) := by
  cases h : isZero x
  · rw [sin32Of_nonzero raw hfin h]
    exact inSignedUnit_unitOnly _
  · rw [sin32Of_zero raw h]
    exact inSignedUnit_of_isZero h

theorem isNaN_of_inSignedUnit {v : Word} (h : inSignedUnit v) : isNaN v = false := (fge_iff.1 h.1).1

theorem sin32_canonical (x : Word) (h : isNaN (sin32 x) = true) : sin32 x = canonNaN := by
  cases hfin : isFinite x
  · exact sin32Of_not_finite _ hfin
  · have hnan := isNaN_of_inSignedUnit (inSignedUnit_sin32Of Config.sinRaw hfin)
    rw [sin32, hnan] at h
    cases h

/-- Settles O27: one lemma per special case. -/
theorem arithmeticSpecialCases : Obligations.ArithmeticSpecialCases := by
  refine ⟨fun x hnan h0 => ?_, fun a b => fdiv_zero_zero, fun a b => fdiv_inf_inf, fun a b ha hb => ?_,
    fun a b ha hb => ?_, fun a b ha hnan h0 => ?_, fun a b ha hb => ?_, fun a => fsub_self, fun a b h => ?_,
    fun a h => ?_, fun a b => ?_⟩
  · simp [fdiv_zero hnan h0]
  · exact ⟨fmul_zero_inf ha hb, fmul_comm b a ▸ fmul_zero_inf ha hb⟩
  · obtain ⟨hadd, hadd'⟩ := fadd_inf_finite ha hb
    obtain ⟨hsub, hsub'⟩ := fsub_inf_finite ha hb
    exact ⟨hadd, hadd', hsub, hsub', fdiv_inf_finite ha hb⟩
  · exact ⟨fmul_inf ha hnan h0, fmul_comm b a ▸ fmul_inf ha hnan h0⟩
  · rw [fadd_inf_inf ha hb, fsub_inf_inf ha hb]
    exact ⟨fun h => ⟨if_pos h, if_pos h⟩, fun h => ⟨if_neg h, if_neg h⟩⟩
  · rcases h with h | h
    · exact ⟨fadd_nan_left h, fsub_nan_left h, fmul_nan_left h, fdiv_nan_left h⟩
    · exact ⟨fadd_nan_right h, fsub_nan_right h, fmul_nan_right h, fdiv_nan_right h⟩
  · exact ⟨ffloor_nan h, sin32Of_not_finite _ (by rw [isFinite_eq, h]; rfl)⟩
  · exact ⟨fadd_canonical a b, fsub_canonical a b, fmul_canonical a b, fdiv_canonical a b, ffloor_canonical a,
      sin32_canonical a⟩

/-! ## SIN32 -/

/-- Every raw choice gives a function with the properties of R12. -/
theorem sinProperties_sin32Of (raw : Word → Word) : SinProperties (sin32Of raw) :=
  ⟨fun _ => inSignedUnit_sin32Of raw, sin32Of_zero raw isZero_posZero, sin32Of_zero raw isZero_negZero,
    fun _ => sin32Of_not_finite raw⟩

/-- A function with the properties of R12 is what it gives as a raw choice. -/
theorem sin32Of_of_sinProperties {f : Word → Word} (hf : SinProperties f) : sin32Of f = f := by
  obtain ⟨hunit, hpos, hneg, hnot⟩ := hf
  funext x
  cases hfin : isFinite x
  · rw [sin32Of_not_finite f hfin, hnot x hfin]
  cases h0 : isZero x
  · rw [sin32Of_nonzero f hfin h0, unitOnly_of_inSignedUnit (hunit x hfin)]
  · rw [sin32Of_zero f h0]
    obtain rfl | rfl := eq_posZero_or_negZero h0
    · exact hpos.symm
    · exact hneg.symm

theorem fUnits_ONE : fUnits ONE = 2 ^ 149 := by decide
theorem fUnits_NEG1 : fUnits NEG1 = -2 ^ 149 := by decide

theorem abs_fRat_le_one {v : Word} (h : inSignedUnit v) : |fRat v| ≤ 1 := by
  obtain ⟨hge, hle⟩ := h
  have hlo := (fKey_le_iff NEG1 v).1 (fge_iff.1 hge).2.2
  have hhi := (fKey_le_iff v ONE).1 (fle_iff.1 hle).2.2
  rw [fUnits_NEG1] at hlo
  rw [fUnits_ONE] at hhi
  rw [fRat, abs_le, le_div_iff₀ (by positivity), div_le_iff₀ (by positivity), neg_one_mul, one_mul]
  exact ⟨by exact_mod_cast hlo, by exact_mod_cast hhi⟩

/-- Two values in [-1, 1] are within 2 of each other. -/
theorem sinAccurate_two : SinAccurate 2 := by
  intro x hfin _
  have hmodel : |((fRat (sin32 x) : ℚ) : ℝ)| ≤ 1 := by
    exact_mod_cast abs_fRat_le_one (inSignedUnit_sin32Of Config.sinRaw hfin)
  calc _ ≤ |((fRat (sin32 x) : ℚ) : ℝ)| + |Real.sin ((fRat x : ℚ) : ℝ)| := abs_sub _ _
    _ ≤ 2 := by linarith [Real.abs_sin_le_one ((fRat x : ℚ) : ℝ)]

/-- Settles O29: a function with R12's properties is its own raw choice. -/
theorem sinChoiceMeetsProperties : Obligations.SinChoiceMeetsProperties :=
  ⟨sinProperties_sin32Of, fun f hf => ⟨f, sin32Of_of_sinProperties hf⟩, sinAccurate_two, fun _ => rfl⟩

end Sys2Proof.Machine

/-!
PROOF. Comparisons by value, fabs and ffloor (00_scope.md R11).
-/

namespace Sys2Proof.Machine

/-! ## Comparisons -/

theorem flt_of_not_isNaN {a b : Word} (ha : isNaN a = false) (hb : isNaN b = false) :
    flt a b = decide (fKey a < fKey b) := by simp [flt, ha, hb]

theorem fle_of_not_isNaN {a b : Word} (ha : isNaN a = false) (hb : isNaN b = false) :
    fle a b = decide (fKey a ≤ fKey b) := by simp [fle, ha, hb]

theorem flt_nan {a b : Word} (h : isNaN a = true ∨ isNaN b = true) : flt a b = false := by
  rcases h with h | h <;> simp [flt, h]

theorem fle_nan {a b : Word} (h : isNaN a = true ∨ isNaN b = true) : fle a b = false := by
  rcases h with h | h <;> simp [fle, h]

/-- The order of the keys is the order of the values. -/
theorem fKey_lt_iff_fRat (a b : Word) : fKey a < fKey b ↔ fRat a < fRat b := by
  rw [fKey_lt_iff, fRat, fRat, div_lt_div_iff_of_pos_right (by positivity), Int.cast_lt]

theorem flt_iff_fRat {a b : Word} (ha : isFinite a = true) (hb : isFinite b = true) :
    flt a b = true ↔ fRat a < fRat b := by
  rw [flt_of_not_isNaN (isNaN_of_isFinite ha) (isNaN_of_isFinite hb), decide_eq_true_iff, fKey_lt_iff_fRat]

theorem fle_iff_fRat {a b : Word} (ha : isFinite a = true) (hb : isFinite b = true) :
    fle a b = true ↔ fRat a ≤ fRat b := by
  rw [fle_of_not_isNaN (isNaN_of_isFinite ha) (isNaN_of_isFinite hb), decide_eq_true_iff, ← not_lt,
    fKey_lt_iff_fRat, not_lt]

theorem fKey_of_isInf {a : Word} (h : isInf a = true) : fKey a = if fSign a then -(infMag : Int) else infMag := by
  rw [fKey, isInf_iff.1 h]

/-- An infinity against a finite value: its sign decides. -/
theorem compare_inf_finite {a b : Word} (ha : isInf a = true) (hb : isFinite b = true) :
    flt a b = fSign a ∧ fle a b = fSign a ∧ flt b a = !fSign a ∧ fle b a = !fSign a := by
  have hna := isNaN_of_isInf ha
  have hnb := isNaN_of_isFinite hb
  have hkey := fKey_of_isInf ha
  have hbound := (isFinite_iff_fKey b).1 hb
  rw [flt_of_not_isNaN hna hnb, fle_of_not_isNaN hna hnb, flt_of_not_isNaN hnb hna, fle_of_not_isNaN hnb hna]
  cases hs : fSign a <;> simp [hs] at hkey ⊢ <;> omega

/-- Two infinities: -inf below +inf. -/
theorem compare_inf_inf {a b : Word} (ha : isInf a = true) (hb : isInf b = true) :
    flt a b = (fSign a && !fSign b) ∧ fle a b = (fSign a || !fSign b) := by
  have hna := isNaN_of_isInf ha
  have hnb := isNaN_of_isInf hb
  rw [flt_of_not_isNaN hna hnb, fle_of_not_isNaN hna hnb, fKey_of_isInf ha, fKey_of_isInf hb]
  cases fSign a <;> cases fSign b <;> decide

/-! ## fabs -/

theorem toNat_fabs (a : Word) : (fabs a).toNat = a.toNat % 2 ^ 31 := by
  rw [← Nat.and_two_pow_sub_one_eq_mod]
  rfl

/-! ## ffloor -/

theorem ffloor_of_isZero_or_isInf {a : Word} (h : isZero a = true ∨ isInf a = true) : ffloor a = a := by
  have hnan : isNaN a = false := by
    rcases h with h | h
    · exact isNaN_of_isFinite (isFinite_of_isZero h)
    · exact isNaN_of_isInf h
  rcases h with h | h <;> simp [ffloor, hnan, h]

/-- A whole number of 2^23 or less is the value of a finite pattern. -/
theorem exists_magUnits_eq {k : Nat} (h0 : k ≠ 0) (hk : k ≤ 2 ^ 23) : ∃ m < infMag, magUnits m = k * 2 ^ 149 := by
  have hlow := Nat.log2_self_le h0
  have hhigh := Nat.lt_log2_self (n := k)
  obtain ⟨l, hl⟩ : ∃ l, l = Nat.log2 k := ⟨_, rfl⟩
  rw [← hl] at hlow hhigh
  have hl23 : l ≤ 23 := (Nat.pow_le_pow_iff_right (by norm_num)).1 (hlow.trans hk)
  have hlo : 2 ^ 23 ≤ k * 2 ^ (23 - l) := by
    calc 2 ^ 23 = 2 ^ l * 2 ^ (23 - l) := by rw [← pow_add, Nat.add_sub_cancel' hl23]
      _ ≤ k * 2 ^ (23 - l) := Nat.mul_le_mul_right _ hlow
  have hhi : k * 2 ^ (23 - l) ≤ 2 ^ 24 := by
    calc k * 2 ^ (23 - l) ≤ 2 ^ (l + 1) * 2 ^ (23 - l) := Nat.mul_le_mul_right _ hhigh.le
      _ = 2 ^ 24 := by rw [← pow_add]; congr 1; omega
  refine ⟨(l + 126) * 2 ^ 23 + k * 2 ^ (23 - l), ?_, ?_⟩
  · rw [infMag_eq]
    omega
  · rw [magUnits_binade _ _ (fun _ => hlo) hhi, mul_assoc, ← pow_add]
    congr 2
    omega

/-- The size of the floor of a finite value is that of a finite pattern: beyond 2^23 every value is whole. -/
theorem exists_magUnits_eq_floor {a : Word} (ha : isFinite a = true) :
    ∃ m < infMag, magUnits m = (fUnits a / 2 ^ 149).natAbs * 2 ^ 149 := by
  rcases Nat.lt_or_ge (fMag a) (150 * 2 ^ 23) with hsmall | hlarge
  · have hbound : magUnits (fMag a) < 2 ^ 23 * 2 ^ 149 := by
      have hlim : magUnits (150 * 2 ^ 23) = 2 ^ 23 * 2 ^ 149 := by decide
      rw [← hlim]
      exact magUnits_lt_iff.2 hsmall
    have hunits := natAbs_fUnits a
    by_cases h0 : (fUnits a / 2 ^ 149).natAbs = 0
    · exact ⟨0, by decide, by rw [h0]; simp⟩
    · exact exists_magUnits_eq h0 (by omega)
  · refine ⟨fMag a, isFinite_iff.1 ha, ?_⟩
    have hdiv := Int.ediv_mul_cancel (fUnits_dvd_of_large hlarge)
    rw [← natAbs_fUnits]
    conv_lhs => rw [← hdiv]
    rw [Int.natAbs_mul]
    rfl

theorem ffloor_of_nonzero {a : Word} (ha : isFinite a = true) (h0 : isZero a = false) :
    ffloor a = if fUnits a / 2 ^ 149 = 0 then posZero
      else pack (decide (fUnits a / 2 ^ 149 < 0)) (roundMag ((fUnits a / 2 ^ 149).natAbs * 2 ^ 149) 1) := by
  simp only [ffloor, isNaN_of_isFinite ha, isInf_of_isFinite ha, h0, Bool.or_self, Bool.false_eq_true, if_false]

theorem fUnits_pack (s : Bool) {m : Nat} (hm : m < 2 ^ 31) :
    fUnits (pack s m) = (if s then -1 else 1) * (magUnits m : Int) := by
  rw [fUnits_eq, fSign_pack hm, fMag_pack hm]

/-- The floor of a finite value is finite and exact, in units. -/
theorem ffloor_finite {a : Word} (ha : isFinite a = true) :
    isFinite (ffloor a) = true ∧ fUnits (ffloor a) = fUnits a / 2 ^ 149 * 2 ^ 149 := by
  cases h0 : isZero a
  · obtain ⟨m, hm, hsize⟩ := exists_magUnits_eq_floor ha
    rw [ffloor_of_nonzero ha h0]
    generalize fUnits a / 2 ^ 149 = k at *
    split
    next hk => simp [hk]
    next hk =>
      have hround := roundMag_exact one_pos hm
      rw [mul_one, hsize] at hround
      have hlt := hm.trans infMag_lt
      rw [hround, isFinite_iff, fMag_pack hlt, fUnits_pack _ hlt, hsize]
      refine ⟨hm, ?_⟩
      push_cast
      rw [← mul_assoc, ← Int.natCast_natAbs, sign_natAbs]
  · have hunits : fUnits a = 0 := by simp [fUnits, isZero_iff.1 h0]
    rw [ffloor_of_isZero_or_isInf (.inl h0), hunits]
    exact ⟨ha, rfl⟩

theorem fRat_ffloor {a : Word} (ha : isFinite a = true) : fRat (ffloor a) = (⌊fRat a⌋ : ℚ) := by
  have hfloor : ⌊fRat a⌋ = fUnits a / 2 ^ 149 := by
    have h := Rat.floor_intCast_div_natCast (fUnits a) (2 ^ 149)
    push_cast at h
    exact h
  rw [hfloor, fRat, (ffloor_finite ha).2, Int.cast_mul, Int.cast_pow, Int.cast_ofNat]
  exact mul_div_cancel_right₀ _ (by positivity)

theorem ffloor_of_lt_one {a : Word} (ha : isFinite a = true) (h0 : 0 < fRat a) (h1 : fRat a < 1) :
    ffloor a = posZero := by
  rw [fRat] at h0 h1
  have hpos : 0 < fUnits a := by
    rw [lt_div_iff₀ (by positivity), zero_mul] at h0
    exact_mod_cast h0
  have hlt : fUnits a < 2 ^ 149 := by
    rw [div_lt_one (by positivity)] at h1
    exact_mod_cast h1
  have hzero : isZero a = false := by
    rw [← Bool.not_eq_true, isZero_iff]
    intro h
    simp [fUnits, h] at hpos
  rw [ffloor_of_nonzero ha hzero, if_pos (Int.ediv_eq_zero_of_lt hpos.le hlt)]

/-- Settles O28: comparisons are the order of the keys, which is that of the values; the floor of a finite value is
representable. -/
theorem comparisonsAndFloor : Obligations.ComparisonsAndFloor := by
  refine ⟨fun a b h => ?_, fun a b ha hb => ?_, fun a b ha hb => ?_, fun a b ha hb => ?_, toNat_fabs,
    fun a ha => ⟨(ffloor_finite ha).1, fRat_ffloor ha⟩, fun a => ffloor_of_isZero_or_isInf,
    fun a => ffloor_of_lt_one⟩
  · exact ⟨flt_nan h, fle_nan h, flt_nan h.symm, fle_nan h.symm⟩
  · exact ⟨flt_iff_fRat ha hb, fle_iff_fRat ha hb, flt_iff_fRat hb ha, fle_iff_fRat hb ha⟩
  · obtain ⟨hlt, hle, hgt, hge⟩ := compare_inf_finite ha hb
    exact ⟨hlt, hle, hgt, hge, hgt, hge, hlt, hle⟩
  · obtain ⟨hlt, hle⟩ := compare_inf_inf ha hb
    obtain ⟨hgt, hge⟩ := compare_inf_inf hb ha
    refine ⟨hlt, hle, ?_, ?_⟩
    · rw [fgt, hgt, Bool.and_comm]
    · rw [fge, hge, Bool.or_comm]

end Sys2Proof.Machine

/-!
PROOF. What one command leaves, said once per command: `nextState`, the state `exec` always answers, with an equation
per command. Statements over all commands split on the command and cite these equations.
-/

namespace Sys2Proof.Machine

/-! ## The operand checks, by result -/

theorem regIndex_of_writeOperand {idx : RegIndex} {v : Word} {r : Reg} (h : writeOperand idx v = .ok r) :
    regIndex r = idx := by
  rcases writeOperand_cases idx v with ⟨_, e⟩ | ⟨_, _, _, e⟩ | ⟨_, _, _, e⟩ | ⟨r', hr, _, _, _, e⟩
  · simp [e] at h
  · simp [e] at h
  · simp [e] at h
  · obtain rfl : r' = r := by simpa [e] using h
    exact hr

theorem regIndex_of_readOperand {idx : RegIndex} {r : Reg} (h : readOperand idx = .ok r) : regIndex r = idx := by
  rcases readOperand_cases idx with ⟨_, e⟩ | ⟨r', hr, e⟩
  · simp [e] at h
  · obtain rfl : r' = r := by simpa [e] using h
    exact hr

theorem wellFormed_writeReg_of_error {idx : RegIndex} {v : Word} {c : RejectCode}
    (h : writeOperand idx v = .error c) : wellFormed (.writeReg idx v) = false := by
  simp [wellFormed, operandCheck, h]

theorem wellFormed_readReg_of_error {idx : RegIndex} {c : RejectCode} (h : readOperand idx = .error c) :
    wellFormed (.readReg idx) = false := by
  simp [wellFormed, operandCheck, h]

/-! ## The state after a command -/

/-- The state `exec` answers; s itself where it answered none, which `exec_eq_nextState` excludes. -/
def nextState (i : Instr) (s : State) : State :=
  match exec i s with
  | .next t => t
  | .fault _ => s
  | .refused _ => s

/-- Every command answers a next state (60_exceptions.md R144, R146). -/
theorem exec_eq_nextState (i : Instr) (s : State) : exec i s = .next (nextState i s) := by cases i <;> rfl

theorem nextState_writeReg_of_error {idx : RegIndex} {v : Word} {c : RejectCode} (h : writeOperand idx v = .error c)
    (s : State) : nextState (.writeReg idx v) s = reject c s := by
  simp [nextState, exec, execWriteReg, h]

theorem nextState_writeReg_of_ok {idx : RegIndex} {v : Word} {r : Reg} (h : writeOperand idx v = .ok r)
    (s : State) : nextState (.writeReg idx v) s = complete s (writeRegister r v s.regs) 0 := by
  simp [nextState, exec, execWriteReg, h]

theorem nextState_readReg_of_error {idx : RegIndex} {c : RejectCode} (h : readOperand idx = .error c) (s : State) :
    nextState (.readReg idx) s = reject c s := by
  simp [nextState, exec, execReadReg, h]

theorem nextState_readReg_of_ok {idx : RegIndex} {r : Reg} (h : readOperand idx = .ok r) (s : State) :
    nextState (.readReg idx) s = complete s s.regs (readRegister r s.regs) := by
  simp [nextState, exec, execReadReg, h]

@[simp] theorem nextState_nop (s : State) : nextState .nop s = complete s s.regs 0 := rfl
@[simp] theorem nextState_noteOn (s : State) :
    nextState .noteOn s = complete s { s.regs with envState := .attack } 0 := rfl
@[simp] theorem nextState_noteOff (s : State) :
    nextState .noteOff s = complete s { s.regs with envState := .release } 0 := rfl
@[simp] theorem nextState_lfoReset (s : State) :
    nextState .lfoReset s = complete s { s.regs with lfoPhase := posZero } 0 := rfl
@[simp] theorem nextState_tick (s : State) :
    nextState .tick s = complete s (tickStep s.regs).2 (tickStep s.regs).1 := rfl
@[simp] theorem nextState_envStep (s : State) :
    nextState .envStep s = complete s (envStep s.regs.dt s.regs).2 (envStep s.regs.dt s.regs).1 := rfl
@[simp] theorem nextState_oscStep (f : Word) (s : State) :
    nextState (.oscStep f) s = complete s (oscStep f s.regs).2 (oscStep f s.regs).1 := rfl
@[simp] theorem nextState_filtStep (x : Word) (s : State) :
    nextState (.filtStep x) s = complete s (filterStep x s.regs).2 (filterStep x s.regs).1 := rfl
@[simp] theorem nextState_waveEval (k : WaveKind) (p : Word) (s : State) :
    nextState (.waveEval k p) s = complete s s.regs (wave k p) := rfl
@[simp] theorem nextState_reset (s : State) : nextState .reset s = complete s Regs.reset 0 := rfl

@[simp] theorem nextState_lfoStep (s : State) :
    nextState .lfoStep s =
      complete s { s.regs with lfoPhase := lfoNextPhase s.regs.dt s.regs } (lfoValue s.regs.dt s.regs) := by
  change complete s (lfoStep s.regs.dt s.regs).2 (lfoStep s.regs.dt s.regs).1 = _
  rw [lfoStep_eq]

end Sys2Proof.Machine

/-!
PROOF. FILT_RESONANCE and the observation registers affect nothing else (10_state.md R32, 46_pipeline.md R136): erasing
them before a command or only after it leaves the same state.
-/

namespace Sys2Proof.Machine

theorem readRegister_eraseUnread {r : Reg} (h : r ∉ unreadRegs) (g : Regs) :
    readRegister r (eraseUnread g) = readRegister r g := by
  cases r <;> simp_all [unreadRegs, eraseUnread, readRegister]

theorem eraseUnread_writeRegister_eraseUnread (r : Reg) (v : Word) (g : Regs) :
    eraseUnread (writeRegister r v (eraseUnread g)) = eraseUnread (writeRegister r v g) := by
  cases r <;> rfl

theorem tickStep_eraseUnread (g : Regs) :
    (tickStep (eraseUnread g)).1 = (tickStep g).1 ∧
      eraseUnread (tickStep (eraseUnread g)).2 = eraseUnread (tickStep g).2 := by
  rw [tickStep_eq, tickStep_eq]
  exact ⟨rfl, rfl⟩

/-- s without the registers no command's computation reads. -/
def eraseUnreadState (s : State) : State := { s with regs := eraseUnread s.regs }

theorem eraseUnreadState_eq_iff {s t : State} :
    eraseUnreadState s = eraseUnreadState t ↔ eraseUnread s.regs = eraseUnread t.regs ∧ s.port = t.port := by
  simp [eraseUnreadState]

theorem eraseUnreadState_complete (s : State) {g g' : Regs} {w w' : Word} (hw : w = w')
    (hg : eraseUnread g = eraseUnread g') :
    eraseUnreadState (complete (eraseUnreadState s) g w) = eraseUnreadState (complete s g' w') :=
  eraseUnreadState_eq_iff.2 ⟨hg, by rw [hw]; rfl⟩

/-- Erasing before the command changes no more than erasing after it. -/
theorem eraseUnreadState_nextState {i : Instr} (hread : ∀ r ∈ unreadRegs, i ≠ .readReg (regIndex r)) (s : State) :
    eraseUnreadState (nextState i (eraseUnreadState s)) = eraseUnreadState (nextState i s) := by
  cases i with
  | writeReg idx v =>
    cases h : writeOperand idx v with
    | error c =>
      rw [nextState_writeReg_of_error h, nextState_writeReg_of_error h]
      rfl
    | ok r =>
      rw [nextState_writeReg_of_ok h, nextState_writeReg_of_ok h]
      exact eraseUnreadState_complete s rfl (eraseUnread_writeRegister_eraseUnread r v s.regs)
  | readReg idx =>
    cases h : readOperand idx with
    | error c =>
      rw [nextState_readReg_of_error h, nextState_readReg_of_error h]
      rfl
    | ok r =>
      have hr : r ∉ unreadRegs := fun hmem => hread r hmem (by rw [regIndex_of_readOperand h])
      rw [nextState_readReg_of_ok h, nextState_readReg_of_ok h]
      exact eraseUnreadState_complete s (readRegister_eraseUnread hr s.regs) rfl
  | tick =>
    obtain ⟨hanswer, hregs⟩ := tickStep_eraseUnread s.regs
    exact eraseUnreadState_complete s hanswer hregs
  | lfoStep =>
    rw [nextState_lfoStep, nextState_lfoStep]
    rfl
  | nop | noteOn | noteOff | lfoReset | envStep | oscStep f | filtStep x | waveEval k p | reset => rfl

/-- Settles O58: both next states erase to the next state of the erased state. -/
theorem unreadRegistersDoNotInterfere : Obligations.UnreadRegistersDoNotInterfere := by
  intro i s t hread hregs hport
  have herased : eraseUnreadState (nextState i s) = eraseUnreadState (nextState i t) := by
    rw [← eraseUnreadState_nextState hread s, ← eraseUnreadState_nextState hread t,
      eraseUnreadState_eq_iff.2 ⟨hregs, hport⟩]
  exact ⟨_, _, exec_eq_nextState i s, exec_eq_nextState i t, eraseUnreadState_eq_iff.1 herased⟩

end Sys2Proof.Machine

/-!
PROOF. The register map's refusals and STATUS's write (10_state.md R21, R51), the reset state (R20), and which command
writes which register (R39 to R51).
-/

namespace Sys2Proof.Machine

/-! ## Unmapped indices (R21) -/

theorem unmappedIndex_regIndex (r : Reg) : unmappedIndex (regIndex r).toNat = false := by cases r <;> rfl

theorem regOfIndex_of_unmappedIndex {a : Nat} (ha : a < 256) (hun : unmappedIndex a = true) :
    regOfIndex (BitVec.ofNat 8 a) = none := by
  by_contra hsome
  obtain ⟨r, hr⟩ := Option.ne_none_iff_exists'.1 hsome
  have hidx : (regIndex r).toNat = a := by
    rw [regOfIndex_eq_some.1 hr, BitVec.toNat_ofNat, Nat.mod_eq_of_lt ha]
  rw [← hidx, unmappedIndex_regIndex] at hun
  cases hun

theorem readOperand_of_unmapped {idx : RegIndex} (h : regOfIndex idx = none) : readOperand idx = .error .badReg := by
  simp [readOperand, h]

theorem writeOperand_of_unmapped {idx : RegIndex} (v : Word) (h : regOfIndex idx = none) :
    writeOperand idx v = .error .badReg := by
  simp [writeOperand, h]

/-- Settles O16: the operand checks find no register at an unmapped index. -/
theorem unmappedIndexIsRefused : Obligations.UnmappedIndexIsRefused := by
  intro a v s ha hun
  have hnone := regOfIndex_of_unmappedIndex ha hun
  rw [exec_eq_nextState, exec_eq_nextState, nextState_readReg_of_error (readOperand_of_unmapped hnone),
    nextState_writeReg_of_error (writeOperand_of_unmapped v hnone)]
  exact ⟨rfl, rfl⟩

/-! ## The write of STATUS (R51) -/

/-- Settles O20: index 0x30 is STATUS, and no value is refused there. -/
theorem writeStatusClearsStickyBits : Obligations.WriteStatusClearsStickyBits := by
  intro v s
  have hok : writeOperand 0x30 v = .ok .status := rfl
  rw [exec_eq_nextState, nextState_writeReg_of_ok hok]
  rfl

/-! ## The reset state (R20) -/

theorem canonical_of_not_isNaN {a : Word} (h : isNaN a = false) : canonical a := by simp [canonical, h]

/-- Settles O13: no error, no response, and +0 in every register that holds a result. -/
theorem resetMeetsMachineInvariant : Obligations.ResetMeetsMachineInvariant := by
  have hzero : canonical posZero := canonical_of_not_isNaN isNaN_posZero
  have hstatus : statusLegal State.reset.regs.status := ⟨by decide, by decide⟩
  have hresponses : ∀ r ∈ State.reset.port.responses, responseLegal r := fun _ h => absurd h List.not_mem_nil
  exact ⟨hstatus, hresponses, hzero, hzero, hzero, hzero, hzero⟩

/-! ## The read-only registers and the parameters -/

/-- The register file with only the registers that WRITE_REG cannot write kept (10_state.md R17, R20). -/
def readOnlyPart (g : Regs) : Regs :=
  { Regs.reset with
    envState := g.envState
    envValue := g.envValue
    oscPhase := g.oscPhase
    lfoPhase := g.lfoPhase
    filtPrev := g.filtPrev
    outSample := g.outSample
    lastEnv := g.lastEnv
    lastLfo := g.lastLfo
    lastModFreq := g.lastModFreq
    lastModAmp := g.lastModAmp
    lastModCutoff := g.lastModCutoff
    tickCount := g.tickCount }

theorem readOnlyPart_writeRegister (r : Reg) (v : Word) (g : Regs) :
    readOnlyPart (writeRegister r v g) = readOnlyPart g := by
  cases r <;> rfl

theorem readOnlyPart_writeReg (idx : RegIndex) (v : Word) (s : State) :
    readOnlyPart (nextState (.writeReg idx v) s).regs = readOnlyPart s.regs := by
  cases h : writeOperand idx v with
  | error c => rw [nextState_writeReg_of_error h]; rfl
  | ok r => rw [nextState_writeReg_of_ok h]; exact readOnlyPart_writeRegister r v s.regs

/-- READ_REG changes STATUS at most, by its rejection. -/
theorem regs_readReg (idx : RegIndex) (s : State) :
    ∃ st : StatusReg, st.nonfinite = s.regs.status.nonfinite ∧
      (nextState (.readReg idx) s).regs = { s.regs with status := st } := by
  cases h : readOperand idx with
  | error c => rw [nextState_readReg_of_error h]; exact ⟨statusRejected s.regs.status c, rfl, rfl⟩
  | ok r => rw [nextState_readReg_of_ok h]; exact ⟨s.regs.status, rfl, rfl⟩

/-- The register file with only the parameters kept that TICK does not write: all but FILT_CUTOFF. -/
def parameterPart (g : Regs) : Regs :=
  { Regs.reset with
    waveType := g.waveType
    baseFreq := g.baseFreq
    amplitude := g.amplitude
    envAttack := g.envAttack
    envDecay := g.envDecay
    envSustain := g.envSustain
    envRelease := g.envRelease
    baseCutoff := g.baseCutoff
    filtResonance := g.filtResonance
    lfoRate := g.lfoRate
    lfoDepth := g.lfoDepth
    lfoWave := g.lfoWave
    lfoTarget := g.lfoTarget
    lfoEnable := g.lfoEnable
    dt := g.dt }

theorem readRegister_parameterPart {r : Reg} (hkind : writeKind r ≠ .readOnly) (hstatus : r ≠ .status)
    (hcut : r ≠ .filtCutoff) (g : Regs) : readRegister r (parameterPart g) = readRegister r g := by
  cases r <;> simp_all [writeKind, parameterPart, readRegister]

/-! ## Who writes a read-only register (R39 to R50) -/

theorem readOnlyPart_readReg (idx : RegIndex) (s : State) :
    readOnlyPart (nextState (.readReg idx) s).regs = readOnlyPart s.regs := by
  obtain ⟨st, _, hregs⟩ := regs_readReg idx s
  rw [hregs]
  rfl

/-- What a command other than RESET and TICK can do to the read-only registers: change those of its own unit. -/
theorem readOnlyPart_nextState_cases {i : Instr} (s : State) (hreset : i ≠ .reset) (htick : i ≠ .tick) :
    readOnlyPart (nextState i s).regs = readOnlyPart s.regs ∨
    ((i = .noteOn ∨ i = .noteOff) ∧
      ∃ st, readOnlyPart (nextState i s).regs = { readOnlyPart s.regs with envState := st }) ∨
    (i = .envStep ∧
      ∃ st w, readOnlyPart (nextState i s).regs = { readOnlyPart s.regs with envState := st, envValue := w }) ∨
    ((i = .lfoStep ∨ i = .lfoReset) ∧
      ∃ w, readOnlyPart (nextState i s).regs = { readOnlyPart s.regs with lfoPhase := w }) ∨
    ((∃ f, i = .oscStep f) ∧
      ∃ w, readOnlyPart (nextState i s).regs = { readOnlyPart s.regs with oscPhase := w }) ∨
    ((∃ x, i = .filtStep x) ∧
      ∃ w, readOnlyPart (nextState i s).regs = { readOnlyPart s.regs with filtPrev := w }) := by
  cases i with
  | reset => exact absurd rfl hreset
  | tick => exact absurd rfl htick
  | nop => exact .inl rfl
  | waveEval k p => exact .inl rfl
  | writeReg idx v => exact .inl (readOnlyPart_writeReg idx v s)
  | readReg idx => exact .inl (readOnlyPart_readReg idx s)
  | noteOn => exact .inr (.inl ⟨.inl rfl, _, rfl⟩)
  | noteOff => exact .inr (.inl ⟨.inr rfl, _, rfl⟩)
  | envStep => exact .inr (.inr (.inl ⟨rfl, _, _, rfl⟩))
  | lfoStep => exact .inr (.inr (.inr (.inl ⟨.inl rfl, _, by rw [nextState_lfoStep]; rfl⟩)))
  | lfoReset => exact .inr (.inr (.inr (.inl ⟨.inr rfl, _, rfl⟩)))
  | oscStep f => exact .inr (.inr (.inr (.inr (.inl ⟨⟨f, rfl⟩, _, rfl⟩))))
  | filtStep x => exact .inr (.inr (.inr (.inr (.inr ⟨⟨x, rfl⟩, _, rfl⟩))))

theorem nextState_oscPhase {i : Instr} (s : State) (hreset : i ≠ .reset) (htick : i ≠ .tick)
    (hosc : ∀ f, i ≠ .oscStep f) : (nextState i s).regs.oscPhase = s.regs.oscPhase := by
  obtain h | ⟨_, _, h⟩ | ⟨_, _, _, h⟩ | ⟨_, _, h⟩ | ⟨⟨f, hi⟩, _⟩ | ⟨_, _, h⟩ :=
    readOnlyPart_nextState_cases s hreset htick
  case inr.inr.inr.inr.inl => exact absurd hi (hosc f)
  all_goals exact (congrArg Regs.oscPhase h :)

theorem nextState_lfoPhase {i : Instr} (s : State) (hreset : i ≠ .reset) (htick : i ≠ .tick) (hlfo : i ≠ .lfoStep)
    (hlfoReset : i ≠ .lfoReset) : (nextState i s).regs.lfoPhase = s.regs.lfoPhase := by
  obtain h | ⟨_, _, h⟩ | ⟨_, _, _, h⟩ | ⟨hi, _⟩ | ⟨_, _, h⟩ | ⟨_, _, h⟩ :=
    readOnlyPart_nextState_cases s hreset htick
  case inr.inr.inr.inl => exact absurd hi (not_or.2 ⟨hlfo, hlfoReset⟩)
  all_goals exact (congrArg Regs.lfoPhase h :)

theorem nextState_filtPrev {i : Instr} (s : State) (hreset : i ≠ .reset) (htick : i ≠ .tick)
    (hfilt : ∀ x, i ≠ .filtStep x) : (nextState i s).regs.filtPrev = s.regs.filtPrev := by
  obtain h | ⟨_, _, h⟩ | ⟨_, _, _, h⟩ | ⟨_, _, h⟩ | ⟨_, _, h⟩ | ⟨⟨x, hi⟩, _⟩ :=
    readOnlyPart_nextState_cases s hreset htick
  case inr.inr.inr.inr.inr => exact absurd hi (hfilt x)
  all_goals exact (congrArg Regs.filtPrev h :)

theorem nextState_envValue {i : Instr} (s : State) (hreset : i ≠ .reset) (htick : i ≠ .tick) (henv : i ≠ .envStep) :
    (nextState i s).regs.envValue = s.regs.envValue := by
  obtain h | ⟨_, _, h⟩ | ⟨hi, _⟩ | ⟨_, _, h⟩ | ⟨_, _, h⟩ | ⟨_, _, h⟩ :=
    readOnlyPart_nextState_cases s hreset htick
  case inr.inr.inl => exact absurd hi henv
  all_goals exact (congrArg Regs.envValue h :)

theorem nextState_envState {i : Instr} (s : State) (hreset : i ≠ .reset) (htick : i ≠ .tick) (henv : i ≠ .envStep)
    (hon : i ≠ .noteOn) (hoff : i ≠ .noteOff) : (nextState i s).regs.envState = s.regs.envState := by
  obtain h | ⟨hi, _⟩ | ⟨hi, _⟩ | ⟨_, _, h⟩ | ⟨_, _, h⟩ | ⟨_, _, h⟩ :=
    readOnlyPart_nextState_cases s hreset htick
  case inr.inl => exact absurd hi (not_or.2 ⟨hon, hoff⟩)
  case inr.inr.inl => exact absurd hi henv
  all_goals exact (congrArg Regs.envState h :)

/-- OUT_SAMPLE, the LAST registers and TICK_COUNT, which TICK writes (46_pipeline.md R136). -/
def observations (g : Regs) : List Word :=
  [g.outSample, g.lastEnv, g.lastLfo, g.lastModFreq, g.lastModAmp, g.lastModCutoff, g.tickCount]

theorem nextState_observations {i : Instr} (s : State) (hreset : i ≠ .reset) (htick : i ≠ .tick) :
    observations (nextState i s).regs = observations s.regs := by
  obtain h | ⟨_, _, h⟩ | ⟨_, _, _, h⟩ | ⟨_, _, h⟩ | ⟨_, _, h⟩ | ⟨_, _, h⟩ :=
    readOnlyPart_nextState_cases s hreset htick
  all_goals exact (congrArg observations h :)

theorem nextState_tickCount {i : Instr} (s : State) (hreset : i ≠ .reset) (htick : i ≠ .tick) :
    (nextState i s).regs.tickCount = s.regs.tickCount := by
  have h := nextState_observations s hreset htick
  simp_all [observations]

theorem tickCount_tickStep (g : Regs) : (tickStep g).2.tickCount = g.tickCount + 1 := by rw [tickStep_eq]

/-- Settles O53: TICK adds one to the register, a word; RESET gives it its reset value. -/
theorem tickCountCountsTicks : Obligations.TickCountCountsTicks := by
  refine fun i s => ⟨nextState i s, exec_eq_nextState i s, ?_, ?_, fun htick hreset => ?_⟩
  · rintro rfl
    rw [nextState_tick, complete_regs, tickCount_tickStep, BitVec.toNat_add]
    rfl
  · rintro rfl
    rfl
  · exact nextState_tickCount s hreset htick

/-! ## Who writes a parameter -/

theorem nextState_filtCutoff {i : Instr} (s : State) (hreset : i ≠ .reset) (htick : i ≠ .tick)
    (hwrite : ∀ a v, i ≠ .writeReg a v) : (nextState i s).regs.filtCutoff = s.regs.filtCutoff := by
  cases i with
  | reset => exact absurd rfl hreset
  | tick => exact absurd rfl htick
  | writeReg idx v => exact absurd rfl (hwrite idx v)
  | readReg idx =>
    obtain ⟨st, _, hregs⟩ := regs_readReg idx s
    rw [hregs]
  | lfoStep => rw [nextState_lfoStep, complete_regs]
  | _ => rfl

theorem parameterPart_nextState {i : Instr} (s : State) (hreset : i ≠ .reset) (hwrite : ∀ a v, i ≠ .writeReg a v) :
    parameterPart (nextState i s).regs = parameterPart s.regs := by
  cases i with
  | reset => exact absurd rfl hreset
  | writeReg idx v => exact absurd rfl (hwrite idx v)
  | readReg idx =>
    obtain ⟨st, _, hregs⟩ := regs_readReg idx s
    rw [hregs]
    rfl
  | tick => rw [nextState_tick, tickStep_eq]; rfl
  | lfoStep => rw [nextState_lfoStep]; rfl
  | _ => rfl

/-! ## Who writes STATUS (R51, 46_pipeline.md R137, 60_exceptions.md R140) -/

theorem writeRegister_status {r : Reg} (h : r ≠ .status) (v : Word) (g : Regs) :
    (writeRegister r v g).status = g.status := by
  cases r with
  | status => exact absurd rfl h
  | _ => rfl

theorem writeRegister_lastErr (r : Reg) (v : Word) (g : Regs) :
    (writeRegister r v g).status.lastErr = g.status.lastErr := by
  by_cases h : r = .status
  · rw [h]; rfl
  · rw [writeRegister_status h]

/-- A well-formed WRITE_REG stores its value in the register at its index. -/
theorem nextState_writeReg_of_wellFormed {idx : RegIndex} {v : Word} (hwf : wellFormed (.writeReg idx v) = true)
    (s : State) :
    ∃ r, regIndex r = idx ∧ nextState (.writeReg idx v) s = complete s (writeRegister r v s.regs) 0 := by
  cases h : writeOperand idx v with
  | error c => simp [wellFormed_writeReg_of_error h] at hwf
  | ok r => exact ⟨r, regIndex_of_writeOperand h, nextState_writeReg_of_ok h s⟩

theorem regs_readReg_of_wellFormed {idx : RegIndex} (hwf : wellFormed (.readReg idx) = true) (s : State) :
    (nextState (.readReg idx) s).regs = s.regs := by
  cases h : readOperand idx with
  | error c => simp [wellFormed_readReg_of_error h] at hwf
  | ok r => rw [nextState_readReg_of_ok h, complete_regs]

theorem ne_status_of_regIndex {r : Reg} {idx : RegIndex} {v : Word} (hr : regIndex r = idx)
    (hclear : ∀ w, Instr.writeReg idx v ≠ .writeReg 0x30 w) : r ≠ .status := by
  rintro rfl
  exact hclear v (by rw [← hr]; rfl)

/-- TICK sets NONFINITE at most. -/
theorem status_tickStep (g : Regs) : (tickStep g).2.status = statusTicked g.status (tickOut g) := by rw [tickStep_eq]

theorem nextState_lastErr {i : Instr} (s : State) (hreset : i ≠ .reset) (hwf : wellFormed i = true) :
    (nextState i s).regs.status.lastErr = s.regs.status.lastErr := by
  cases i with
  | reset => exact absurd rfl hreset
  | writeReg idx v =>
    obtain ⟨r, _, hnext⟩ := nextState_writeReg_of_wellFormed hwf s
    rw [hnext, complete_regs, writeRegister_lastErr]
  | readReg idx => rw [regs_readReg_of_wellFormed hwf]
  | tick => rw [nextState_tick, complete_regs, status_tickStep, statusTicked_lastErr]
  | lfoStep => rw [nextState_lfoStep, complete_regs]
  | _ => rfl

theorem nextState_err {i : Instr} (s : State) (hreset : i ≠ .reset) (hwf : wellFormed i = true)
    (hclear : ∀ v, i ≠ .writeReg 0x30 v) : (nextState i s).regs.status.err = s.regs.status.err := by
  cases i with
  | reset => exact absurd rfl hreset
  | writeReg idx v =>
    obtain ⟨r, hr, hnext⟩ := nextState_writeReg_of_wellFormed hwf s
    rw [hnext, complete_regs, writeRegister_status (ne_status_of_regIndex hr hclear)]
  | readReg idx => rw [regs_readReg_of_wellFormed hwf]
  | tick => rw [nextState_tick, complete_regs, status_tickStep, statusTicked_err]
  | lfoStep => rw [nextState_lfoStep, complete_regs]
  | _ => rfl

theorem nextState_nonfinite {i : Instr} (s : State) (hreset : i ≠ .reset) (htick : i ≠ .tick)
    (hclear : ∀ v, i ≠ .writeReg 0x30 v) :
    (nextState i s).regs.status.nonfinite = s.regs.status.nonfinite := by
  cases i with
  | reset => exact absurd rfl hreset
  | tick => exact absurd rfl htick
  | writeReg idx v =>
    cases h : writeOperand idx v with
    | error c => rw [nextState_writeReg_of_error h, reject_regs, statusRejected_nonfinite]
    | ok r =>
      have hr := ne_status_of_regIndex (regIndex_of_writeOperand h) hclear
      rw [nextState_writeReg_of_ok h, complete_regs, writeRegister_status hr]
  | readReg idx =>
    obtain ⟨st, hst, hregs⟩ := regs_readReg idx s
    rw [hregs, hst]
  | lfoStep => rw [nextState_lfoStep, complete_regs]
  | _ => rfl

/-- Settles O56: one lemma per register or field. -/
theorem stateChangesOnlyByOwner : Obligations.StateChangesOnlyByOwner := by
  refine fun i s hreset => ⟨nextState i s, exec_eq_nextState i s, nextState_oscPhase s hreset,
    nextState_lfoPhase s hreset, nextState_filtPrev s hreset, nextState_envValue s hreset,
    nextState_envState s hreset, fun htick => ?_, nextState_filtCutoff s hreset,
    fun hwrite r hkind hstatus hcut => ?_, nextState_lastErr s hreset, nextState_err s hreset,
    nextState_nonfinite s hreset⟩
  · simpa [observations] using nextState_observations s hreset htick
  · rw [← readRegister_parameterPart hkind hstatus hcut, parameterPart_nextState s hreset hwrite,
      readRegister_parameterPart hkind hstatus hcut]

end Sys2Proof.Machine

/-!
PROOF. The command port (20_memory.md R62 to R66): a step by the command in execution, one answer per command, and a READ_REG
after a WRITE_REG.
-/

namespace Sys2Proof

/-- The fields the encoder writes pass the decoder's checks and give the command back (30_encoding.md R77, R80). -/
theorem decode_encode (i : Instr) : decode (encode i) = .command i := by
  rw [encode, decode_append]
  cases i with
  | waveEval kind phase =>
    obtain ⟨hhigh, hkind⟩ := waveKind_arg kind
    simp [opcode, argOf, dataOf, instrOfFields, hhigh, hkind]
  | _ => simp [opcode, argOf, dataOf, instrOfFields]

end Sys2Proof

namespace Sys2Proof.Machine

/-! ## A step by the command in execution (R64) -/

theorem step_of_current {s : State} {c : Command} (hreset : s.port.resetInput = false)
    (hcurrent : s.port.current = some c) : step s = runCommand c s := by
  simp [step, serve, hreset, hcurrent]

theorem step_of_idle {s : State} (hreset : s.port.resetInput = false) (hidle : s.port.current = none) :
    step s = .next { s with port := accept s.port } := by
  simp [step, serve, hreset, hidle]

theorem runCommand_of_command {c : Command} {i : Instr} (h : decode c = .command i) (s : State) :
    runCommand c s = exec i s := by
  simp [runCommand, h]

theorem runCommand_of_rejected {c : Command} {code : RejectCode} (h : decode c = .rejected code) (s : State) :
    runCommand c s = .next (reject code s) := by
  simp [runCommand, h]

theorem runCommand_encode (i : Instr) (s : State) : runCommand (encode i) s = exec i s :=
  runCommand_of_command (decode_encode i) s

/-- `rejectedState` writes out what the shared operation `reject` does (60_exceptions.md R140). -/
theorem reject_eq_rejectedState (code : RejectCode) (s : State) :
    reject code s = rejectedState s (rejectStatus code) := rfl

/-- Settles O7: the command in execution is served, and the decoder's verdict picks between its meaning and its
rejection. -/
theorem stepRunsDecodedCommand : Obligations.StepRunsDecodedCommand := by
  intro s c hreset hcurrent
  rw [step_of_current hreset hcurrent]
  refine ⟨fun i hi => runCommand_of_command hi s, fun code hcode => ?_⟩
  rw [runCommand_of_rejected hcode, reject_eq_rejectedState]

/-- Settles O8: the idle step is `accept`, and `accept_cases` says what that can do. -/
theorem stepAcceptsOldestOffer : Obligations.StepAcceptsOldestOffer := by
  intro s hreset hidle
  refine ⟨{ s with port := accept s.port }, step_of_idle hreset hidle, rfl, ?_⟩
  rcases accept_cases s.port with ⟨hhost, hticker, hnone⟩ | ⟨c, rest, hhost, n, hacc⟩ | ⟨c, rest, hticker, n, hacc⟩
  · rw [hnone]
    exact ⟨rfl, hreset, .inl ⟨hhost, hticker, rfl⟩⟩
  · rw [hacc]
    exact ⟨rfl, hreset, .inr (.inl ⟨c, rest, hhost, rfl, rfl, rfl⟩)⟩
  · rw [hacc]
    exact ⟨rfl, hreset, .inr (.inr ⟨c, rest, hticker, rfl, rfl, rfl⟩)⟩

/-! ## Every command answers once (R62) -/

theorem complete_port_eq_answered (s : State) (g : Regs) (w : Word) :
    (complete s g w).port = answered s statusOk w := rfl

theorem reject_port_eq_answered (code : RejectCode) (s : State) :
    (reject code s).port = answered s (rejectStatus code) 0 := rfl

/-- A command leaves the port as its one answer does: each command ends in `complete` or `reject`. -/
theorem nextState_port (i : Instr) (s : State) : ∃ code w, (nextState i s).port = answered s code w := by
  cases i with
  | writeReg idx v =>
    cases h : writeOperand idx v with
    | error c => exact ⟨_, _, by rw [nextState_writeReg_of_error h, reject_port_eq_answered]⟩
    | ok r => exact ⟨_, _, by rw [nextState_writeReg_of_ok h, complete_port_eq_answered]⟩
  | readReg idx =>
    cases h : readOperand idx with
    | error c => exact ⟨_, _, by rw [nextState_readReg_of_error h, reject_port_eq_answered]⟩
    | ok r => exact ⟨_, _, by rw [nextState_readReg_of_ok h, complete_port_eq_answered]⟩
  | lfoStep => exact ⟨_, _, by rw [nextState_lfoStep, complete_port_eq_answered]⟩
  | _ => exact ⟨_, _, complete_port_eq_answered s _ _⟩

/-- Settles O10: a decoded command by `nextState_port`, a refused one by its rejection. -/
theorem everyCommandAnswersOnce : Obligations.EveryCommandAnswersOnce := by
  intro c s
  cases h : decode c with
  | command i =>
    obtain ⟨code, w, hport⟩ := nextState_port i s
    exact ⟨nextState i s, code, w, by rw [runCommand_of_command h, exec_eq_nextState], hport⟩
  | rejected code =>
    exact ⟨reject code s, rejectStatus code, 0, runCommand_of_rejected h s, reject_port_eq_answered code s⟩

/-! ## A legal WRITE_REG, then a READ_REG (R67, R68) -/

@[simp] theorem readOperand_regIndex (r : Reg) : readOperand (regIndex r) = .ok r := by simp [readOperand]

/-- A writable register takes every value in its range (60_exceptions.md R142). -/
theorem writeOperand_of_legal {r : Reg} {v : Word} (hro : writeKind r ≠ .readOnly)
    (henum : writeKind r = .enum2 → v ≤ 3#32) (hflag : writeKind r = .flag1 → v ≤ 1#32) :
    writeOperand (regIndex r) v = .ok r := by
  rcases writeOperand_cases (regIndex r) v with ⟨hnone, _⟩ | ⟨r', hr, hro', _⟩ | ⟨r', hr, hbad, _⟩ |
    ⟨r', hr, _, _, _, hok⟩
  · simp at hnone
  · exact absurd (regIndex_injective hr ▸ hro') hro
  · obtain rfl := regIndex_injective hr
    rcases hbad with ⟨hkind, hv⟩ | ⟨hkind, hv⟩
    · exact absurd (henum hkind) (BitVec.not_le.2 hv)
    · exact absurd (hflag hkind) (BitVec.not_le.2 hv)
  · rw [hok, regIndex_injective hr]

theorem exec_writeReg_of_legal {r : Reg} {v : Word} (hro : writeKind r ≠ .readOnly)
    (henum : writeKind r = .enum2 → v ≤ 3#32) (hflag : writeKind r = .flag1 → v ≤ 1#32) (s : State) :
    exec (.writeReg (regIndex r) v) s = .next (complete s (writeRegister r v s.regs) 0) := by
  rw [exec_eq_nextState, nextState_writeReg_of_ok (writeOperand_of_legal hro henum hflag)]

theorem exec_readReg_regIndex (r : Reg) (s : State) :
    exec (.readReg (regIndex r)) s = .next (complete s s.regs (readRegister r s.regs)) := by
  rw [exec_eq_nextState, nextState_readReg_of_ok (readOperand_regIndex r)]

@[simp] theorem runCommands_nil (s : State) : runCommands [] s = .next s := rfl

theorem runCommands_cons_of_next {c : Command} {s t : State} (h : runCommand c s = .next t) (cs : List Command) :
    runCommands (c :: cs) s = runCommands cs t := by
  simp [runCommands, h]

/-- Settles O22: the write stores the whole word, and the read is the next command. -/
theorem writeThenReadReturnsValue : Obligations.WriteThenReadReturnsValue := by
  intro r v s hro hw1c henum hflag
  have hwrite := (runCommand_encode _ s).trans (exec_writeReg_of_legal hro henum hflag s)
  have hread := (runCommand_encode _ _).trans
    (exec_readReg_regIndex r (complete s (writeRegister r v s.regs) 0))
  rw [complete_regs, readRegister_writeRegister_self s.regs hro hw1c henum hflag] at hread
  rw [runCommands_cons_of_next hwrite, runCommands_cons_of_next hread, runCommands_nil]
  exact ⟨_, rfl, by simp [statusOk]⟩

end Sys2Proof.Machine

/-!
PROOF. The byte-addressed mapping (20_memory.md R56, R57; ledger 12): an access is an offer or a refusal, and an offer
at an idle port is what the next two steps accept and run.
-/

namespace Sys2Proof.Machine

/-! ## What an offer does (R65, R66) -/

@[simp] theorem offer_regs (who : Producer) (c : Command) (s : State) : (offer who c s).regs = s.regs := by
  rw [offer_eq]

@[simp] theorem offer_current (who : Producer) (c : Command) (s : State) :
    (offer who c s).port.current = s.port.current := by
  rw [offer_eq]

@[simp] theorem offer_responses (who : Producer) (c : Command) (s : State) :
    (offer who c s).port.responses = s.port.responses := by
  rw [offer_eq]

@[simp] theorem offer_resetInput (who : Producer) (c : Command) (s : State) :
    (offer who c s).port.resetInput = s.port.resetInput := by
  rw [offer_eq]

theorem hostQueue_prefix_offer (who : Producer) (c : Command) (s : State) :
    s.port.hostQueue <+: (offer who c s).port.hostQueue := by
  rw [offer_eq]
  exact List.prefix_append _ _

theorem tickerQueue_prefix_offer (who : Producer) (c : Command) (s : State) :
    s.port.tickerQueue <+: (offer who c s).port.tickerQueue := by
  rw [offer_eq]
  exact List.prefix_append _ _

/-- The state in which c has been accepted and nothing else has changed. -/
def withCurrent (c : Command) (s : State) : State := { s with port := { s.port with current := some c } }

@[simp] theorem withCurrent_regs (c : Command) (s : State) : (withCurrent c s).regs = s.regs := rfl
@[simp] theorem withCurrent_current (c : Command) (s : State) : (withCurrent c s).port.current = some c := rfl
@[simp] theorem withCurrent_responses (c : Command) (s : State) :
    (withCurrent c s).port.responses = s.port.responses := rfl

theorem step_offer_of_idle (who : Producer) (c : Command) {s : State} (hreset : s.port.resetInput = false)
    (hidle : s.port.current = none) (hhost : s.port.hostQueue = []) (hticker : s.port.tickerQueue = []) :
    step (offer who c s) = .next (withCurrent c s) := by
  rw [step_of_idle (by simpa using hreset) (by simpa using hidle), accept_offer who c s hhost hticker, offer_regs]
  rfl

theorem step_withCurrent_encode (i : Instr) {s : State} (hreset : s.port.resetInput = false) :
    step (withCurrent (encode i) s) = exec i (withCurrent (encode i) s) :=
  (step_of_current (s := withCurrent (encode i) s) hreset (withCurrent_current _ s)).trans (runCommand_encode i _)

/-! ## What an access stands for (R56, R57) -/

theorem busCommand_load (who : Producer) {i : Nat} (hi : i < 256) :
    busCommand { producer := who, offset := 4 * i, width := 32, store := none } =
      some (encode (.readReg (BitVec.ofNat 8 i))) := by
  simp [busCommand, hi]

theorem busCommand_store (who : Producer) {i : Nat} (v : Word) (hi : i < 256) :
    busCommand { producer := who, offset := 4 * i, width := 32, store := some v } =
      some (encode (.writeReg (BitVec.ofNat 8 i) v)) := by
  simp [busCommand, hi]

theorem busCommand_eq_none {a : BusAccess} (h : ¬ (a.width = 32 ∧ a.offset % 4 = 0 ∧ a.offset < 4 * 256)) :
    busCommand a = none := by
  rw [busCommand, if_neg]
  rintro ⟨hwidth, haligned, hoffset⟩
  exact h ⟨hwidth, haligned, by omega⟩

theorem busStep_of_some {a : BusAccess} {c : Command} (h : busCommand a = some c) (s : State) :
    busStep a s = .next (offer a.producer c s) := by
  simp [busStep, h]

theorem busStep_of_none {a : BusAccess} (h : busCommand a = none) (s : State) : busStep a s = .refused .busAccess := by
  simp [busStep, h]

theorem eq_offer_of_busStep {a : BusAccess} {s t : State} (h : busStep a s = .next t) :
    ∃ c, t = offer a.producer c s := by
  cases hc : busCommand a with
  | none => simp [busStep_of_none hc] at h
  | some c =>
    rw [busStep_of_some hc] at h
    cases h
    exact ⟨c, rfl⟩

/-- At an idle port with nothing offered, the two steps after an access are its command's acceptance and execution. -/
theorem busStep_then_runs {a : BusAccess} {i : Instr} {s : State} (h : busCommand a = some (encode i))
    (hreset : s.port.resetInput = false) (hidle : s.port.current = none) (hhost : s.port.hostQueue = [])
    (hticker : s.port.tickerQueue = []) :
    ∃ t u, busStep a s = .next t ∧ step t = .next u ∧ u.regs = s.regs ∧ u.port.responses = s.port.responses ∧
      step u = exec i u :=
  ⟨offer a.producer (encode i) s, withCurrent (encode i) s, busStep_of_some h s,
    step_offer_of_idle a.producer (encode i) hreset hidle hhost hticker,
    withCurrent_regs .., withCurrent_responses .., step_withCurrent_encode i hreset⟩

theorem toNat_busByte (w : Word) (k : Nat) : (busByte w k).toNat = w.toNat / 2 ^ (8 * k) % 2 ^ 8 := by
  simp [busByte, Nat.shiftRight_eq_div_pow]

/-- Settles O24: the load and the store by the command they stand for, every other claim about any access. -/
theorem busAccessReachesOneRegister : Obligations.BusAccessReachesOneRegister := by
  refine ⟨fun who i v s hi => ⟨?_, ?_⟩, fun who i v s hi hreset hidle hhost hticker => ⟨?_, ?_⟩, fun a s t h => ?_,
    fun a s h => busStep_of_none (busCommand_eq_none h) s, fun w k _ => toNat_busByte w k⟩
  · exact busStep_of_some (busCommand_load who hi) s
  · exact busStep_of_some (busCommand_store who v hi) s
  · exact busStep_then_runs (busCommand_load who hi) hreset hidle hhost hticker
  · exact busStep_then_runs (busCommand_store who v hi) hreset hidle hhost hticker
  · obtain ⟨c, rfl⟩ := eq_offer_of_busStep h
    exact ⟨offer_regs .., offer_current .., offer_responses .., hostQueue_prefix_offer .., tickerQueue_prefix_offer ..⟩

end Sys2Proof.Machine

/-!
PROOF. The encoding (30_encoding.md): the decoder's three verdicts by the fields of CMD, the match and mask words of the
opcode map by the same fields, and the assembler's lines as encodings.
-/

namespace Sys2Proof.Laws.EncodedWordMatchesRow

theorem statement_of_every_command : ∀ i : Instr, Statement i
  | .nop => nop
  | .writeReg idx value => writeReg idx value
  | .readReg idx => readReg idx
  | .noteOn => noteOn
  | .noteOff => noteOff
  | .lfoReset => lfoReset
  | .tick => tick
  | .envStep => envStep
  | .lfoStep => lfoStep
  | .oscStep freq => oscStep freq
  | .filtStep x => filtStep x
  | .waveEval kind phase => waveEval kind phase
  | .reset => reset

end Sys2Proof.Laws.EncodedWordMatchesRow

namespace Sys2Proof.Machine

/-! ## The decoder's verdicts by the fields (R77, R81, R82, R84) -/

/-- A bit is set of CMD.RSV, of ARG[7:2] of WAVE_EVAL, or of the ARG of a command without an operand there (R79, R82). -/
def ReservedBitSet (cmd : Word) : Prop :=
  rsvField cmd ≠ 0 ∨ (opField cmd = 0xB ∧ (argField cmd).extractLsb' 2 6 ≠ 0) ∨
    (opField cmd ≠ 0x1 ∧ opField cmd ≠ 0x2 ∧ opField cmd ≠ 0xB ∧ argField cmd ≠ 0)

theorem decode_of_illegal {c : Command} (hop : 0xD#4 ≤ opField c.cmd) : decode c = .rejected .illegalOp :=
  if_pos hop

theorem decode_of_reserved {c : Command} (hop : ¬ 0xD#4 ≤ opField c.cmd) (hbit : ReservedBitSet c.cmd) :
    decode c = .rejected .reservedBits := by
  unfold decode
  dsimp only
  rw [if_neg hop]
  split_ifs with hrsv hwave harg
  · rfl
  · rfl
  · rfl
  · exact absurd hbit (by simp only [ReservedBitSet, hrsv, hwave, harg, or_self, not_false_iff])

theorem decode_of_legal {c : Command} (hop : ¬ 0xD#4 ≤ opField c.cmd) (hbit : ¬ ReservedBitSet c.cmd) :
    decode c = .command (instrOfFields (opField c.cmd) (argField c.cmd) c.data) := by
  obtain ⟨hrsv, hwave, harg⟩ : _ ∧ _ ∧ _ := by simpa only [ReservedBitSet, not_or] using hbit
  unfold decode
  dsimp only
  rw [if_neg hop, if_neg hrsv, if_neg hwave, if_neg harg]

theorem decode_eq_illegalOp_iff {c : Command} : decode c = .rejected .illegalOp ↔ 0xD#4 ≤ opField c.cmd := by
  by_cases hop : 0xD#4 ≤ opField c.cmd
  · simp [decode_of_illegal hop, hop]
  · by_cases hbit : ReservedBitSet c.cmd
    · simp [decode_of_reserved hop hbit, hop]
    · simp [decode_of_legal hop hbit, hop]

theorem decode_eq_reservedBits_iff {c : Command} :
    decode c = .rejected .reservedBits ↔ ¬ 0xD#4 ≤ opField c.cmd ∧ ReservedBitSet c.cmd := by
  by_cases hop : 0xD#4 ≤ opField c.cmd
  · simp [decode_of_illegal hop, hop]
  · by_cases hbit : ReservedBitSet c.cmd
    · simp [decode_of_reserved hop hbit, hop, hbit]
    · simp [decode_of_legal hop hbit, hbit]

/-- The verdict looks at CMD alone; DATA only enters the command (R84). -/
theorem decode_eq_command_iff {c : Command} {i : Instr} :
    decode c = .command i ↔
      ¬ 0xD#4 ≤ opField c.cmd ∧ ¬ ReservedBitSet c.cmd ∧ i = instrOfFields (opField c.cmd) (argField c.cmd) c.data := by
  by_cases hop : 0xD#4 ≤ opField c.cmd
  · simp [decode_of_illegal hop, hop]
  · by_cases hbit : ReservedBitSet c.cmd
    · simp [decode_of_reserved hop hbit, hbit]
    · simp [decode_of_legal hop hbit, hop, hbit, eq_comm]

/-- The decoder refuses with one of its own two codes (R84). -/
theorem eq_of_decode_eq_rejected {c : Command} {code : RejectCode} (h : decode c = .rejected code) :
    code = .illegalOp ∨ code = .reservedBits := by
  by_cases hop : 0xD#4 ≤ opField c.cmd
  · left
    simpa [decode_of_illegal hop, eq_comm] using h
  · by_cases hbit : ReservedBitSet c.cmd
    · right
      simpa [decode_of_reserved hop hbit, eq_comm] using h
    · simp [decode_of_legal hop hbit] at h

theorem illegalOp_iff_toNat (w : Word) : 0xD#4 ≤ opField w ↔ 0xD ≤ w.toNat / 2 ^ 28 := by
  rw [BitVec.le_def, toNat_opField]
  rfl

theorem toNat_arg_high (w : Word) : ((argField w).extractLsb' 2 6).toNat = w.toNat % 2 ^ 8 / 2 ^ 2 := by
  rw [BitVec.extractLsb'_toNat, toNat_argField, Nat.shiftRight_eq_div_pow]
  omega

/-- The reserved bits in plain numbers (R82). -/
theorem reservedBitSet_iff_toNat (w : Word) :
    ReservedBitSet w ↔
      w.toNat / 2 ^ 8 % 2 ^ 20 ≠ 0 ∨
        (w.toNat / 2 ^ 28 = 0xB ∧ w.toNat % 2 ^ 8 / 2 ^ 2 ≠ 0) ∨
        (w.toNat / 2 ^ 28 ≠ 0x1 ∧ w.toNat / 2 ^ 28 ≠ 0x2 ∧ w.toNat / 2 ^ 28 ≠ 0xB ∧ w.toNat % 2 ^ 8 ≠ 0) := by
  simp only [ReservedBitSet, ne_eq, ← BitVec.toNat_inj, toNat_opField, toNat_rsvField, toNat_argField, toNat_arg_high]
  rfl

/-- Settles O1: the encoder's fields pass the decoder's checks, by `decode_encode`. -/
theorem decodeEncodeRoundTrip : Obligations.DecodeEncodeRoundTrip := decode_encode

/-- Settles O4: the decoder's two refusals by the fields, and the fields in numbers. -/
theorem decoderRefusesBadWords : Obligations.DecoderRefusesBadWords := by
  intro c
  rw [decode_eq_illegalOp_iff, decode_eq_reservedBits_iff, illegalOp_iff_toNat, reservedBitSet_iff_toNat, not_le]
  exact ⟨Iff.rfl, Iff.rfl, fun _ => eq_of_decode_eq_rejected⟩

/-! ## A decoded command encodes back (R76, R84) -/

/-- The command read from a transaction has the CMD word of the transaction. -/
theorem encode_cmd_of_decode {c : Command} {i : Instr} (h : decode c = .command i) : (encode i).cmd = c.cmd := by
  obtain ⟨op, arg, hcmd, rfl, hop, hwave, harg⟩ := decode_eq_command h
  obtain ⟨hopcode, hargOf⟩ := opcode_instrOfFields c.data hop hwave harg
  rw [encode, hopcode, hargOf, hcmd]

/-- A command of given fields carries DATA or ignores it (R76, R78). -/
theorem dataOf_instrOfFields (op : BitVec 4) (arg : BitVec 8) (d : Word) :
    dataOf (instrOfFields op arg d) = d ∨ ∀ d', instrOfFields op arg d' = instrOfFields op arg d := by
  unfold instrOfFields
  split
  case h_2 | h_10 | h_11 | h_12 => exact .inl rfl
  all_goals exact .inr fun _ => rfl

/-- Settles O2: CMD by `encode_cmd_of_decode`; the decoder's verdict does not look at DATA, and the command either carries
DATA or ignores it. -/
theorem decodedCommandReencodes : Obligations.DecodedCommandReencodes := by
  intro c i h
  refine ⟨encode_cmd_of_decode h, ?_⟩
  obtain ⟨hop, hbit, rfl⟩ := decode_eq_command_iff.1 h
  rcases dataOf_instrOfFields (opField c.cmd) (argField c.cmd) c.data with hdata | hignored
  · exact .inl hdata
  · exact .inr fun d => decode_eq_command_iff.2 ⟨hop, hbit, (hignored d).symm⟩

/-! ## The opcode map (R80) -/

/-- A command's own row selects its encoding. -/
theorem encode_cmd_and_rowMask (i : Instr) : (encode i).cmd &&& rowMask i = rowMatch i :=
  Laws.EncodedWordMatchesRow.statement_of_every_command i

theorem opField_and (v w : Word) : opField (v &&& w) = opField v &&& opField w := BitVec.extractLsb'_and ..
theorem rsvField_and (v w : Word) : rsvField (v &&& w) = rsvField v &&& rsvField w := BitVec.extractLsb'_and ..
theorem argField_and (v w : Word) : argField (v &&& w) = argField v &&& argField w := BitVec.extractLsb'_and ..

/-- A row's mask takes OP and RSV whole; its match word has the row's opcode in OP and 0 in RSV. -/
theorem fields_row (j : Instr) :
    opField (rowMask j) = BitVec.allOnes 4 ∧ opField (rowMatch j) = opcode j ∧
      rsvField (rowMask j) = BitVec.allOnes 20 ∧ rsvField (rowMatch j) = 0 := by
  cases j <;> (dsimp only [rowMask, rowMatch, opcode]; decide)

/-- What a row's condition says of each field. -/
theorem fields_of_row_selects {w : Word} {j : Instr} (h : w &&& rowMask j = rowMatch j) :
    opField w = opcode j ∧ rsvField w = 0 ∧ argField w &&& argField (rowMask j) = argField (rowMatch j) := by
  obtain ⟨hmaskOp, hmatchOp, hmaskRsv, hmatchRsv⟩ := fields_row j
  refine ⟨?_, ?_, by rw [← h, argField_and]⟩
  · rw [← hmatchOp, ← h, opField_and, hmaskOp, BitVec.and_allOnes]
  · rw [← hmatchRsv, ← h, rsvField_and, hmaskRsv, BitVec.and_allOnes]

theorem not_illegalOp_opcode (j : Instr) : ¬ 0xD#4 ≤ opcode j := by
  cases j <;> (dsimp only [opcode]; decide)

/-- The ARG bits a row's mask takes are the reserved ones of its command. -/
theorem not_argReserved_of_row {arg : BitVec 8} {j : Instr}
    (h : arg &&& argField (rowMask j) = argField (rowMatch j)) :
    ¬ (opcode j = 0xB ∧ arg.extractLsb' 2 6 ≠ 0) ∧
      ¬ (opcode j ≠ 0x1 ∧ opcode j ≠ 0x2 ∧ opcode j ≠ 0xB ∧ arg ≠ 0) := by
  cases j with
  | writeReg idx value => simp [opcode]
  | readReg idx => simp [opcode]
  | _ =>
    dsimp only [rowMask, rowMatch, opcode] at *
    revert arg
    decide

/-- The decoder reads from a row's opcode a command of that row. -/
theorem row_instrOfFields_opcode (j : Instr) (arg : BitVec 8) (d : Word) :
    rowMatch (instrOfFields (opcode j) arg d) = rowMatch j ∧ rowMask (instrOfFields (opcode j) arg d) = rowMask j := by
  cases j <;> exact ⟨rfl, rfl⟩

/-- Settles O3: a decoded word is its command's encoding; a selected word passes the decoder's checks field by field. -/
theorem opcodeMapSelects : Obligations.OpcodeMapSelects := by
  refine ⟨fun c i h => ?_, fun c j h => ?_⟩
  · rw [← encode_cmd_of_decode h, encode_cmd_and_rowMask]
  · obtain ⟨hop, hrsv, harg⟩ := fields_of_row_selects h
    have hlegal : ¬ ReservedBitSet c.cmd := by
      rw [ReservedBitSet, not_or, not_or, hop]
      exact ⟨not_not.2 hrsv, not_argReserved_of_row harg⟩
    have hdecode := decode_of_legal (hop ▸ not_illegalOp_opcode j) hlegal
    rw [hop] at hdecode
    exact ⟨_, hdecode, row_instrOfFields_opcode j (argField c.cmd) c.data⟩

/-! ## The assembler's lines (R85, R86) -/

/-- An opcode's word with an 8-bit operand in its ARG field. -/
theorem append_or_arg (op : BitVec 4) (arg : BitVec 8) :
    (op ++ 0#20 ++ 0#8) ||| arg.setWidth 32 = op ++ 0#20 ++ arg := by
  ext i hi
  grind

theorem asmCmd_of_arg (op : BitVec 4) {operand : AsmOperand} {arg : BitVec 8}
    (h : asmWord operand = some (arg.setWidth 32)) :
    asmCmd (op ++ 0#20 ++ 0#8) operand = some (op ++ 0#20 ++ arg) := by
  have hlt : arg.setWidth 32 < 0x100#32 := by bv_omega
  rw [asmCmd, h]
  simp only [hlt, if_true]
  rw [append_or_arg]

/-- A WaveformKind's word is its 8-bit ARG field, widened. -/
theorem asmWord_wave (k : WaveKind) : asmWord (.wave k) = some (((waveKindCode k).setWidth 8).setWidth 32) := by
  cases k <;> rfl

theorem asmPair_eq_encode {cmd data : Option Word} {i : Instr} (hcmd : cmd = some (encode i).cmd)
    (hdata : data = some (encode i).data) : asmPair cmd data = some (encode i) := by
  rw [hcmd, hdata]
  rfl

theorem assemble_writeReg (r : Reg) {value : AsmOperand} {v : Word} (h : asmWord value = some v) :
    assemble (.writeReg (.reg r) value) = some (encode (.writeReg (regIndex r) v)) :=
  asmPair_eq_encode (asmCmd_of_arg 0x1 rfl) h

theorem assemble_readReg (r : Reg) : assemble (.readReg (.reg r)) = some (encode (.readReg (regIndex r))) :=
  asmPair_eq_encode (asmCmd_of_arg 0x2 rfl) rfl

theorem assemble_waveEval (k : WaveKind) {phase : AsmOperand} {p : Word} (h : asmWord phase = some p) :
    assemble (.waveEval (.wave k) phase) = some (encode (.waveEval k p)) :=
  asmPair_eq_encode (asmCmd_of_arg 0xB (asmWord_wave k)) h

/-- A form whose row takes CMD whole assembles to the match word of the row. -/
theorem asmPair_rowMatch {i : Instr} (h : rowMask i = BitVec.allOnes 32) :
    asmPair (some (rowMatch i)) (some (dataOf i)) = some (encode i) := by
  refine asmPair_eq_encode ?_ rfl
  rw [← encode_cmd_and_rowMask, h, BitVec.and_allOnes]

/-- Settles O6: the forms with a register or kind by their lemmas, the others by their rows. -/
theorem assembledFormsEncode : Obligations.AssembledFormsEncode := fun r k v =>
  ⟨assemble_writeReg r rfl, assemble_readReg r, asmPair_rowMatch (i := .oscStep v) rfl,
    asmPair_rowMatch (i := .filtStep v) rfl, assemble_waveEval k rfl, asmPair_rowMatch (i := .nop) rfl,
    asmPair_rowMatch (i := .noteOn) rfl, asmPair_rowMatch (i := .noteOff) rfl, asmPair_rowMatch (i := .lfoReset) rfl,
    asmPair_rowMatch (i := .tick) rfl, asmPair_rowMatch (i := .envStep) rfl, asmPair_rowMatch (i := .lfoStep) rfl,
    asmPair_rowMatch (i := .reset) rfl⟩

/-- Settles O5: each line assembles to an encoding, which decodes back; the refused words by their fields. -/
theorem workedEncodingsDecode : Obligations.WorkedEncodingsDecode := by
  have h440 : asmWord (.real false 440 1) = some 0x43DC0000 := by decide
  have hpi : asmWord (.real false 314159274 100000000) = some 0x40490FDB := by decide
  have hlegal : ¬ 0xD#4 ≤ opField 0x30000100 := by decide
  have hreserved : ReservedBitSet 0x30000100 := .inl (by decide)
  have hillegal : 0xD#4 ≤ opField 0xD0000000 := by decide
  exact ⟨assemble_writeReg .baseFreq h440, decode_encode (.writeReg 0x02 0x43DC0000),
    assemble_readReg .oscPhase, decode_encode (.readReg 0x22),
    assemble_waveEval .saw hpi, decode_encode (.waveEval .saw 0x40490FDB),
    assemble_writeReg .lfoTarget (v := 3) rfl, decode_encode (.writeReg 0x0E 0x00000003),
    fun _ => decode_of_reserved hlegal hreserved, fun _ => decode_of_illegal hillegal⟩

/-- The word of LFO_ENABLE that ROUTE writes (R86). -/
def routeEnable (tgt : LfoTarget) : Word := if tgt = .none then 0 else 1

theorem asmWord_routeEnable (tgt : LfoTarget) :
    asmWord (.int (if tgt = .none then 0 else 1)) = some (routeEnable tgt) := by
  cases tgt <;> rfl

theorem expand_route_assembles (tgt : LfoTarget) :
    (expand (.route tgt)).mapM assemble =
      some [encode (.writeReg (regIndex .lfoTarget) ((lfoTargetCode tgt).setWidth 32)),
        encode (.writeReg (regIndex .lfoEnable) (routeEnable tgt))] := by
  rw [expand, List.mapM_cons, assemble_writeReg .lfoTarget rfl, List.mapM_cons,
    assemble_writeReg .lfoEnable (asmWord_routeEnable tgt)]
  rfl

/-- The two writes of ROUTE, both legal, on the register file. -/
theorem writeRegister_route (tgt : LfoTarget) (g : Regs) :
    writeRegister .lfoEnable (routeEnable tgt) (writeRegister .lfoTarget ((lfoTargetCode tgt).setWidth 32) g) =
      { g with lfoTarget := tgt, lfoEnable := decide (tgt ≠ .none) } := by
  cases tgt <;> rfl

theorem runCommand_encode_writeReg {r : Reg} {v : Word} (hro : writeKind r ≠ .readOnly)
    (henum : writeKind r = .enum2 → v ≤ 3#32) (hflag : writeKind r = .flag1 → v ≤ 1#32) (s : State) :
    runCommand (encode (.writeReg (regIndex r) v)) s = .next (complete s (writeRegister r v s.regs) 0) :=
  (runCommand_encode _ s).trans (exec_writeReg_of_legal hro henum hflag s)

/-- Settles O23: ROUTE assembles to two legal WRITE_REGs, and these change LFO_TARGET and LFO_ENABLE only. -/
theorem routeSetsTargetAndEnable : Obligations.RouteSetsTargetAndEnable := by
  intro tgt s
  have htarget := runCommand_encode_writeReg (r := .lfoTarget) (v := (lfoTargetCode tgt).setWidth 32) (by decide)
    (fun _ => by cases tgt <;> decide) nofun s
  have henable := runCommand_encode_writeReg (r := .lfoEnable) (v := routeEnable tgt) (by decide) nofun
    (fun _ => by cases tgt <;> decide)
    (complete s (writeRegister .lfoTarget ((lfoTargetCode tgt).setWidth 32) s.regs) 0)
  refine ⟨_, _, expand_route_assembles tgt,
    (runCommands_cons_of_next htarget _).trans (runCommands_cons_of_next henable []), ?_⟩
  rw [complete_regs, complete_regs, writeRegister_route]

end Sys2Proof.Machine

/-!
PROOF. The interface commands and the triggers (40_interface_commands.md R88 to R91): the whole next state of each, the
table of register words (10_state.md R20, R51, R53) as the register map's indices and reads, and the reset words.
-/

namespace Sys2Proof.Machine

theorem complete_eq_answered (s : State) (g : Regs) (w : Word) :
    complete s g w = { regs := g, port := answered s 0 w } := rfl

/-! ## A legal WRITE_REG (R89) -/

/-- Settles O19: a legal write ends in `writeRegister`, which stores the word and leaves the other registers. -/
theorem writeRegStoresLegalValue : Obligations.WriteRegStoresLegalValue := by
  intro r v s hro hw1c henum hflag
  refine ⟨_, exec_writeReg_of_legal hro henum hflag s, complete_port_eq_answered s _ 0, ?_, fun r' hr' => ?_⟩
  · rw [complete_regs, readRegister_writeRegister_self s.regs hro hw1c henum hflag]
  · rw [complete_regs, readRegister_writeRegister_other v s.regs hr']

/-! ## NOP and the triggers (R88, R114, R115, R120) -/

/-- Settles O17: the next state of each of the four commands, its completion written out. -/
theorem triggersSetOneRegister : Obligations.TriggersSetOneRegister := by
  intro s
  refine ⟨?_, ?_, ?_, ?_⟩
  · rw [exec_eq_nextState, nextState_nop, complete_eq_answered]
  · rw [exec_eq_nextState, nextState_noteOn, complete_eq_answered]
  · rw [exec_eq_nextState, nextState_noteOff, complete_eq_answered]
  · rw [exec_eq_nextState, nextState_lfoReset, complete_eq_answered, posZero]

/-! ## The table of register words (10_state.md R20, R51, R53) -/

theorem waveKindCode_setWidth (k : WaveKind) : (waveKindCode k).setWidth 32 = BitVec.ofNat 32 (waveNumber k) := by
  cases k <;> rfl

theorem lfoTargetCode_setWidth (k : LfoTarget) :
    (lfoTargetCode k).setWidth 32 = BitVec.ofNat 32 (targetNumber k) := by
  cases k <;> rfl

theorem envStateCode_setWidth (k : EnvState) : (envStateCode k).setWidth 32 = BitVec.ofNat 32 (stateNumber k) := by
  cases k <;> rfl

theorem ofBool_setWidth (b : Bool) : (BitVec.ofBool b).setWidth 32 = BitVec.ofNat 32 b.toNat := by
  cases b <;> rfl

/-- STATUS's fields stand at the bits R51 names: the 64 values of the three fields. -/
theorem statusWord_eq_statusNumber (t : StatusReg) : statusWord t = BitVec.ofNat 32 (statusNumber t) := by
  obtain ⟨err, nonfinite, lastErr⟩ := t
  revert err nonfinite lastErr
  decide

/-- The table's row of a register: its index and the word it reads as. -/
def mapRow (g : Regs) (r : Reg) : Nat × Word := ((regIndex r).toNat, readRegister r g)

theorem mapWords_eq_map_mapRow (g : Regs) : mapWords g = allRegs.map (mapRow g) := by
  simp only [mapWords, ← waveKindCode_setWidth, ← lfoTargetCode_setWidth, ← envStateCode_setWidth, ← ofBool_setWidth,
    ← statusWord_eq_statusNumber]
  rfl

theorem mem_mapWords_iff {g : Regs} {e : Nat × Word} : e ∈ mapWords g ↔ ∃ r, mapRow g r = e := by
  simp [mapWords_eq_map_mapRow, mem_allRegs]

/-- No index after STATUS's is mapped (10_state.md R21). -/
theorem lt_of_mapped {a : Nat} (hmapped : unmappedIndex a = false) : a < 0x31 := by
  simp only [unmappedIndex, Bool.or_eq_false_iff, decide_eq_false_iff_not] at hmapped
  omega

/-- An index outside the ranges of R21 is a register's (10_state.md R20). -/
theorem exists_regIndex_of_mapped {a : Nat} (hmapped : unmappedIndex a = false) :
    ∃ r ∈ allRegs, (regIndex r).toNat = a := by
  have hrows : ∀ a < 0x31, unmappedIndex a = false → ∃ r ∈ allRegs, (regIndex r).toNat = a := by decide
  exact hrows a (lt_of_mapped hmapped) hmapped

theorem exec_readReg_answered (r : Reg) (s : State) :
    exec (.readReg (regIndex r)) s = .next { regs := s.regs, port := answered s 0 (readRegister r s.regs) } := by
  rw [exec_readReg_regIndex, complete_eq_answered]

/-- Settles O18: the table is the register map's rows, and a row's index is a register's own. -/
theorem readRegAnswersRegisterWord : Obligations.ReadRegAnswersRegisterWord := by
  refine ⟨exec_readReg_answered, fun s e he => ?_, fun g a _ hmapped => ?_⟩
  · obtain ⟨r, rfl⟩ := mem_mapWords_iff.1 he
    rw [mapRow, BitVec.ofNat_toNat, BitVec.setWidth_eq]
    exact exec_readReg_answered r s
  · obtain ⟨r, -, rfl⟩ := exists_regIndex_of_mapped hmapped
    exact ⟨readRegister r g, mem_mapWords_iff.2 ⟨r, rfl⟩⟩

/-! ## RESET (R91) -/

/-- Settles O21: RESET completes with the reset register file, whose words are those of R20. -/
theorem resetRestoresEveryRegister : Obligations.ResetRestoresEveryRegister := by
  intro s
  refine ⟨_, exec_eq_nextState .reset s, ?_, ?_, ?_⟩
  · rw [nextState_reset, complete_port_eq_answered]
    rfl
  · rw [nextState_reset, complete_regs]
    rfl
  · rw [nextState_reset, complete_regs]
    decide

end Sys2Proof.Machine

/-!
PROOF. The waveforms as values: Square by the sign of the sine, Triangle and Saw by their formulas, and WAVE_EVAL
(41_waveform_generator.md R94 to R96, R99).
-/

namespace Sys2Proof.Machine

/-! ## Square (R94) -/

theorem squareTie_eq : squareTie = ONE ∨ squareTie = NEG1 := by
  cases h : Config.squareTieNegative
  · exact .inl (by simp [squareTie, h])
  · exact .inr (by simp [squareTie, h])

theorem waveSquare_of_pos {p : Word} (h : fgt (sin32 p) posZero = true) : waveSquare p = ONE := by
  simp [waveSquare, h]

theorem waveSquare_of_neg {p : Word} (h : flt (sin32 p) posZero = true) : waveSquare p = NEG1 := by
  have hpos : fgt (sin32 p) posZero = false := by
    rw [← Bool.not_eq_true, fgt_iff]
    have hkey := (flt_iff.1 h).2.2
    omega
  simp [waveSquare, h, hpos]

/-- Neither above nor below +0: the sine is a zero or a NaN. -/
theorem waveSquare_of_tie {p : Word} (h : isZero (sin32 p) = true ∨ isNaN (sin32 p) = true) :
    waveSquare p = squareTie := by
  have hcompare : fgt (sin32 p) posZero = false ∧ flt (sin32 p) posZero = false := by
    rcases h with h | h
    · obtain hs | hs := eq_posZero_or_negZero h <;> rw [hs] <;> decide
    · exact ⟨flt_nan (.inr h), flt_nan (.inl h)⟩
  simp [waveSquare, hcompare]

theorem waveSquare_eq (p : Word) : waveSquare p = ONE ∨ waveSquare p = NEG1 := by
  unfold waveSquare
  dsimp only
  split
  · exact .inl rfl
  · split
    · exact .inr rfl
    · exact squareTie_eq

/-- Settles O30: the three branches of Square, and each of them is +1.0 or -1.0. -/
theorem squareIsAlwaysOne : Obligations.SquareIsAlwaysOne := fun p =>
  ⟨waveSquare_of_pos, waveSquare_of_neg, waveSquare_of_tie, squareTie_eq, waveSquare_eq p⟩

/-! ## Triangle and Saw at the quarter points (R95, R96) -/

/-- Settles O31: the formulas are the definitions; the quarter points are evaluated. -/
theorem triangleAndSawFollowFormulas : Obligations.TriangleAndSawFollowFormulas :=
  ⟨fun _ => ⟨rfl, rfl⟩, by decide⟩

/-! ## WAVE_EVAL (R99) -/

/-- The CMD word of WAVE_EVAL is its row's match word plus the waveform's number (10_state.md R53). -/
theorem encode_waveEval (k : WaveKind) (p : Word) :
    encode (.waveEval k p) = ⟨BitVec.ofNat 32 (0xB0000000 + waveNumber k), p⟩ := by
  have hcmd : 0xB#4 ++ 0#20 ++ (waveKindCode k).setWidth 8 = BitVec.ofNat 32 (0xB0000000 + waveNumber k) := by
    cases k <;> decide
  exact congrArg (Command.mk · p) hcmd

/-- Settles O32: the command's completion, and the decoder on the word the encoder gives. -/
theorem waveEvalAnswersWave : Obligations.WaveEvalAnswersWave := by
  intro k p s
  constructor
  · rw [exec_eq_nextState, nextState_waveEval, complete_eq_answered]
  · rw [← encode_waveEval, decode_encode]

end Sys2Proof.Machine

/-!
PROOF. The ranges of Triangle and Saw (41_waveform_generator.md R97). Below the band the fraction u = t - floor(t + 0.5)
is in [-0.5, 0.5); in the band t is a whole number k, so u is +0, or -1 where rounding takes k + 0.5 to k + 1.
-/

namespace Sys2Proof.Machine

/-! ## Finite results between two finite words -/

theorem isFinite_of_fMag_le {a : Word} (h : fMag a ≤ 0x7F000000) : isFinite a = true := by
  rw [isFinite_iff, infMag_eq]
  omega

/-- r is finite, with a value from that of lo to that of hi. -/
def Between (lo hi r : Word) : Prop := isFinite r = true ∧ fUnits lo ≤ fUnits r ∧ fUnits r ≤ fUnits hi

section
variable {a b lo hi : Word}

theorem between_of_fKey_le {r : Word} (hlo : isFinite lo = true) (hhi : isFinite hi = true)
    (hge : fKey lo ≤ fKey r) (hle : fKey r ≤ fKey hi) : Between lo hi r := by
  have hlob := (isFinite_iff_fKey lo).1 hlo
  have hhib := (isFinite_iff_fKey hi).1 hhi
  exact ⟨(isFinite_iff_fKey r).2 ⟨by omega, by omega⟩, (fKey_le_iff lo r).1 hge, (fKey_le_iff r hi).1 hle⟩

/-- A rounded quotient is between finite words when the exact one is. -/
theorem between_of_fKey {r : Word} {n : Int} {d : Nat} (hkey : fKey r = rKey n d) (hd : 0 < d)
    (hlo : isFinite lo = true) (hhi : isFinite hi = true) (hlow : fUnits lo * d ≤ n) (hhigh : n ≤ fUnits hi * d) :
    Between lo hi r :=
  between_of_fKey_le hlo hhi (hkey ▸ le_rKey hd hlo hlow) (hkey ▸ rKey_le hd hhi hhigh)

theorem between_fadd (ha : isFinite a = true) (hb : isFinite b = true) (hlo : isFinite lo = true)
    (hhi : isFinite hi = true) (hlow : fUnits lo ≤ fUnits a + fUnits b) (hhigh : fUnits a + fUnits b ≤ fUnits hi) :
    Between lo hi (fadd a b) :=
  between_of_fKey (fKey_fadd ha hb) one_pos hlo hhi (by simpa using hlow) (by simpa using hhigh)

theorem between_fsub (ha : isFinite a = true) (hb : isFinite b = true) (hlo : isFinite lo = true)
    (hhi : isFinite hi = true) (hlow : fUnits lo ≤ fUnits a - fUnits b) (hhigh : fUnits a - fUnits b ≤ fUnits hi) :
    Between lo hi (fsub a b) :=
  between_of_fKey (fKey_fsub ha hb) one_pos hlo hhi (by simpa using hlow) (by simpa using hhigh)

theorem fUnits_TWO : fUnits TWO = 2 * 2 ^ 149 := by decide
theorem fUnits_HALF : fUnits HALF = 2 ^ 148 := by decide

theorem between_double (ha : isFinite a = true) (hlo : isFinite lo = true) (hhi : isFinite hi = true)
    (hlow : fUnits lo ≤ 2 * fUnits a) (hhigh : 2 * fUnits a ≤ fUnits hi) : Between lo hi (fmul TWO a) := by
  have hexact : fUnits TWO * fUnits a = 2 * fUnits a * (2 ^ 149 : Nat) := by rw [fUnits_TWO]; push_cast; ring
  refine between_of_fKey (fKey_fmul (by decide) ha) (Nat.two_pow_pos 149) hlo hhi ?_ ?_
  · rw [hexact]
    exact mul_le_mul_of_nonneg_right hlow (by positivity)
  · rw [hexact]
    exact mul_le_mul_of_nonneg_right hhigh (by positivity)

end

theorem fMag_fabs (a : Word) : fMag (fabs a) = fMag a := by
  rw [fMag, toNat_fabs, fMag, Nat.mod_mod]

theorem fSign_fabs (a : Word) : fSign (fabs a) = false := by
  have hlt := fMag_lt a
  rw [fSign, toNat_fabs, decide_eq_false_iff_not, not_le]
  exact hlt

theorem fUnits_fabs (a : Word) : fUnits (fabs a) = (fUnits a).natAbs := by
  rw [natAbs_fUnits, fUnits, fSign_fabs, fMag_fabs]
  rfl

theorem fKey_fabs (a : Word) : fKey (fabs a) = fMag a := by
  rw [fKey, fSign_fabs, fMag_fabs]
  rfl

theorem isFinite_fabs (a : Word) : isFinite (fabs a) = isFinite a := by rw [isFinite, fMag_fabs, isFinite]

/-! ## From the fraction to Saw and Triangle -/

/-- The word before +1.0. -/
def belowOne : Word := 0x3F7FFFFF
/-- The word before +0.5. -/
def belowHalf : Word := 0x3EFFFFFF
/-- -0.5. -/
def negHalf : Word := 0xBF000000

theorem fUnits_belowOne : fUnits belowOne = 2 ^ 149 - 2 ^ 125 := by decide
theorem fUnits_belowHalf : fUnits belowHalf = 2 ^ 148 - 2 ^ 124 := by decide
theorem fUnits_negHalf : fUnits negHalf = -2 ^ 148 := by decide

theorem inSignedUnit_of_between {v : Word} (h : Between NEG1 ONE v) : inSignedUnit v := by
  obtain ⟨hfin, hlow, hhigh⟩ := h
  have hnan := isNaN_of_isFinite hfin
  exact ⟨fge_iff.2 ⟨hnan, by decide, (fKey_le_iff NEG1 v).2 hlow⟩,
    fle_iff.2 ⟨hnan, by decide, (fKey_le_iff v ONE).2 hhigh⟩⟩

/-- A fraction in [-0.5, 0.5) doubles to a Saw in [-1, 1). -/
theorem between_waveSaw {p : Word} (h : Between negHalf belowHalf (cycleFraction p)) :
    Between NEG1 belowOne (waveSaw p) := by
  obtain ⟨hfin, hlow, hhigh⟩ := h
  rw [fUnits_negHalf] at hlow
  rw [fUnits_belowHalf] at hhigh
  exact between_double hfin (by decide) (by decide) (by rw [fUnits_NEG1]; omega) (by rw [fUnits_belowOne]; omega)

theorem flt_ONE_of_between {v : Word} (h : Between NEG1 belowOne v) : flt v ONE = true := by
  obtain ⟨hfin, -, hhigh⟩ := h
  have hlast : fUnits belowOne < fUnits ONE := by decide
  exact flt_iff.2 ⟨isNaN_of_isFinite hfin, by decide, (fKey_lt_iff v ONE).2 (hhigh.trans_lt hlast)⟩

theorem between_ONE_of_between {v : Word} (h : Between NEG1 belowOne v) : Between NEG1 ONE v := by
  obtain ⟨hfin, hlow, hhigh⟩ := h
  have hlast : fUnits belowOne ≤ fUnits ONE := by decide
  exact ⟨hfin, hlow, hhigh.trans hlast⟩

theorem waveTriangle_eq (p : Word) : waveTriangle p = fsub (fmul TWO (fabs (waveSaw p))) ONE := rfl

/-- A Saw in [-1, 1] folds to a Triangle in [-1, 1]. -/
theorem between_waveTriangle {p : Word} (h : Between NEG1 ONE (waveSaw p)) : Between NEG1 ONE (waveTriangle p) := by
  obtain ⟨hfin, hlow, hhigh⟩ := h
  have habs := fUnits_fabs (waveSaw p)
  rw [fUnits_NEG1] at hlow
  rw [fUnits_ONE] at hhigh
  obtain ⟨hfin2, hlow2, hhigh2⟩ : Between posZero TWO (fmul TWO (fabs (waveSaw p))) :=
    between_double ((isFinite_fabs _).trans hfin) (by decide) (by decide) (by rw [fUnits_posZero]; omega)
      (by rw [fUnits_TWO]; omega)
  rw [fUnits_posZero] at hlow2
  rw [fUnits_TWO] at hhigh2
  rw [waveTriangle_eq]
  exact between_fsub hfin2 (by decide) (by decide) (by decide) (by rw [fUnits_NEG1, fUnits_ONE]; omega)
    (by rw [fUnits_ONE]; omega)

theorem waves_of_cycleFraction_posZero {p : Word} (h : cycleFraction p = posZero) :
    waveSaw p = 0x00000000 ∧ waveTriangle p = 0xBF800000 := by
  rw [waveTriangle_eq, waveSaw, h]
  decide

theorem waves_of_cycleFraction_NEG1 {p : Word} (h : cycleFraction p = NEG1) :
    waveSaw p = 0xC0000000 ∧ waveTriangle p = 0x40400000 := by
  rw [waveTriangle_eq, waveSaw, h]
  decide

theorem waves_of_cycleFraction_nan {p : Word} (h : cycleFraction p = canonNaN) :
    waveSaw p = canonNaN ∧ waveTriangle p = canonNaN := by
  rw [waveTriangle_eq, waveSaw, h]
  decide

/-! ## The unit of a binade -/

/-- A normal pattern of binade e + 1 is a whole number q of units 2^e, with q of 24 bits. -/
theorem exists_binade {m : Nat} (h : 2 ^ 23 ≤ m) :
    ∃ e q, m = e * 2 ^ 23 + q ∧ 2 ^ 23 ≤ q ∧ q < 2 ^ 24 ∧ magUnits m = q * 2 ^ e := by
  have hm : m = (m / 2 ^ 23 - 1) * 2 ^ 23 + (m % 2 ^ 23 + 2 ^ 23) := by omega
  refine ⟨m / 2 ^ 23 - 1, m % 2 ^ 23 + 2 ^ 23, hm, by omega, by omega, ?_⟩
  conv_lhs => rw [hm]
  exact magUnits_binade _ _ (by omega) (by omega)

/-- A value from binade e + 1 on is a whole number of units 2^e. -/
theorem two_pow_dvd_fUnits {a : Word} {e : Nat} (h : e * 2 ^ 23 + 2 ^ 23 ≤ fMag a) : (2 ^ e : Int) ∣ fUnits a := by
  obtain ⟨f, q, hm, -, hq, hunits⟩ := exists_binade (m := fMag a) (by omega)
  rw [← Int.dvd_natAbs, natAbs_fUnits, hunits]
  exact_mod_cast Dvd.dvd.mul_left (pow_dvd_pow 2 (by omega)) _

/-- The pattern of 2^23, where the band begins, in units. -/
theorem band_le_fMag_iff {a : Word} : 150 * 2 ^ 23 ≤ fMag a ↔ 2 ^ 172 ≤ (fUnits a).natAbs := by
  have hfirst : magUnits (150 * 2 ^ 23) = 2 ^ 172 := by decide
  rw [natAbs_fUnits, ← hfirst, magUnits_le_iff]

/-- A whole number of at most 2^24 units 2^e is the value of a finite word. -/
theorem exists_magUnits_mul_two_pow {e : Nat} (he : e ≤ 252) {q : Nat} (hq : q ≤ 2 ^ 24) :
    ∃ m < infMag, magUnits m = q * 2 ^ e := by
  induction e generalizing q with
  | zero =>
    refine ⟨q, by rw [infMag_eq]; omega, ?_⟩
    have hunits := magUnits_binade 0 q (fun h => absurd rfl h) hq
    rwa [zero_mul, zero_add] at hunits
  | succ e ih =>
    rcases Nat.lt_or_ge q (2 ^ 23) with hsmall | hlarge
    · obtain ⟨m, hm, hunits⟩ := ih (by omega) (q := 2 * q) (by omega)
      exact ⟨m, hm, by rw [hunits, pow_succ]; ring⟩
    · exact ⟨(e + 1) * 2 ^ 23 + q, by rw [infMag_eq]; omega, magUnits_binade _ _ (fun _ => hlarge) hq⟩

theorem exists_fUnits_mul_two_pow {e : Nat} (he : e ≤ 252) {q : Int} (hq : q.natAbs ≤ 2 ^ 24) :
    ∃ r : Word, isFinite r = true ∧ fUnits r = q * 2 ^ e := by
  obtain ⟨m, hm, hunits⟩ := exists_magUnits_mul_two_pow he hq
  have hlt := hm.trans infMag_lt
  refine ⟨pack (decide (q < 0)) m, by rwa [isFinite_iff, fMag_pack hlt], ?_⟩
  rw [fUnits_pack _ hlt, hunits]
  push_cast
  rw [← mul_assoc, ← Int.natCast_natAbs, sign_natAbs]

/-! ## The fraction below the band -/

/-- floor(t + 0.5), the whole number of cycles taken from t. -/
def cycleFloor (t : Word) : Word := ffloor (fadd t HALF)

theorem cycleFraction_eq (p : Word) : cycleFraction p = fsub (fdiv p TWO_PI) (cycleFloor (fdiv p TWO_PI)) := rfl

/-- The floor of a finite sum is finite and exact. -/
theorem cycleFloor_finite {t : Word} (h : isFinite (fadd t HALF) = true) :
    isFinite (cycleFloor t) = true ∧ fUnits (cycleFloor t) = fUnits (fadd t HALF) / 2 ^ 149 * 2 ^ 149 :=
  ffloor_finite h

section
variable {t r : Word}

theorem fUnits_fadd_HALF_le (ht : isFinite t = true) (hr : isFinite r = true) (h : fUnits t + 2 ^ 148 ≤ fUnits r) :
    fUnits (fadd t HALF) ≤ fUnits r := by
  rw [← fKey_le_iff, fKey_fadd ht (by decide)]
  exact rKey_le one_pos hr (by rw [fUnits_HALF]; simpa using h)

theorem le_fUnits_fadd_HALF (ht : isFinite t = true) (hr : isFinite r = true) (h : fUnits r ≤ fUnits t + 2 ^ 148) :
    fUnits r ≤ fUnits (fadd t HALF) := by
  rw [← fKey_le_iff, fKey_fadd ht (by decide)]
  exact le_rKey one_pos hr (by rw [fUnits_HALF]; simpa using h)

/-- Below 0.5 in magnitude no cycle is taken, but for the word before +0.5, whose sum with 0.5 rounds to 1. -/
theorem fraction_bounds_small (hmag : fMag t < 126 * 2 ^ 23) :
    isFinite (cycleFloor t) = true ∧ -(2 ^ 148 + 2 ^ 124) ≤ fUnits t - fUnits (cycleFloor t) ∧
      fUnits t - fUnits (cycleFloor t) ≤ 2 ^ 148 - 2 ^ 124 := by
  have ht : isFinite t = true := isFinite_of_fMag_le (by omega)
  have hunits := natAbs_fUnits t
  have hlast : magUnits (126 * 2 ^ 23 - 1) = 2 ^ 148 - 2 ^ 124 := by decide
  have hbound : magUnits (fMag t) ≤ magUnits (126 * 2 ^ 23 - 1) := magUnits_le_iff.2 (by omega)
  rw [hlast] at hbound
  obtain ⟨hfin, hlow, hhigh⟩ : Between posZero ONE (fadd t HALF) :=
    between_fadd ht (by decide) (by decide) (by decide) (by rw [fUnits_posZero, fUnits_HALF]; omega)
      (by rw [fUnits_ONE, fUnits_HALF]; omega)
  obtain ⟨hffin, hfloor⟩ := cycleFloor_finite hfin
  rw [fUnits_posZero] at hlow
  rw [fUnits_ONE] at hhigh
  refine ⟨hffin, ?_⟩
  rw [hfloor]
  have hcases : fUnits t ≤ 2 ^ 148 - 2 ^ 125 ∨ fUnits t = 2 ^ 148 - 2 ^ 124 := by
    rcases Nat.lt_or_ge (fMag t) (126 * 2 ^ 23 - 1) with hlt | hge
    · have hnext : magUnits (126 * 2 ^ 23 - 2) = 2 ^ 148 - 2 ^ 125 := by decide
      have hbound' : magUnits (fMag t) ≤ magUnits (126 * 2 ^ 23 - 2) := magUnits_le_iff.2 (by omega)
      omega
    · rw [show fMag t = 126 * 2 ^ 23 - 1 by omega, hlast] at hunits
      omega
  rcases hcases with hle | heq
  · have hbelow : fUnits (fadd t HALF) ≤ fUnits belowOne :=
      fUnits_fadd_HALF_le ht (by decide) (by rw [fUnits_belowOne]; omega)
    rw [fUnits_belowOne] at hbelow
    omega
  · omega

/-- From 0.5 to the band: a whole number a of units 2^e, with 0.5 a whole number of them too. -/
theorem fUnits_of_middle (hlow : 126 * 2 ^ 23 ≤ fMag t) (hhigh : fMag t < 150 * 2 ^ 23) :
    ∃ (e i : Nat) (a : Int), e + i = 148 ∧ i ≤ 23 ∧ a.natAbs < 2 ^ 24 ∧ fUnits t = a * 2 ^ e := by
  obtain ⟨e, q, hm, hq, hq', hunits⟩ := exists_binade (m := fMag t) (by omega)
  refine ⟨e, 148 - e, (if fSign t then -1 else 1) * q, by omega, by omega, ?_, ?_⟩
  · cases fSign t <;> simpa using hq'
  · rw [fUnits_eq, hunits, Nat.cast_mul, Nat.cast_pow, Nat.cast_ofNat, mul_assoc]

/-- Where t + 0.5, a + 2^i units 2^e, is below a whole number k, a word stands between: the sum itself where it has 24
bits, else the last sum from this binade, which is below the next whole number. -/
theorem exists_word_below_whole {e i : Nat} {a k : Int} (he : e ≤ 148) (hi : i ≤ 23) (ha : a.natAbs < 2 ^ 24)
    (hcount : a + 2 ^ i < 2 * 2 ^ i * k) :
    ∃ r : Word, isFinite r = true ∧ (a + 2 ^ i) * 2 ^ e ≤ fUnits r ∧ fUnits r < 2 * 2 ^ i * k * 2 ^ e := by
  have hunit : (0 : Int) < 2 ^ e := by positivity
  have hhalf : (0 : Int) < 2 ^ i := by positivity
  rcases le_or_gt (a + 2 ^ i) (2 ^ 24) with hfit | hwide
  · obtain ⟨r, hr, hval⟩ := exists_fUnits_mul_two_pow (e := e) (q := a + 2 ^ i) (by omega) (by omega)
    exact ⟨r, hr, hval.ge, hval ▸ mul_lt_mul_of_pos_right hcount hunit⟩
  · obtain ⟨j, rfl⟩ : ∃ j, i = j + 1 := Nat.exists_eq_succ_of_ne_zero (by rintro rfl; omega)
    have hj : (2 : Int) ^ j ≤ 2 ^ 22 := pow_le_pow_right₀ (by norm_num) (by omega)
    have hcycles : (2 : Int) ^ 24 = 2 * 2 ^ (j + 1) * 2 ^ (22 - j) := by
      rw [mul_assoc, ← pow_add, ← pow_succ']
      congr 1
      omega
    have hnext : 2 ^ (22 - j) + 1 ≤ k :=
      lt_of_mul_lt_mul_left (hcycles ▸ hwide.trans hcount) (by positivity)
    have hroom : (2 : Int) ^ 24 + 2 * 2 ^ (j + 1) ≤ 2 * 2 ^ (j + 1) * k := by
      calc (2 : Int) ^ 24 + 2 * 2 ^ (j + 1) = 2 * 2 ^ (j + 1) * (2 ^ (22 - j) + 1) := by rw [hcycles]; ring
        _ ≤ 2 * 2 ^ (j + 1) * k := mul_le_mul_of_nonneg_left hnext (by positivity)
    obtain ⟨r, hr, hval⟩ := exists_fUnits_mul_two_pow (e := e + 1) (q := 2 ^ 23 + 2 ^ j) (by omega) (by omega)
    have hval' : fUnits r = (2 ^ 24 + 2 ^ (j + 1)) * 2 ^ e := by rw [hval]; ring
    refine ⟨r, hr, ?_, ?_⟩
    · rw [hval']
      exact mul_le_mul_of_nonneg_right (by omega) hunit.le
    · rw [hval']
      exact mul_lt_mul_of_pos_right (by omega) hunit

/-- From 0.5 to the band the rounding of t + 0.5 reaches no whole number above it: the floor is exact. -/
theorem floor_le_of_middle (ht : isFinite t = true) {e i : Nat} {a k : Int} (hei : e + i = 148) (hi : i ≤ 23)
    (ha : a.natAbs < 2 ^ 24) (hunits : fUnits t = a * 2 ^ e) (hk : k * 2 ^ 149 ≤ fUnits (fadd t HALF)) :
    k * 2 ^ 149 ≤ fUnits t + 2 ^ 148 := by
  have hhalf : (2 : Int) ^ 148 = 2 ^ i * 2 ^ e := by rw [← pow_add, add_comm i, hei]
  have hwhole : k * 2 ^ 149 = 2 * 2 ^ i * k * 2 ^ e := by rw [pow_succ, hhalf]; ring
  have hsum : fUnits t + 2 ^ 148 = (a + 2 ^ i) * 2 ^ e := by rw [hunits, hhalf]; ring
  by_contra hgt
  rw [not_le, hsum, hwhole] at hgt
  obtain ⟨r, hr, hle, hlt⟩ :=
    exists_word_below_whole (e := e) (by omega) hi ha (lt_of_mul_lt_mul_right hgt (by positivity))
  have hbelow := fUnits_fadd_HALF_le ht hr (hsum.trans_le hle)
  rw [← hwhole] at hlt
  omega

/-- From 0.5 to the band the floor is exact, and t - floor(t + 0.5) is from -0.5 to the word before +0.5. -/
theorem fraction_bounds_middle (hlow : 126 * 2 ^ 23 ≤ fMag t) (hhigh : fMag t < 150 * 2 ^ 23) :
    isFinite (cycleFloor t) = true ∧ -(2 ^ 148 + 2 ^ 124) ≤ fUnits t - fUnits (cycleFloor t) ∧
      fUnits t - fUnits (cycleFloor t) ≤ 2 ^ 148 - 2 ^ 124 := by
  have ht : isFinite t = true := isFinite_of_fMag_le (by omega)
  obtain ⟨e, i, a, hei, hi, ha, hunits⟩ := fUnits_of_middle hlow hhigh
  have hbound : (fUnits t).natAbs < 2 ^ 172 := not_le.1 (mt band_le_fMag_iff.2 (not_le.2 hhigh))
  have hloval : fUnits 0xCB000000 = -2 ^ 172 := by decide
  have hhival : fUnits 0x4B800000 = 2 ^ 173 := by decide
  obtain ⟨hfin, hslow, hshigh⟩ : Between 0xCB000000 0x4B800000 (fadd t HALF) :=
    between_fadd ht (by decide) (by decide) (by decide) (by rw [hloval, fUnits_HALF]; omega)
      (by rw [hhival, fUnits_HALF]; omega)
  rw [hloval] at hslow
  obtain ⟨hffin, hfloor⟩ := cycleFloor_finite hfin
  obtain ⟨k, hk⟩ : ∃ k, fUnits (fadd t HALF) / 2 ^ 149 = k := ⟨_, rfl⟩
  rw [hk] at hfloor
  have hbelow := floor_le_of_middle ht hei hi ha hunits (k := k) (by omega)
  have habove : fUnits t + 2 ^ 148 < (k + 1) * 2 ^ 149 := by
    by_contra hge
    obtain ⟨r, hr, hval⟩ := exists_fUnits_mul_two_pow (e := 149) (q := k + 1) (by omega) (by omega)
    have := le_fUnits_fadd_HALF ht hr (by omega)
    omega
  refine ⟨hffin, ?_⟩
  rw [hfloor]
  -- the fraction and 0.5 are whole numbers of units 2^124, so less is less by one of them
  have hdvd : (2 ^ 124 : Int) ∣ fUnits t := two_pow_dvd_fUnits (by omega)
  omega

/-- Below the band the fraction is in [-0.5, 0.5). -/
theorem between_fraction (hmag : fMag t < 150 * 2 ^ 23) : Between negHalf belowHalf (fsub t (cycleFloor t)) := by
  have ht : isFinite t = true := isFinite_of_fMag_le (by omega)
  obtain ⟨hfin, hlow, hhigh⟩ := (Nat.lt_or_ge (fMag t) (126 * 2 ^ 23)).elim fraction_bounds_small
    (fraction_bounds_middle · hmag)
  have hround : rKey (-(2 ^ 148 + 2 ^ 124)) 1 = fKey negHalf := by decide
  have hge : fKey negHalf ≤ fKey (fsub t (cycleFloor t)) := by
    rw [← hround, fKey_fsub ht hfin]
    exact rKey_mono one_pos one_pos (by simpa using hlow)
  have hle : fKey (fsub t (cycleFloor t)) ≤ fKey belowHalf := by
    rw [fKey_fsub ht hfin]
    exact rKey_le one_pos (by decide) (by rw [fUnits_belowHalf]; simpa using hhigh)
  exact between_of_fKey_le (by decide) (by decide) hge hle

end

/-! ## Whole numbers of 2^23 and more -/

theorem eq_of_fUnits_eq {a b : Word} (h : fUnits a = fUnits b) (h0 : fUnits b ≠ 0) : a = b := by
  have hzero := fKey_pos_iff b
  have hnonneg := fKey_nonneg_iff b
  exact eq_of_fKey_eq (le_antisymm ((fKey_le_iff a b).2 h.le) ((fKey_le_iff b a).2 h.ge)) (by omega)

section
variable {a : Word} {k : Int}

/-- A whole number k of 24 bits is the significand of its pattern. -/
theorem fMag_of_whole (hunits : fUnits a = k * 2 ^ 149) (hlow : 2 ^ 23 ≤ k.natAbs) (hhigh : k.natAbs ≤ 2 ^ 24) :
    fMag a = 149 * 2 ^ 23 + k.natAbs := by
  apply magUnits_strictMono.injective
  rw [magUnits_binade 149 k.natAbs (fun _ => hlow) hhigh, ← natAbs_fUnits, hunits, Int.natAbs_mul]
  rfl

theorem toNat_mod_two_of_whole (hunits : fUnits a = k * 2 ^ 149) (hlow : 2 ^ 23 ≤ k.natAbs)
    (hhigh : k.natAbs < 2 ^ 24) : a.toNat % 2 = k.natAbs % 2 := by
  rw [toNat_mod_two, fMag_of_whole hunits hlow hhigh.le]
  omega

/-- From 2^24 on only even whole numbers are values. -/
theorem even_of_whole (hunits : fUnits a = k * 2 ^ 149) (hlow : 2 ^ 24 ≤ k.natAbs) : k % 2 = 0 := by
  have hlim : magUnits (151 * 2 ^ 23) = 2 ^ 173 := by decide
  have hmag : 151 * 2 ^ 23 ≤ fMag a := by
    rw [← magUnits_le_iff, hlim, ← natAbs_fUnits]
    omega
  have hdvd := two_pow_dvd_fUnits (e := 150) (a := a) (by omega)
  omega

end

/-! ## The fraction in the band -/

section
variable {t : Word} {k : Int}

/-- t + 0.5 is rounded to a nearest word, and to an even one where another is as near. -/
theorem fadd_HALF_nearest (ht : isFinite t = true) (hs : isFinite (fadd t HALF) = true) {q : Word}
    (hq : isFinite q = true) :
    (fUnits (fadd t HALF) - (fUnits t + 2 ^ 148)).natAbs ≤ (fUnits q - (fUnits t + 2 ^ 148)).natAbs ∧
      ((fUnits q - (fUnits t + 2 ^ 148)).natAbs = (fUnits (fadd t HALF) - (fUnits t + 2 ^ 148)).natAbs →
        fUnits q ≠ fUnits (fadd t HALF) → (fadd t HALF).toNat % 2 = 0) := by
  have hdist (r : Word) : |fRat r - (fRat t + fRat HALF)| =
      ((fUnits r - (fUnits t + 2 ^ 148)).natAbs : ℚ) / 2 ^ 149 := by
    rw [fRat_add, fRat, ← sub_div, abs_div, abs_of_pos (by positivity : (0 : ℚ) < 2 ^ 149), fUnits_HALF,
      Nat.cast_natAbs, Int.cast_abs, Int.cast_sub]
  have hpos : (0 : ℚ) < 2 ^ 149 := by positivity
  obtain ⟨-, hround⟩ := roundsTo_fadd ht (b := HALF) (by decide)
  rw [isInf_of_isFinite hs] at hround
  split at hround
  · cases hround
  · obtain ⟨-, hnear, heven⟩ := hround
    have hnearq := hnear q hq
    have hevenq := heven q hq
    rw [hdist, hdist, div_le_div_iff_of_pos_right hpos, Nat.cast_le] at hnearq
    rw [hdist, hdist, div_left_inj' hpos.ne', Nat.cast_inj, fRat, fRat, Ne, div_left_inj' hpos.ne', Int.cast_inj]
      at hevenq
    exact ⟨hnearq, hevenq⟩

/-- The sum with 0.5 of a whole number t = k of the band is finite and from k to k + 1. -/
theorem fadd_HALF_of_whole (hunits : fUnits t = k * 2 ^ 149) (hmag : fMag t ≤ 0x7F000000) :
    isFinite (fadd t HALF) = true ∧ k * 2 ^ 149 ≤ fUnits (fadd t HALF) ∧
      fUnits (fadd t HALF) ≤ (k + 1) * 2 ^ 149 := by
  have ht : isFinite t = true := isFinite_of_fMag_le hmag
  have hlim : magUnits 0x7F000000 = 2 ^ 23 * 2 ^ 253 := by decide
  have hmax : fUnits 0x7F7FFFFF = (2 ^ 24 - 1) * 2 ^ 253 := by decide
  have hbound : magUnits (fMag t) ≤ magUnits 0x7F000000 := magUnits_le_iff.2 hmag
  have habs := natAbs_fUnits t
  rw [hlim] at hbound
  obtain ⟨hfin, hlow, -⟩ : Between t 0x7F7FFFFF (fadd t HALF) :=
    between_fadd ht (by decide) ht (by decide) (by rw [fUnits_HALF]; omega) (by rw [fUnits_HALF, hmax]; omega)
  have hnear := (fadd_HALF_nearest ht hfin ht).1
  exact ⟨hfin, by omega, by omega⟩

/-- k + 0.5 rounds to k + 1 for an odd k of 24 bits: k + 1 is the even neighbour. -/
theorem fadd_HALF_of_odd (hunits : fUnits t = k * 2 ^ 149) (hmag : fMag t ≤ 0x7F000000) (hlow : 2 ^ 23 ≤ k.natAbs)
    (hodd : k % 2 = 1) (hhigh : k.natAbs < 2 ^ 24) : fUnits (fadd t HALF) = (k + 1) * 2 ^ 149 := by
  have ht : isFinite t = true := isFinite_of_fMag_le hmag
  obtain ⟨hfin, hge, hle⟩ := fadd_HALF_of_whole hunits hmag
  obtain ⟨q, hq, hqval⟩ := exists_fUnits_mul_two_pow (e := 149) (q := k + 1) (by omega) (by omega)
  obtain ⟨-, heven⟩ := fadd_HALF_nearest ht hfin hq
  have hdvd : (2 ^ 149 : Int) ∣ fUnits (fadd t HALF) := fUnits_dvd_of_large (band_le_fMag_iff.2 (by omega))
  by_contra hne
  have hdown : fUnits (fadd t HALF) = k * 2 ^ 149 := by omega
  have hparity := toNat_mod_two_of_whole hdown hlow hhigh
  have := heven (by omega) (by omega)
  omega

/-- k + 0.5 does not round to k + 1 for any other k of the band: k + 1 is odd, or no value at all. -/
theorem fadd_HALF_ne_of_not_odd (hunits : fUnits t = k * 2 ^ 149) (hmag : fMag t ≤ 0x7F000000)
    (hlow : 2 ^ 23 ≤ k.natAbs) (hnot : ¬ (k % 2 = 1 ∧ k.natAbs < 2 ^ 24)) :
    fUnits (fadd t HALF) ≠ (k + 1) * 2 ^ 149 := by
  have ht : isFinite t = true := isFinite_of_fMag_le hmag
  obtain ⟨hfin, -, -⟩ := fadd_HALF_of_whole hunits hmag
  have hkeven : k % 2 = 0 := by
    rcases Nat.lt_or_ge k.natAbs (2 ^ 24) with h | h
    · omega
    · exact even_of_whole hunits h
  intro hup
  have heven := (fadd_HALF_nearest ht hfin ht).2 (by omega) (by omega)
  rcases Nat.lt_or_ge (k + 1).natAbs (2 ^ 23) with hsmall | hlarge
  · -- k is -2^23, and k + 0.5 is a value itself
    have hval : fUnits 0xCAFFFFFF = -2 ^ 172 + 2 ^ 148 := by decide
    have hnear := (fadd_HALF_nearest ht hfin (q := 0xCAFFFFFF) (by decide)).1
    omega
  · rcases Nat.lt_or_ge (k + 1).natAbs (2 ^ 24) with h | h
    · have := toNat_mod_two_of_whole hup hlarge h
      omega
    · have := even_of_whole hup h
      omega

theorem fraction_of_odd (hunits : fUnits t = k * 2 ^ 149) (hmag : fMag t ≤ 0x7F000000) (hlow : 2 ^ 23 ≤ k.natAbs)
    (hodd : k % 2 = 1) (hhigh : k.natAbs < 2 ^ 24) : fsub t (cycleFloor t) = NEG1 := by
  have ht : isFinite t = true := isFinite_of_fMag_le hmag
  have hsum := fadd_HALF_of_odd hunits hmag hlow hodd hhigh
  obtain ⟨hffin, hfloor⟩ := cycleFloor_finite (fadd_HALF_of_whole hunits hmag).1
  have hdiff : fUnits t - fUnits (cycleFloor t) = -2 ^ 149 := by
    rw [hfloor]
    omega
  apply eq_of_fKey_eq
  · rw [fKey_fsub ht hffin, hdiff]
    decide
  · decide

theorem fraction_of_not_odd (hunits : fUnits t = k * 2 ^ 149) (hmag : fMag t ≤ 0x7F000000)
    (hlow : 2 ^ 23 ≤ k.natAbs) (hnot : ¬ (k % 2 = 1 ∧ k.natAbs < 2 ^ 24)) : fsub t (cycleFloor t) = posZero := by
  have ht : isFinite t = true := isFinite_of_fMag_le hmag
  have hne := fadd_HALF_ne_of_not_odd hunits hmag hlow hnot
  obtain ⟨hfin, hge, hle⟩ := fadd_HALF_of_whole hunits hmag
  have hself : cycleFloor t = t := by
    apply eq_of_fUnits_eq
    · rw [(cycleFloor_finite hfin).2]
      omega
    · omega
  rw [hself, fsub_self ht]

end

/-! ## The phase in cycles -/

theorem fMag_fdiv_mono {a b c : Word} (ha : isFinite a = true) (hb : isFinite b = true) (hc : isFinite c = true)
    (h0 : isZero c = false) (h : fMag a ≤ fMag b) : fMag (fdiv a c) ≤ fMag (fdiv b c) := by
  have hpos := magUnits_pos_of_not_isZero h0
  rw [fdiv_finite ha hc h0, fdiv_finite hb hc h0, fMag_pack (roundMag_lt _ _), fMag_pack (roundMag_lt _ _)]
  exact roundMag_mono hpos hpos (Nat.mul_le_mul_right _ (Nat.mul_le_mul_right _ (magUnits_le_iff.2 h)))

section
variable {p : Word}

theorem fMag_cycles_le (hp : isFinite p = true) : fMag (fdiv p TWO_PI) ≤ 0x7F000000 := by
  have hmax : fMag (fdiv 0x7F7FFFFF TWO_PI) ≤ 0x7F000000 := by decide
  have hlast : fMag 0x7F7FFFFF = infMag - 1 := by decide
  rw [isFinite_iff] at hp
  exact (fMag_fdiv_mono (isFinite_iff.2 hp) (by decide) (by decide) (by decide) (by omega)).trans hmax

/-- Below 52707184.0 the phase is at most 2^23 cycles. -/
theorem fMag_cycles_le_of_below (h : flt (fabs p) 0x4C490FDC = true) : fMag (fdiv p TWO_PI) ≤ 150 * 2 ^ 23 := by
  have hlast : fMag (fdiv 0x4C490FDB TWO_PI) = 150 * 2 ^ 23 := by decide
  have hbandKey : fKey 0x4C490FDC = 0x4C490FDC := by decide
  have hlastMag : fMag 0x4C490FDB = 0x4C490FDB := by decide
  have hkey := (flt_iff.1 h).2.2
  rw [fKey_fabs, hbandKey] at hkey
  rw [← hlast]
  exact fMag_fdiv_mono (isFinite_of_fMag_le (by omega)) (by decide) (by decide) (by decide) (by omega)

/-- From 52707184.0 on the phase is 2^23 cycles or more. -/
theorem le_fMag_cycles_of_band (hp : isFinite p = true) (h : fle 0x4C490FDC (fabs p) = true) :
    150 * 2 ^ 23 ≤ fMag (fdiv p TWO_PI) := by
  have hfirst : 150 * 2 ^ 23 ≤ fMag (fdiv 0x4C490FDC TWO_PI) := by decide
  have hbandKey : fKey 0x4C490FDC = 0x4C490FDC := by decide
  have hbandMag : fMag 0x4C490FDC = 0x4C490FDC := by decide
  have hkey := (fle_iff.1 h).2.2
  rw [fKey_fabs, hbandKey] at hkey
  exact hfirst.trans (fMag_fdiv_mono (by decide) hp (by decide) (by decide) (by omega))

/-- The phase of the band is a whole number of cycles. -/
theorem exists_whole_of_le_fMag {t : Word} (h : 150 * 2 ^ 23 ≤ fMag t) :
    ∃ k : Int, fUnits t = k * 2 ^ 149 ∧ 2 ^ 23 ≤ k.natAbs := by
  obtain ⟨k, hk⟩ := fUnits_dvd_of_large h
  have hbound := band_le_fMag_iff.1 h
  exact ⟨k, by rw [hk, mul_comm], by omega⟩

/-! ## Below the band (R97) -/

theorem between_waveSaw_of_below (h : flt (fabs p) 0x4C490FDC = true) : Between NEG1 belowOne (waveSaw p) := by
  rcases (fMag_cycles_le_of_below h).lt_or_eq with hlt | heq
  · exact between_waveSaw (between_fraction hlt)
  · -- 2^23 cycles, an even number, already divide to a value of the band
    obtain ⟨k, hunits, hlow⟩ := exists_whole_of_le_fMag heq.ge
    have hparity : ¬ (k % 2 = 1 ∧ k.natAbs < 2 ^ 24) := by
      rintro ⟨hodd, hhigh⟩
      have := fMag_of_whole hunits hlow hhigh.le
      omega
    have hfraction : cycleFraction p = posZero := fraction_of_not_odd hunits (by omega) hlow hparity
    rw [(waves_of_cycleFraction_posZero hfraction).1]
    exact ⟨by decide, by decide, by decide⟩

end

/-- Settles O60: below the band the fraction is in [-0.5, 0.5), so Saw is in [-1, 1) and Triangle in [-1, 1]. -/
theorem wavesInRangeBelowBand : Obligations.WavesInRangeBelowBand := by
  refine ⟨fun p => inSignedUnit_sin32Of Config.sinRaw, waveSquare_eq, fun p h => ?_⟩
  have hsaw := between_waveSaw_of_below h
  exact ⟨inSignedUnit_of_between (between_waveTriangle (between_ONE_of_between hsaw)),
    inSignedUnit_of_between (between_ONE_of_between hsaw), flt_ONE_of_between hsaw⟩

/-- A phase in [0, TWO_PI) is finite and below the band. -/
theorem below_band_of_inPhase {p : Word} (h : inPhase p) : isFinite p = true ∧ flt (fabs p) 0x4C490FDC = true := by
  obtain ⟨hge, hlt⟩ := h
  have hnonneg := (fge_iff.1 hge).2.2
  have hbelow := (flt_iff.1 hlt).2.2
  have hkey : fKey TWO_PI = 0x40C90FDB := by decide
  have hband : fKey 0x4C490FDC = 0x4C490FDC := by decide
  have habs := natAbs_fKey p
  rw [fKey_posZero] at hnonneg
  have hfin : isFinite p = true := isFinite_of_fMag_le (by omega)
  exact ⟨hfin, flt_iff.2 ⟨isNaN_of_isFinite ((isFinite_fabs p).trans hfin), by decide,
    by rw [fKey_fabs]; omega⟩⟩

/-- Settles O34: the phases of [0, TWO_PI) are below the band. -/
theorem wavesInRangeOnPhase : Obligations.WavesInRangeOnPhase := by
  intro k p hp
  obtain ⟨hfin, hbelow⟩ := below_band_of_inPhase hp
  obtain ⟨hsine, hsquare, hramps⟩ := wavesInRangeBelowBand
  obtain ⟨htriangle, hsaw, hone⟩ := hramps p hbelow
  refine ⟨?_, hone⟩
  cases k with
  | sine => exact hsine p hfin
  | square =>
    rcases hsquare p with h | h
    · rw [h]
      exact ⟨by decide, by decide⟩
    · rw [h]
      exact ⟨by decide, by decide⟩
  | triangle => exact htriangle
  | saw => exact hsaw

/-! ## Infinite and NaN phases, and the band (R97) -/

/-- An infinity divides to an infinity and a NaN to a NaN; the fraction of either is a NaN. -/
theorem cycleFraction_of_not_finite {p : Word} (h : isFinite p = false) : cycleFraction p = canonNaN := by
  rw [cycleFraction_eq, cycleFloor]
  cases hnan : isNaN p
  · have hinf : isInf p = true := by simpa [isFinite_eq, hnan] using h
    rw [(fdiv_inf_finite hinf isFinite_TWO_PI).1]
    cases fSign p <;> decide
  · rw [fdiv_nan_left hnan, fsub_nan_left isNaN_canonNaN]

/-- Settles O33: the phase of the band is a whole number k of cycles, and k + 0.5 rounds to k + 1 for the odd k of 24
bits alone. -/
theorem brokenPhaseWaves : Obligations.BrokenPhaseWaves := by
  refine ⟨fun p h => ?_, fun p hp hband => ?_, by decide⟩
  · have hsine : sin32 p = canonNaN := sin32Of_not_finite Config.sinRaw h
    obtain ⟨hsaw, htriangle⟩ := waves_of_cycleFraction_nan (cycleFraction_of_not_finite h)
    exact ⟨hsine, htriangle, hsaw, waveSquare_of_tie (.inr (by rw [hsine, isNaN_canonNaN]))⟩
  · have hmag := fMag_cycles_le hp
    obtain ⟨k, hunits, hlow⟩ := exists_whole_of_le_fMag (le_fMag_cycles_of_band hp hband)
    refine ⟨k, isFinite_of_fMag_le hmag, ?_, ?_, ?_⟩
    · rw [fRat, hunits, Int.cast_mul, Int.cast_pow, Int.cast_ofNat]
      exact mul_div_cancel_right₀ _ (by positivity)
    · rw [Int.abs_eq_natAbs]
      exact_mod_cast hlow
    · have hwide : |k| < 2 ^ 24 ↔ k.natAbs < 2 ^ 24 := by
        rw [Int.abs_eq_natAbs]
        exact_mod_cast Iff.rfl
      rw [hwide]
      exact ⟨fun ⟨hodd, hhigh⟩ => waves_of_cycleFraction_NEG1 (fraction_of_odd hunits hmag hlow hodd hhigh),
        fun hnot => waves_of_cycleFraction_posZero (fraction_of_not_odd hunits hmag hlow hnot)⟩

end Sys2Proof.Machine

/-!
PROOF. The phase accumulator (42_phase_accumulator.md R100 to R104). The sum of two words of [0, TWO_PI) is below twice
TWO_PI, and twice the word before TWO_PI is a binary32 value; so rounding keeps the sum at or below it, and one
subtraction of TWO_PI brings it back into the range. Every command then keeps both phases there.
-/

namespace Sys2Proof.Machine

/-! ## The range [0, TWO_PI) -/

/-- The word before TWO_PI. -/
def belowTwoPi : Word := 0x40C90FDA
/-- Twice the word before TWO_PI, the largest sum of two words below TWO_PI. -/
def twiceBelowTwoPi : Word := 0x41490FDA

theorem fUnits_TWO_PI : fUnits TWO_PI = 13176795 * 2 ^ 128 := by decide
theorem fUnits_belowTwoPi : fUnits belowTwoPi = 13176794 * 2 ^ 128 := by decide
theorem fUnits_twiceBelowTwoPi : fUnits twiceBelowTwoPi = 2 * 13176794 * 2 ^ 128 := by decide

theorem fKey_TWO_PI : fKey TWO_PI = fKey belowTwoPi + 1 := by decide

/-- A finite word below TWO_PI is at most the word before it. -/
theorem flt_TWO_PI_iff {p : Word} (hfin : isFinite p = true) : flt p TWO_PI = true ↔ fUnits p ≤ fUnits belowTwoPi := by
  rw [flt_of_not_isNaN (isNaN_of_isFinite hfin) isNaN_TWO_PI, decide_eq_true_iff, fKey_TWO_PI, Int.lt_add_one_iff,
    fKey_le_iff]

theorem inPhase_iff_between {p : Word} : inPhase p ↔ Between posZero belowTwoPi p := by
  constructor
  · intro h
    obtain ⟨hfin, -⟩ := below_band_of_inPhase h
    obtain ⟨hge, hlt⟩ := h
    exact ⟨hfin, (fKey_le_iff posZero p).1 (fge_iff.1 hge).2.2, (flt_TWO_PI_iff hfin).1 hlt⟩
  · rintro ⟨hfin, hlow, hhigh⟩
    exact ⟨fge_iff.2 ⟨isNaN_of_isFinite hfin, isNaN_posZero, (fKey_le_iff posZero p).2 hlow⟩,
      (flt_TWO_PI_iff hfin).2 hhigh⟩

theorem inPhase_posZero : inPhase posZero := ⟨by decide, by decide⟩

/-! ## PhaseAdvance (R100, R101) -/

/-- The rounded sum of two words of [0, TWO_PI), before the wrap. -/
theorem between_fadd_of_inPhase {p q : Word} (hp : inPhase p) (hq : inPhase q) :
    Between posZero twiceBelowTwoPi (fadd p q) := by
  obtain ⟨hpfin, hplow, hphigh⟩ := inPhase_iff_between.1 hp
  obtain ⟨hqfin, hqlow, hqhigh⟩ := inPhase_iff_between.1 hq
  rw [fUnits_posZero] at hplow hqlow
  rw [fUnits_belowTwoPi] at hphigh hqhigh
  exact between_fadd hpfin hqfin (by decide) (by decide) (by rw [fUnits_posZero]; omega)
    (by rw [fUnits_twiceBelowTwoPi]; omega)

/-- The wrap: a sum at or above TWO_PI, less TWO_PI. -/
theorem inPhase_fsub_TWO_PI {q : Word} (hq : Between posZero twiceBelowTwoPi q) (hge : fge q TWO_PI = true) :
    inPhase (fsub q TWO_PI) := by
  obtain ⟨hfin, -, hhigh⟩ := hq
  have hlow : fUnits TWO_PI ≤ fUnits q := (fKey_le_iff TWO_PI q).1 (fge_iff.1 hge).2.2
  rw [fUnits_TWO_PI] at hlow
  rw [fUnits_twiceBelowTwoPi] at hhigh
  exact inPhase_iff_between.2 (between_fsub hfin isFinite_TWO_PI (by decide) (by decide)
    (by rw [fUnits_posZero, fUnits_TWO_PI]; omega) (by rw [fUnits_TWO_PI, fUnits_belowTwoPi]; omega))

/-- No wrap: a sum that is not at or above TWO_PI is in range as it is. -/
theorem inPhase_of_fge_eq_false {q : Word} (hq : Between posZero twiceBelowTwoPi q) (hge : fge q TWO_PI = false) :
    inPhase q := by
  obtain ⟨hfin, hlow, -⟩ := hq
  have hlt : flt q TWO_PI = true := by
    rw [fge, fle_of_not_isNaN isNaN_TWO_PI (isNaN_of_isFinite hfin), decide_eq_false_iff_not, not_le] at hge
    exact flt_iff.2 ⟨isNaN_of_isFinite hfin, isNaN_TWO_PI, hge⟩
  exact inPhase_iff_between.2 ⟨hfin, hlow, (flt_TWO_PI_iff hfin).1 hlt⟩

theorem inPhase_phaseAdvance {p f dt : Word} (hp : inPhase p) (hinc : inPhase (phaseInc f dt)) :
    inPhase (phaseAdvance p f dt) := by
  have hsum := between_fadd_of_inPhase hp hinc
  obtain ⟨hge, h⟩ | ⟨hge, h⟩ := phaseAdvance_cases p f dt
  · rw [h]
    exact inPhase_fsub_TWO_PI hsum hge
  · rw [h]
    exact inPhase_of_fge_eq_false hsum hge

/-- Settles O35: PhaseAdvance with the increment written out. -/
theorem phaseAdvanceFollowsFormula : Obligations.PhaseAdvanceFollowsFormula := fun _ _ _ => rfl

/-- Settles O36: at most one wrap is due, and it lands in the range. -/
theorem phaseInvariantHolds : Obligations.PhaseInvariantHolds := fun _ _ _ => inPhase_phaseAdvance

/-! ## The commands (R103, R104, 44_lfo.md R117) -/

/-- Settles O37: OSC_STEP completes with the voice's unit, which writes OSC_PHASE alone. -/
theorem oscStepAdvancesPhase : Obligations.OscStepAdvancesPhase := by
  intro f s
  rw [exec_eq_nextState, nextState_oscStep, oscStep_value, oscStep_regs, complete_eq_answered]

theorem inPhase_lfoNextPhase {dt : Word} {g : Regs} (hphase : inPhase g.lfoPhase)
    (hinc : g.lfoEnable = true → inPhase (phaseInc g.lfoRate dt)) : inPhase (lfoNextPhase dt g) := by
  unfold lfoNextPhase
  split
  next henable => exact inPhase_phaseAdvance hphase (hinc henable)
  next => exact hphase

/-- Settles O59: RESET and LFO_RESET write +0, the commands of the two accumulators advance by increments in range, and
every other command keeps both phases. -/
theorem phasesStayInRange : Obligations.PhasesStayInRange := by
  intro i s t hosc hlfo hoscInc htickInc hlfoInc hexec
  obtain rfl : nextState i s = t := by simpa [exec_eq_nextState] using hexec
  cases i with
  | tick =>
    rw [nextState_tick, complete_regs, tickStep_eq] at htickInc ⊢
    exact ⟨inPhase_phaseAdvance hosc (htickInc rfl), inPhase_lfoNextPhase hlfo (hlfoInc (.inl rfl))⟩
  | lfoStep =>
    rw [nextState_lfoStep, complete_regs]
    exact ⟨hosc, inPhase_lfoNextPhase hlfo (hlfoInc (.inr rfl))⟩
  | oscStep f => exact ⟨inPhase_phaseAdvance hosc (hoscInc f rfl), hlfo⟩
  | lfoReset => exact ⟨hosc, inPhase_posZero⟩
  | reset => exact ⟨inPhase_posZero, inPhase_posZero⟩
  | nop | writeReg _ _ | readReg _ | noteOn | noteOff | envStep | filtStep _ | waveEval _ _ =>
    rw [nextState_oscPhase s (by simp) (by simp) (by simp),
      nextState_lfoPhase s (by simp) (by simp) (by simp) (by simp)]
    exact ⟨hosc, hlfo⟩

end Sys2Proof.Machine

/-!
PROOF. The envelope (43_envelope.md R105 to R113). In contract each ramp adds or takes away a quotient that is not
negative, +inf included, so the rounded value stays on its side of the old one, and the comparison of the segment keeps
it on its side of the target. Out of contract the quotient is an infinity or a NaN, which decides the comparison.
-/

namespace Sys2Proof.Machine

/-! ## The whole next state of ENV_STEP, per segment (R106 to R110, R116) -/

theorem envStepGives_of_envNext {s : State} {st : EnvState} {w : Word} (h : envNext s.regs.dt s.regs = (st, w)) :
    envStepGives s st w := by
  rw [envStepGives, exec_eq_nextState, nextState_envStep, envStep_value, envStep_regs, complete_eq_answered, h]

section
variable {g : Regs} (dt : Word)

theorem envNext_idle (h : g.envState = .idle) : envNext dt g = (.idle, posZero) := by simp [envNext, h]

theorem envNext_attack (h : g.envState = .attack) :
    envNext dt g = if fge (attackValue dt g) ONE then (.decay, ONE) else (.attack, attackValue dt g) := by
  simp [envNext, h]

theorem envNext_decay (h : g.envState = .decay) :
    envNext dt g = if fle (decayValue dt g) g.envSustain then (.sustain, g.envSustain)
      else (.decay, decayValue dt g) := by
  simp [envNext, h]

theorem envNext_sustain (h : g.envState = .sustain) : envNext dt g = (.sustain, g.envSustain) := by simp [envNext, h]

theorem envNext_release (h : g.envState = .release) :
    envNext dt g = if fle (releaseValue dt g) posZero then (.idle, posZero) else (.release, releaseValue dt g) := by
  simp [envNext, h]

end

/-- Settles O38: Idle's equation. -/
theorem envStepIdle : Obligations.EnvStepIdle := fun s h => envStepGives_of_envNext (envNext_idle s.regs.dt h)

/-- Settles O39: the two branches of Attack's equation. -/
theorem envStepAttack : Obligations.EnvStepAttack := fun s hst =>
  ⟨fun h => envStepGives_of_envNext ((envNext_attack s.regs.dt hst).trans (if_pos h)),
    fun h => envStepGives_of_envNext ((envNext_attack s.regs.dt hst).trans (if_neg (Bool.eq_false_iff.1 h)))⟩

/-- Settles O40: the two branches of Decay's equation. -/
theorem envStepDecay : Obligations.EnvStepDecay := fun s hst =>
  ⟨fun h => envStepGives_of_envNext ((envNext_decay s.regs.dt hst).trans (if_pos h)),
    fun h => envStepGives_of_envNext ((envNext_decay s.regs.dt hst).trans (if_neg (Bool.eq_false_iff.1 h)))⟩

/-- Settles O41: Sustain's equation. -/
theorem envStepSustain : Obligations.EnvStepSustain := fun s h =>
  envStepGives_of_envNext (envNext_sustain s.regs.dt h)

/-- Settles O42: the two branches of Release's equation. -/
theorem envStepRelease : Obligations.EnvStepRelease := fun s hst =>
  ⟨fun h => envStepGives_of_envNext ((envNext_release s.regs.dt hst).trans (if_pos h)),
    fun h => envStepGives_of_envNext ((envNext_release s.regs.dt hst).trans (if_neg (Bool.eq_false_iff.1 h)))⟩

/-! ## Signs, classes and order by key -/

theorem isZero_iff_fKey {a : Word} : isZero a = true ↔ fKey a = 0 := by
  rw [isZero_iff, ← natAbs_fKey, Int.natAbs_eq_zero]

theorem isZero_of_fKey_pos {a : Word} (h : 0 < fKey a) : isZero a = false := by
  rw [← Bool.not_eq_true, isZero_iff_fKey]
  exact h.ne'

theorem fSign_of_fKey_pos {a : Word} (h : 0 < fKey a) : fSign a = false := by
  unfold fKey at h
  cases hs : fSign a
  · rfl
  · rw [hs, if_pos rfl] at h
    omega

theorem fUnits_of_isZero {a : Word} (h : isZero a = true) : fUnits a = 0 := by
  obtain rfl | rfl := eq_posZero_or_negZero h
  · exact fUnits_posZero
  · decide

theorem fKey_pos_of_posFinite {a : Word} (h : posFinite a) : 0 < fKey a := by
  simpa using (fgt_iff.1 h.1).2.2

theorem fUnits_pos_of_posFinite {a : Word} (h : posFinite a) : 0 < fUnits a :=
  (fKey_pos_iff a).1 (fKey_pos_of_posFinite h)

theorem inUnit_iff_between {a : Word} : inUnit a ↔ Between posZero ONE a := by
  constructor
  · rintro ⟨hge, hle⟩
    exact between_of_fKey_le isFinite_posZero isFinite_ONE (fge_iff.1 hge).2.2 (fle_iff.1 hle).2.2
  · rintro ⟨hfin, hlow, hhigh⟩
    exact ⟨fge_iff.2 ⟨isNaN_of_isFinite hfin, isNaN_posZero, (fKey_le_iff posZero a).2 hlow⟩,
      fle_iff.2 ⟨isNaN_of_isFinite hfin, isNaN_ONE, (fKey_le_iff a ONE).2 hhigh⟩⟩

theorem isFinite_of_inUnit {a : Word} (h : inUnit a) : isFinite a = true := (inUnit_iff_between.1 h).1

theorem inUnit_posZero : inUnit posZero := ⟨by decide, by decide⟩

theorem inUnit_ONE : inUnit ONE := ⟨by decide, by decide⟩

theorem fle_trans {a b c : Word} (hab : fle a b = true) (hbc : fle b c = true) : fle a c = true := by
  obtain ⟨ha, -, hab⟩ := fle_iff.1 hab
  obtain ⟨-, hc, hbc⟩ := fle_iff.1 hbc
  exact fle_iff.2 ⟨ha, hc, hab.trans hbc⟩

/-- A failed comparison of two words that are not NaN holds the other way round. -/
theorem fle_of_fle_eq_false {a b : Word} (ha : isNaN a = false) (hb : isNaN b = false) (h : fle a b = false) :
    fle b a = true := by
  rw [fle_of_not_isNaN ha hb, decide_eq_false_iff_not, not_le] at h
  exact fle_iff.2 ⟨hb, ha, h.le⟩

/-- A word between two words of [0, 1]. -/
theorem inUnit_of_fle {a b c : Word} (ha : inUnit a) (hc : inUnit c) (hab : fle a b = true) (hbc : fle b c = true) :
    inUnit b :=
  ⟨fle_trans ha.1 hab, fle_trans hbc hc.2⟩

/-! ## A step of a ramp -/

/-- Adding a word that is not negative does not fall, and subtracting it does not rise; the word may be +inf. -/
theorem fle_fadd_and_fsub_fle {v q : Word} (hv : isFinite v = true) (hq : isNaN q = false) (h0 : 0 ≤ fKey q) :
    fle v (fadd v q) = true ∧ fle (fsub v q) v = true := by
  have hnan := isNaN_of_isFinite hv
  cases hfin : isFinite q
  · have hinf : isInf q = true := by simpa [isFinite_eq, hq] using hfin
    have hkey := natAbs_fKey q
    rw [isInf_iff.1 hinf] at hkey
    have hbound := (isFinite_iff_fKey v).1 hv
    rw [fsub, (fadd_inf_finite hinf hv).2, (fadd_inf_finite ((isInf_fneg q).trans hinf) hv).2]
    exact ⟨fle_iff.2 ⟨hnan, hq, by omega⟩, fle_iff.2 ⟨by simpa, hnan, by rw [fKey_fneg]; omega⟩⟩
  · have hunits := (fKey_nonneg_iff q).1 h0
    refine ⟨fle_iff.2 ⟨hnan, isNaN_fadd hv hfin, ?_⟩, fle_iff.2 ⟨isNaN_fsub hv hfin, hnan, ?_⟩⟩
    · rw [fKey_fadd hv hfin]
      exact le_rKey one_pos hv (by simpa)
    · rw [fKey_fsub hv hfin]
      exact rKey_le one_pos hv (by simpa)

/-- A finite word that is not negative over a positive one; the quotient may overflow to +inf. -/
theorem fdiv_nonneg {a b : Word} (ha : isFinite a = true) (h0 : 0 ≤ fUnits a) (hb : posFinite b) :
    isNaN (fdiv a b) = false ∧ 0 ≤ fKey (fdiv a b) := by
  have hpos := fKey_pos_of_posFinite hb
  have hzero := isZero_of_fKey_pos hpos
  refine ⟨isNaN_fdiv ha hb.2 hzero, ?_⟩
  rw [fKey_fdiv ha hb.2 hzero, fSign_of_fKey_pos hpos]
  exact rKey_nonneg (by simpa using h0)

/-- A positive word times a word of [0, 1] is at most itself, so it does not overflow. -/
theorem between_fmul_of_inUnit {a x : Word} (ha : posFinite a) (hx : inUnit x) : Between posZero a (fmul a x) := by
  obtain ⟨hxfin, hlow, hhigh⟩ := inUnit_iff_between.1 hx
  have h0 := (fUnits_pos_of_posFinite ha).le
  rw [fUnits_posZero] at hlow
  rw [fUnits_ONE] at hhigh
  refine between_of_fKey (fKey_fmul ha.2 hxfin) (Nat.two_pow_pos 149) isFinite_posZero ha.2 ?_ ?_
  · rw [fUnits_posZero, zero_mul]
    exact mul_nonneg h0 hlow
  · exact mul_le_mul_of_nonneg_left (by exact_mod_cast hhigh) h0

theorem inUnit_fsub_ONE {x : Word} (hx : inUnit x) : inUnit (fsub ONE x) := by
  obtain ⟨hxfin, hlow, hhigh⟩ := inUnit_iff_between.1 hx
  rw [fUnits_posZero] at hlow
  exact inUnit_iff_between.2 (between_fsub isFinite_ONE hxfin isFinite_posZero isFinite_ONE
    (by rw [fUnits_posZero]; omega) (by omega))

/-- Taking dt·x/T away, for x in [0, 1] and positive times, does not rise. -/
theorem fsub_ramp_fle {v dt x T : Word} (hv : isFinite v = true) (hdt : posFinite dt) (hx : inUnit x)
    (hT : posFinite T) : fle (fsub v (fdiv (fmul dt x) T)) v = true := by
  obtain ⟨hfin, hlow, -⟩ := between_fmul_of_inUnit hdt hx
  rw [fUnits_posZero] at hlow
  obtain ⟨hnan, h0⟩ := fdiv_nonneg hfin hlow hT
  exact (fle_fadd_and_fsub_fle hv hnan h0).2

/-! ## In contract (R112) -/

section
variable {g : Regs} (h : envInContract g)
include h

theorem fle_attackValue : fle g.envValue (attackValue g.dt g) = true := by
  obtain ⟨hA, -, -, hdt, -, hv⟩ := h
  obtain ⟨hnan, h0⟩ := fdiv_nonneg hdt.2 (fUnits_pos_of_posFinite hdt).le hA
  exact (fle_fadd_and_fsub_fle (isFinite_of_inUnit hv) hnan h0).1

theorem decayValue_fle : fle (decayValue g.dt g) g.envValue = true := by
  obtain ⟨-, hD, -, hdt, hS, hv⟩ := h
  exact fsub_ramp_fle (isFinite_of_inUnit hv) hdt (inUnit_fsub_ONE hS) hD

theorem releaseValue_fle : fle (releaseValue g.dt g) g.envValue = true := by
  obtain ⟨-, -, hR, hdt, hS, hv⟩ := h
  exact fsub_ramp_fle (isFinite_of_inUnit hv) hdt hS hR

/-- Attack lands between the old value and 1.0. -/
theorem envNext_of_attack (hst : g.envState = .attack) :
    fle g.envValue (envNext g.dt g).2 = true ∧ fle (envNext g.dt g).2 ONE = true := by
  have hrise := fle_attackValue h
  obtain ⟨-, -, -, -, -, hv⟩ := h
  rw [envNext_attack g.dt hst]
  split
  next => exact ⟨hv.2, inUnit_ONE.2⟩
  next hlt =>
    exact ⟨hrise, fle_of_fle_eq_false isNaN_ONE (fle_iff.1 hrise).2.1 (Bool.eq_false_iff.2 hlt)⟩

/-- Decay lands on S, or between S and the old value. -/
theorem envNext_of_decay (hst : g.envState = .decay) :
    (envNext g.dt g).2 = g.envSustain ∨
      fle g.envSustain (envNext g.dt g).2 = true ∧ fle (envNext g.dt g).2 g.envValue = true := by
  have hfall := decayValue_fle h
  obtain ⟨-, -, -, -, hS, -⟩ := h
  rw [envNext_decay g.dt hst]
  split
  next => exact .inl rfl
  next hgt =>
    exact .inr ⟨fle_of_fle_eq_false (fle_iff.1 hfall).1 (isNaN_of_isFinite (isFinite_of_inUnit hS))
      (Bool.eq_false_iff.2 hgt), hfall⟩

/-- Release lands between +0 and the old value. -/
theorem envNext_of_release (hst : g.envState = .release) :
    fle posZero (envNext g.dt g).2 = true ∧ fle (envNext g.dt g).2 g.envValue = true := by
  have hfall := releaseValue_fle h
  obtain ⟨-, -, -, -, -, hv⟩ := h
  rw [envNext_release g.dt hst]
  split
  next => exact ⟨inUnit_posZero.1, hv.1⟩
  next hgt => exact ⟨fle_of_fle_eq_false (fle_iff.1 hfall).1 isNaN_posZero (Bool.eq_false_iff.2 hgt), hfall⟩

theorem inUnit_envNext : inUnit (envNext g.dt g).2 := by
  have ⟨_, _, _, _, hS, hv⟩ := h
  cases hst : g.envState with
  | idle => rw [envNext_idle g.dt hst]; exact inUnit_posZero
  | attack =>
    obtain ⟨hlow, hhigh⟩ := envNext_of_attack h hst
    exact inUnit_of_fle hv inUnit_ONE hlow hhigh
  | decay =>
    obtain heq | ⟨hlow, hhigh⟩ := envNext_of_decay h hst
    · rwa [heq]
    · exact inUnit_of_fle hS hv hlow hhigh
  | sustain => rw [envNext_sustain g.dt hst]; exact hS
  | release =>
    obtain ⟨hlow, hhigh⟩ := envNext_of_release h hst
    exact inUnit_of_fle inUnit_posZero hv hlow hhigh

/-- From S or above, Decay stays between S and the old value. -/
theorem envNext_of_decay_above (hst : g.envState = .decay) (habove : fle g.envSustain g.envValue = true) :
    fle (envNext g.dt g).2 g.envValue = true ∧ fle g.envSustain (envNext g.dt g).2 = true := by
  obtain heq | ⟨hlow, hhigh⟩ := envNext_of_decay h hst
  · rw [heq]
    exact ⟨habove, fle_iff.2 ⟨(fle_iff.1 habove).1, (fle_iff.1 habove).1, le_rfl⟩⟩
  · exact ⟨hhigh, hlow⟩

end

/-- Settles O43: where each ramp lands, and the contract's other registers are not written. -/
theorem envelopeStaysInUnit : Obligations.EnvelopeStaysInUnit := by
  intro s h
  have hunit := inUnit_envNext h
  have ⟨hA, hD, hR, hdt, hS, _⟩ := h
  exact ⟨_, _, envStepGives_of_envNext rfl, hunit, ⟨hA, hD, hR, hdt, hS, hunit⟩,
    fun hst => (envNext_of_attack h hst).1, envNext_of_decay_above h, fun hst => (envNext_of_release h hst).2⟩

/-! ## Quotients by a zero time, and of a zero product (R113) -/

theorem isInf_pack_infMag (neg : Bool) : isInf (pack neg infMag) = true := by cases neg <;> decide

/-- A positive word over a zero is the infinity of the zero's sign. -/
theorem fdiv_of_isZero {a z : Word} (hnan : isNaN a = false) (hpos : 0 < fKey a) (hz : isZero z = true) :
    fdiv a z = pack (fSign z) infMag := by
  rw [fdiv_zero hnan (isZero_of_fKey_pos hpos) hz, fSign_of_fKey_pos hpos, Bool.false_bne]

/-- A value less dt·x over +0 is -inf where dt·x is not rounded to zero, so it is at or below every finite word. -/
theorem fle_fsub_ramp_posZero {v dt x w : Word} (hv : isFinite v = true) (hdt : posFinite dt) (hx : inUnit x)
    (hne : isZero (fmul dt x) = false) (hw : isFinite w = true) :
    fle (fsub v (fdiv (fmul dt x) posZero)) w = true := by
  obtain ⟨hfin, hlow, -⟩ := between_fmul_of_inUnit hdt hx
  have hpos : 0 < fKey (fmul dt x) := by
    have hkey := (fKey_le_iff posZero _).2 hlow
    rw [fKey_posZero] at hkey
    rw [← Bool.not_eq_true, isZero_iff_fKey] at hne
    omega
  rw [fdiv_of_isZero (isNaN_of_isFinite hfin) hpos isZero_posZero, (fsub_inf_finite (isInf_pack_infMag _) hv).2]
  exact (compare_inf_finite (isInf_pack_infMag true) hw).2.1

theorem isZero_fmul_posZero {a : Word} (ha : isFinite a = true) : isZero (fmul a posZero) = true := by
  rw [isZero_iff_fKey, fKey_fmul ha isFinite_posZero, fUnits_posZero, mul_zero, rKey_zero]

theorem isZero_fdiv {z b : Word} (hz : isZero z = true) (hb : isFinite b = true) (h0 : isZero b = false) :
    isZero (fdiv z b) = true := by
  rw [isZero_iff_fKey, fKey_fdiv (isFinite_of_isZero hz) hb h0, fUnits_of_isZero hz, zero_mul, mul_zero, rKey_zero]

/-- Subtracting a zero keeps a word that is not a zero. -/
theorem fsub_of_isZero {v z : Word} (hv : isFinite v = true) (h0 : fKey v ≠ 0) (hz : isZero z = true) :
    fsub v z = v :=
  eq_of_fKey_eq (fKey_fadd_zero hv ((isZero_fneg z).trans hz)) h0

/-! ## Out of contract (R113) -/

section
variable {s : State} (hv : isFinite s.regs.envValue = true)

include hv in
theorem envStepGives_attack_posZero (hst : s.regs.envState = .attack) (hdt : posFinite s.regs.dt)
    (hA : s.regs.envAttack = posZero) : envStepGives s .decay ONE := by
  refine (envStepAttack s hst).1 ?_
  rw [hA, fdiv_of_isZero (isNaN_of_isFinite hdt.2) (fKey_pos_of_posFinite hdt) isZero_posZero,
    (fadd_inf_finite (isInf_pack_infMag _) hv).2]
  decide

include hv in
theorem envStepGives_attack_negZero (hst : s.regs.envState = .attack) (hdt : posFinite s.regs.dt)
    (hA : s.regs.envAttack = negZero) : envStepGives s .attack 0xFF800000 := by
  have hsum : fadd s.regs.envValue (fdiv s.regs.dt s.regs.envAttack) = 0xFF800000 := by
    rw [hA, fdiv_of_isZero (isNaN_of_isFinite hdt.2) (fKey_pos_of_posFinite hdt) isZero_negZero,
      (fadd_inf_finite (isInf_pack_infMag _) hv).2]
    decide
  have hstep := (envStepAttack s hst).2
  rw [hsum] at hstep
  exact hstep (by decide)

include hv in
theorem envStepGives_decay_posZero (hst : s.regs.envState = .decay) (hS : inUnit s.regs.envSustain)
    (hdt : posFinite s.regs.dt) (hne : isZero (fmul s.regs.dt (fsub ONE s.regs.envSustain)) = false)
    (hD : s.regs.envDecay = posZero) : envStepGives s .sustain s.regs.envSustain := by
  refine (envStepDecay s hst).1 ?_
  rw [hD]
  exact fle_fsub_ramp_posZero hv hdt (inUnit_fsub_ONE hS) hne (isFinite_of_inUnit hS)

include hv in
theorem envStepGives_release_posZero (hst : s.regs.envState = .release) (hS : inUnit s.regs.envSustain)
    (hdt : posFinite s.regs.dt) (hne : isZero (fmul s.regs.dt s.regs.envSustain) = false)
    (hR : s.regs.envRelease = posZero) : envStepGives s .idle posZero := by
  refine (envStepRelease s hst).1 ?_
  rw [hR]
  exact fle_fsub_ramp_posZero hv hdt hS hne isFinite_posZero

theorem envStepGives_release_of_sustain_posZero (hst : s.regs.envState = .release) (hdt : posFinite s.regs.dt)
    (hS : s.regs.envSustain = posZero) (hR : posFinite s.regs.envRelease) (hpos : posFinite s.regs.envValue) :
    envStepGives s .release s.regs.envValue := by
  have hkey := fKey_pos_of_posFinite hpos
  have hquot : isZero (fdiv (fmul s.regs.dt s.regs.envSustain) s.regs.envRelease) = true := by
    rw [hS]
    exact isZero_fdiv (isZero_fmul_posZero hdt.2) hR.2 (isZero_of_fKey_pos (fKey_pos_of_posFinite hR))
  have hstep := (envStepRelease s hst).2
  rw [fsub_of_isZero hpos.2 hkey.ne' hquot] at hstep
  refine hstep ?_
  rw [fle_of_not_isNaN (isNaN_of_isFinite hpos.2) isNaN_posZero, fKey_posZero, decide_eq_false_iff_not, not_le]
  exact hkey

/-! A ramp whose quotient is a NaN ends at the canonical NaN, in the segment it was in. -/

theorem envStepGives_attack_canonNaN (hst : s.regs.envState = .attack)
    (hq : fdiv s.regs.dt s.regs.envAttack = canonNaN) : envStepGives s .attack canonNaN := by
  have hstep := (envStepAttack s hst).2
  rw [hq, fadd_nan_right isNaN_canonNaN] at hstep
  exact hstep (fle_nan (.inr isNaN_canonNaN))

theorem envStepGives_decay_canonNaN (hst : s.regs.envState = .decay)
    (hq : fdiv (fmul s.regs.dt (fsub ONE s.regs.envSustain)) s.regs.envDecay = canonNaN) :
    envStepGives s .decay canonNaN := by
  have hstep := (envStepDecay s hst).2
  rw [hq, fsub_nan_right isNaN_canonNaN] at hstep
  exact hstep (fle_nan (.inl isNaN_canonNaN))

theorem envStepGives_release_canonNaN (hst : s.regs.envState = .release)
    (hq : fdiv (fmul s.regs.dt s.regs.envSustain) s.regs.envRelease = canonNaN) :
    envStepGives s .release canonNaN := by
  have hstep := (envStepRelease s hst).2
  rw [hq, fsub_nan_right isNaN_canonNaN] at hstep
  exact hstep (fle_nan (.inl isNaN_canonNaN))

theorem envStepGives_decay_of_sustain_ONE (hst : s.regs.envState = .decay) (hdt : posFinite s.regs.dt)
    (hS : s.regs.envSustain = ONE) (hD : s.regs.envDecay = posZero ∨ s.regs.envDecay = negZero) :
    envStepGives s .decay canonNaN := by
  have hzero : isZero s.regs.envDecay = true := by
    obtain h | h := hD
    · rw [h, isZero_posZero]
    · rw [h, isZero_negZero]
  refine envStepGives_decay_canonNaN hst ?_
  rw [hS, fsub_self isFinite_ONE]
  exact fdiv_zero_zero (isZero_fmul_posZero hdt.2) hzero

theorem envStepGives_of_isNaN_dt (hnan : isNaN s.regs.dt = true)
    (hramp : s.regs.envState = .attack ∨ s.regs.envState = .decay ∨ s.regs.envState = .release) :
    envStepGives s s.regs.envState canonNaN := by
  have hquot (x T : Word) : fdiv (fmul s.regs.dt x) T = canonNaN :=
    fdiv_nan_left (by rw [fmul_nan_left hnan, isNaN_canonNaN])
  obtain hst | hst | hst := hramp
  · exact hst ▸ envStepGives_attack_canonNaN hst (fdiv_nan_left hnan)
  · exact hst ▸ envStepGives_decay_canonNaN hst (hquot _ _)
  · exact hst ▸ envStepGives_release_canonNaN hst (hquot _ _)

end

/-- Settles O44: one lemma per clause. -/
theorem envelopeOutOfContract : Obligations.EnvelopeOutOfContract := fun _ hv =>
  ⟨envStepGives_attack_posZero hv, envStepGives_attack_negZero hv, envStepGives_decay_posZero hv,
    envStepGives_decay_of_sustain_ONE, envStepGives_release_posZero hv,
    envStepGives_release_of_sustain_posZero, envStepGives_of_isNaN_dt⟩

end Sys2Proof.Machine

/-!
PROOF. The LFO (44_lfo.md R117 to R121). Its value is a waveform of [-1, 1] times the depth: the exact product is within
the depth in magnitude, and rounding does not pass the depth, which is a binary32 value.
-/

namespace Sys2Proof.Machine

/-! ## The unit, disabled and enabled (R117, R118) -/

section
variable {g : Regs} (dt : Word)

theorem lfoValue_of_disabled (h : g.lfoEnable = false) : lfoValue dt g = posZero := by simp [lfoValue, h]

theorem lfoNextPhase_of_disabled (h : g.lfoEnable = false) : lfoNextPhase dt g = g.lfoPhase := by
  simp [lfoNextPhase, h]

theorem lfoValue_of_enabled (h : g.lfoEnable = true) :
    lfoValue dt g = fmul (wave g.lfoWave (phaseAdvance g.lfoPhase g.lfoRate dt)) g.lfoDepth := by
  simp [lfoValue, h]

theorem lfoNextPhase_of_enabled (h : g.lfoEnable = true) :
    lfoNextPhase dt g = phaseAdvance g.lfoPhase g.lfoRate dt := by
  simp [lfoNextPhase, h]

end

/-! ## The whole next state of LFO_STEP (R121) -/

theorem exec_lfoStep_answered (s : State) :
    exec .lfoStep s = .next
      { regs := { s.regs with lfoPhase := lfoNextPhase s.regs.dt s.regs }
        port := answered s 0 (lfoValue s.regs.dt s.regs) } := by
  rw [exec_eq_nextState, nextState_lfoStep, complete_eq_answered]

/-- Settles O45: the unit's value is +0, and LFO_PHASE gets its old word. -/
theorem lfoStepDisabled : Obligations.LfoStepDisabled := by
  intro s h
  rw [exec_lfoStep_answered, lfoValue_of_disabled _ h, lfoNextPhase_of_disabled _ h, posZero]

/-- Settles O46: the unit's value and next phase while enabled. -/
theorem lfoStepEnabled : Obligations.LfoStepEnabled := by
  intro s h
  rw [exec_lfoStep_answered, lfoValue_of_enabled _ h, lfoNextPhase_of_enabled _ h]

/-! ## The value within the depth (R119) -/

theorem fMag_le_ONE_of_inSignedUnit {v : Word} (h : inSignedUnit v) : fMag v ≤ fMag ONE := by
  obtain ⟨hge, hle⟩ := h
  have hlow : -(fMag ONE : Int) ≤ fKey v := (fge_iff.1 hge).2.2
  have hhigh : fKey v ≤ (fMag ONE : Int) := (fle_iff.1 hle).2.2
  have habs := natAbs_fKey v
  omega

theorem isFinite_of_inSignedUnit {v : Word} (h : inSignedUnit v) : isFinite v = true :=
  isFinite_iff.2 ((fMag_le_ONE_of_inSignedUnit h).trans_lt (by decide))

/-- A factor of [-1, 1] does not make a finite word larger in magnitude. -/
theorem fMag_fmul_le_of_inSignedUnit {v b : Word} (hv : inSignedUnit v) (hb : isFinite b = true) :
    fMag (fmul v b) ≤ fMag b := by
  have hONE : magUnits (fMag ONE) = 2 ^ 149 := by decide
  have hunits : magUnits (fMag v) ≤ 2 ^ 149 := hONE ▸ magUnits_le_iff.2 (fMag_le_ONE_of_inSignedUnit hv)
  rw [fmul_finite (isFinite_of_inSignedUnit hv) hb, fMag_pack (roundMag_lt _ _)]
  refine roundMag_le_of_le (Nat.two_pow_pos 149) (isFinite_iff.1 hb) ?_
  rw [mul_comm]
  exact Nat.mul_le_mul_left _ hunits

theorem fle_fabs_fabs {a b : Word} (hb : isFinite b = true) (h : fMag a ≤ fMag b) : fle (fabs a) (fabs b) = true := by
  have ha : isFinite a = true := isFinite_iff.2 (h.trans_lt (isFinite_iff.1 hb))
  refine fle_iff.2 ⟨isNaN_of_isFinite (by rw [isFinite_fabs, ha]), isNaN_of_isFinite (by rw [isFinite_fabs, hb]), ?_⟩
  rw [fKey_fabs, fKey_fabs]
  exact_mod_cast h

/-- Settles O47: the advanced phase is in range, so the waveform there is in [-1, 1]. -/
theorem lfoStaysWithinDepth : Obligations.LfoStaysWithinDepth := by
  intro s henable hphase hinc hdepth
  have hnext := inPhase_phaseAdvance hphase hinc
  have hwave := (wavesInRangeOnPhase s.regs.lfoWave _ hnext).1
  exact ⟨_, _, lfoStepEnabled s henable, rfl,
    fle_fabs_fabs hdepth (fMag_fmul_le_of_inSignedUnit hwave hdepth), hnext⟩

end Sys2Proof.Machine

/-!
PROOF. The filter (45_filter.md R122 to R126). From 2^25 on the unit of the last place is 4.0 or more, so c + 1 rounds to
c, alpha is 1.0 and the history's weight is +0; at c = ±0 the weights are a zero and 1.0. A product by 1.0 is exact and a
sum with a zero keeps the other operand, so one of the two terms comes through unchanged.
-/

namespace Sys2Proof.Machine

/-! ## FILT_STEP (R122, R126) -/

/-- Settles O48: the command's completion, with FilterStep's output and registers. -/
theorem filtStepFollowsRecurrence : Obligations.FiltStepFollowsRecurrence := by
  intro x s
  rw [exec_eq_nextState, nextState_filtStep, filterStep_value, filterStep_regs, complete_eq_answered, filterOut,
    filterAlpha]

/-! ## Adding less than half a unit of the last place -/

/-- From the pattern (e + 1)·2^23 on, neighbouring patterns are 2^e or more apart. -/
theorem magUnits_add_two_pow_le {e m : Nat} (h : (e + 1) * 2 ^ 23 ≤ m) : magUnits m + 2 ^ e ≤ magUnits (m + 1) := by
  obtain ⟨k, q, hm, hlow, hhigh, hle⟩ : ∃ k q, m = k * 2 ^ 23 + q ∧ 2 ^ 23 ≤ q ∧ q < 2 ^ 24 ∧ e ≤ k :=
    ⟨m / 2 ^ 23 - 1, m % 2 ^ 23 + 2 ^ 23, by omega, by omega, by omega, by omega⟩
  have hunit : 2 ^ e ≤ 2 ^ k := Nat.pow_le_pow_right two_pos hle
  rw [hm, add_assoc, magUnits_binade k q (fun _ => hlow) hhigh.le,
    magUnits_binade k (q + 1) (fun _ => by omega) hhigh, Nat.add_mul, one_mul]
  omega

theorem roundMag_magUnits_add {e m r : Nat} (hm : m < infMag) (h : (e + 1) * 2 ^ 23 ≤ m) (hr : 2 * r < 2 ^ e) :
    roundMag (magUnits m + r) 1 = m := by
  have hnext := magUnits_add_two_pow_le h
  refine le_antisymm ((roundMag_le_iff one_pos hm).2 (.inl ?_)) (le_roundMag_of_le one_pos hm ?_) <;> omega

/-- The key of 2^25 in numbers. -/
theorem le_fKey_of_large {c : Word} (hlarge : fge c 0x4C000000 = true) : 152 * 2 ^ 23 ≤ fKey c :=
  (fge_iff.1 hlarge).2.2

/-- At a finite value of 2^25 or more, adding 1 rounds away (R124). -/
theorem fadd_ONE_of_large {c : Word} (hc : isFinite c = true) (hlarge : fge c 0x4C000000 = true) :
    fadd c ONE = c := by
  have hkey := le_fKey_of_large hlarge
  have hmag := natAbs_fKey c
  have hpos : 0 < fUnits c := (fKey_pos_iff c).1 (by omega)
  have hsum : (fUnits c + fUnits ONE).natAbs = magUnits (fMag c) + 2 ^ 149 := by
    rw [fUnits_ONE, ← natAbs_fUnits]
    omega
  have hround : roundMag (magUnits (fMag c) + 2 ^ 149) 1 = fMag c :=
    roundMag_magUnits_add (e := 151) (isFinite_iff.1 hc) (by omega) (by norm_num)
  refine eq_of_fKey_eq ?_ (by omega)
  rw [fKey_fadd hc isFinite_ONE, rKey_of_nonneg 1 (by rw [fUnits_ONE]; omega), hsum, hround]
  omega

/-! ## Exact weights: quotient by itself, product by 1.0 or a zero, sum with a zero -/

theorem magUnits_fMag_ONE : magUnits (fMag ONE) = 2 ^ 149 := by decide

theorem fdiv_self {a : Word} (ha : isFinite a = true) (h0 : isZero a = false) : fdiv a a = ONE := by
  rw [fdiv_finite ha ha h0, bne_self_eq_false, mul_comm, ← magUnits_fMag_ONE,
    roundMag_exact (magUnits_pos_of_not_isZero h0) (by decide)]
  decide

theorem fmul_ONE_left {a : Word} (ha : isFinite a = true) : fmul ONE a = a := by
  rw [fmul_finite isFinite_ONE ha, magUnits_fMag_ONE, mul_comm,
    roundMag_exact (Nat.two_pow_pos 149) (isFinite_iff.1 ha), show fSign ONE = false by decide, Bool.false_bne,
    pack_sign_mag]

theorem isZero_fmul_of_isZero {z a : Word} (hz : isZero z = true) (ha : isFinite a = true) :
    isZero (fmul z a) = true := by
  rw [isZero_iff_fKey, fKey_fmul (isFinite_of_isZero hz) ha, fUnits_of_isZero hz, zero_mul, rKey_zero]

theorem fKey_ne_zero_of_not_isZero {a : Word} (h : isZero a = false) : fKey a ≠ 0 := by
  rwa [← Bool.not_eq_true, isZero_iff_fKey] at h

/-- Adding a zero keeps a word other than -0. -/
theorem fadd_of_isZero {a z : Word} (ha : isFinite a = true) (hne : a ≠ negZero) (hz : isZero z = true) :
    fadd a z = a := by
  cases h0 : isZero a
  · exact eq_of_fKey_eq (fKey_fadd_zero ha hz) (fKey_ne_zero_of_not_isZero h0)
  · obtain rfl := (eq_posZero_or_negZero h0).resolve_right hne
    obtain rfl | rfl := eq_posZero_or_negZero hz <;> decide

theorem fKey_zero_fadd {z a : Word} (hz : isZero z = true) (ha : isFinite a = true) : fKey (fadd z a) = fKey a := by
  rw [fKey_fadd (isFinite_of_isZero hz) ha, add_comm, ← fKey_fadd ha (isFinite_of_isZero hz), fKey_fadd_zero ha hz]

/-! ## The weights at the extreme cutoffs (R124, R125) -/

theorem filterAlpha_of_large {c : Word} (hc : isFinite c = true) (hlarge : fge c 0x4C000000 = true) :
    filterAlpha c = ONE := by
  have hkey := le_fKey_of_large hlarge
  rw [filterAlpha, fadd_ONE_of_large hc hlarge, fdiv_self hc (isZero_of_fKey_pos (by omega))]

theorem filterOut_of_alpha_ONE {c x prev : Word} (halpha : filterAlpha c = ONE) (hx : isFinite x = true)
    (hprev : isFinite prev = true) (hne : x ≠ negZero) : filterOut c x prev = x := by
  have hterm : isZero (fmul posZero prev) = true := isZero_fmul_of_isZero isZero_posZero hprev
  rw [filterOut, halpha, fmul_ONE_left hx, fsub_self isFinite_ONE, fadd_of_isZero hx hne hterm]

theorem isZero_filterAlpha {c : Word} (hc : isZero c = true) : isZero (filterAlpha c) = true := by
  obtain rfl | rfl := eq_posZero_or_negZero hc <;> decide

theorem fKey_filterOut_of_alpha_zero {c x prev : Word} (halpha : isZero (filterAlpha c) = true)
    (hx : isFinite x = true) (hprev : isFinite prev = true) : fKey (filterOut c x prev) = fKey prev := by
  have hweight : fsub ONE (filterAlpha c) = ONE := fsub_of_isZero isFinite_ONE (by decide) halpha
  rw [filterOut, hweight, fmul_ONE_left hprev, fKey_zero_fadd (isZero_fmul_of_isZero halpha hx) hprev]

/-- Settles O49: alpha 1.0 passes the input; at alpha a zero the output has the history's key, which is the history
itself where that is not a zero. -/
theorem filterAtExtremeCutoffs : Obligations.FilterAtExtremeCutoffs := by
  refine ⟨fun c hc hlarge => ?_, fun c x prev hc hx hprev => ?_⟩
  · have halpha := filterAlpha_of_large hc hlarge
    exact ⟨halpha, fun x prev => filterOut_of_alpha_ONE halpha⟩
  · have hkey := fKey_filterOut_of_alpha_zero (isZero_filterAlpha hc) hx hprev
    exact ⟨fun h0 => eq_of_fKey_eq hkey (fKey_ne_zero_of_not_isZero h0),
      fun h0 => isZero_iff_fKey.2 (hkey.trans (isZero_iff_fKey.1 h0))⟩

end Sys2Proof.Machine

/-!
PROOF. TICK (46_pipeline.md R127 to R139), from the closed form of its seven steps: the modulated parameters field by
field, the two clamps, and the transparent chain, in which every factor of the sine is 1.0 and the filter's alpha is 1.0.
-/

namespace Sys2Proof.Machine

/-! ## The whole next state of TICK (R127) -/

theorem exec_tick_answered (s : State) :
    exec .tick s = .next { regs := (tickStep s.regs).2, port := answered s 0 (tickStep s.regs).1 } := by
  rw [exec_eq_nextState, nextState_tick, complete_eq_answered]

/-- The modulated parameters field by field: each a copy of its base, but for the target's own (R129 to R132). -/
theorem modulate_eq (l : Word) (g : Regs) :
    modulate l g =
      { freq := if g.lfoTarget = .pitch then modulated g.baseFreq l K_PITCH else g.baseFreq
        amp := if g.lfoTarget = .amplitude then clampAmp (modulated g.amplitude l K_AMP) else g.amplitude
        cutoff := if g.lfoTarget = .filter then clampCutoff (modulated g.baseCutoff l K_CUT) else g.baseCutoff } := by
  obtain ⟨ht, h⟩ | ⟨ht, h⟩ | ⟨ht, h⟩ | ⟨ht, h⟩ := modulate_cases l g <;> simp [ht, h]

/-- Settles O50: the closed form of the seven steps, its parameters written out. -/
theorem tickRunsSevenSteps : Obligations.TickRunsSevenSteps := by
  intro s
  rw [exec_tick_answered, tickStep_eq]
  simp only [tickOut, tickSample, tickPhase, tickCutoff, tickMod, modulate_eq, lfoStep_eq]
  rfl

/-! ## One parameter at most (R138) -/

theorem tickMod_of_none {g : Regs} (h : g.lfoTarget = .none) :
    tickMod g = ⟨g.baseFreq, g.amplitude, g.baseCutoff⟩ := by
  simp [tickMod, modulate_eq, h]

/-- Two of the three modulated parameters are copies of their bases. -/
theorem tickMod_copies_two (g : Regs) :
    ((tickMod g).amp = g.amplitude ∧ (tickMod g).cutoff = g.baseCutoff) ∨
    ((tickMod g).freq = g.baseFreq ∧ (tickMod g).cutoff = g.baseCutoff) ∨
    ((tickMod g).freq = g.baseFreq ∧ (tickMod g).amp = g.amplitude) := by
  rw [tickMod]
  obtain ⟨_, h⟩ | ⟨_, h⟩ | ⟨_, h⟩ | ⟨_, h⟩ := modulate_cases (tickLfo g) g <;> rw [h]
  · exact .inl ⟨rfl, rfl⟩
  · exact .inl ⟨rfl, rfl⟩
  · exact .inr (.inl ⟨rfl, rfl⟩)
  · exact .inr (.inr ⟨rfl, rfl⟩)

/-- Settles O51: TICK records the modulated parameters in LAST_MOD and writes no base. -/
theorem routingIsExclusive : Obligations.RoutingIsExclusive := by
  intro s
  refine ⟨_, exec_tick_answered s, ?_⟩
  rw [tickStep_eq]
  exact ⟨rfl, rfl, rfl, tickMod_copies_two s.regs, fun h => by simp [tickMod_of_none h]⟩

/-! ## The clamps (R131 to R133) -/

theorem flt_clampAmp (a : Word) : flt (clampAmp a) posZero = false := by
  unfold clampAmp
  split
  next => decide
  next h => exact Bool.eq_false_iff.2 h

/-- The range the Filter branch leaves its cutoff in: a NaN passes both comparisons. -/
def CutoffClamped (c : Word) : Prop := isNaN c = true ∨ fge c CUT_MIN = true ∧ fle c CUT_MAX = true

theorem cutoffClamped_CUT_MIN : CutoffClamped CUT_MIN := .inr ⟨by decide, by decide⟩
theorem cutoffClamped_CUT_MAX : CutoffClamped CUT_MAX := .inr ⟨by decide, by decide⟩

/-- A word that meets neither bound's comparison is a NaN or within the bounds. -/
theorem cutoffClamped_of_not_flt {c : Word} (hlow : flt c CUT_MIN = false) (hhigh : fgt c CUT_MAX = false) :
    CutoffClamped c := by
  cases hnan : isNaN c
  · have hmin : isNaN CUT_MIN = false := by decide
    have hmax : isNaN CUT_MAX = false := by decide
    rw [flt_of_not_isNaN hnan hmin, decide_eq_false_iff_not, not_lt] at hlow
    rw [fgt, flt_of_not_isNaN hmax hnan, decide_eq_false_iff_not, not_lt] at hhigh
    exact .inr ⟨fge_iff.2 ⟨hnan, hmin, hlow⟩, fle_iff.2 ⟨hnan, hmax, hhigh⟩⟩
  · exact .inl hnan

theorem cutoffClamped_clampCutoff (c : Word) : CutoffClamped (clampCutoff c) := by
  unfold clampCutoff
  cases hlow : flt c CUT_MIN
  · cases hhigh : fgt c CUT_MAX
    · simpa [hhigh] using cutoffClamped_of_not_flt hlow hhigh
    · simpa [hhigh] using cutoffClamped_CUT_MAX
  · exact cutoffClamped_CUT_MIN

theorem tickMod_cutoff_of_filter {g : Regs} (h : g.lfoTarget = .filter) :
    (tickMod g).cutoff = clampCutoff (modulated g.baseCutoff (tickLfo g) K_CUT) := by
  simp [tickMod, modulate_eq, h]

theorem tickMod_amp_of_amplitude {g : Regs} (h : g.lfoTarget = .amplitude) :
    (tickMod g).amp = clampAmp (modulated g.amplitude (tickLfo g) K_AMP) := by
  simp [tickMod, modulate_eq, h]

theorem tickCutoff_of_filter {m : Modulated} {g : Regs} (h : g.lfoTarget = .filter) : tickCutoff m g = m.cutoff :=
  if_pos h

theorem tickCutoff_of_ne_filter {m : Modulated} {g : Regs} (h : g.lfoTarget ≠ .filter) :
    tickCutoff m g = g.filtCutoff :=
  if_neg h

/-- Settles O52: the branches end in the clamps, and the push writes FILT_CUTOFF for the Filter branch alone. -/
theorem branchesClampTheirParameter : Obligations.BranchesClampTheirParameter := by
  intro s
  refine ⟨_, exec_tick_answered s, ?_⟩
  rw [tickStep_eq]
  refine ⟨fun h => ⟨tickCutoff_of_filter h, ?_⟩, tickCutoff_of_ne_filter, fun h => ?_⟩
  · have hclamped := cutoffClamped_clampCutoff (modulated s.regs.baseCutoff (tickLfo s.regs) K_CUT)
    rwa [← tickMod_cutoff_of_filter h, ← tickCutoff_of_filter h] at hclamped
  · dsimp only
    rw [tickMod_amp_of_amplitude h, flt_clampAmp]

/-! ## The transparent chain (R139) -/

theorem sin32_finite_or_nan (p : Word) : isFinite (sin32 p) = true ∨ sin32 p = canonNaN := by
  cases h : isFinite p
  · exact .inr (sin32Of_not_finite Config.sinRaw h)
  · exact .inl (isFinite_of_inSignedUnit (inSignedUnit_sin32Of Config.sinRaw h))

theorem fmul_sin32_ONE (p : Word) : fmul (sin32 p) ONE = sin32 p := by
  obtain h | h := sin32_finite_or_nan p
  · rw [fmul_comm, fmul_ONE_left h]
  · rw [h, fmul_nan_left isNaN_canonNaN]

theorem filterOut_nan_input (c prev : Word) {x : Word} (h : isNaN x = true) : filterOut c x prev = canonNaN := by
  rw [filterOut, fmul_nan_right h, fadd_nan_left isNaN_canonNaN]

section
variable {c prev : Word} (halpha : filterAlpha c = ONE) (hprev : isFinite prev = true)
include halpha hprev

/-- At alpha 1.0 the filter passes a sine, a NaN among them, unless it is -0. -/
theorem filterOut_sin32_of_alpha_ONE {p : Word} (hne : sin32 p ≠ negZero) :
    filterOut c (sin32 p) prev = sin32 p := by
  obtain h | h := sin32_finite_or_nan p
  · exact filterOut_of_alpha_ONE halpha h hprev hne
  · rw [h, filterOut_nan_input c prev isNaN_canonNaN]

/-- At alpha 1.0 an input of -0 gives a zero, whose sign is the history's to choose. -/
theorem isZero_filterOut_negZero : isZero (filterOut c negZero prev) = true := by
  have hterm : isZero (fmul posZero prev) = true := isZero_fmul_of_isZero isZero_posZero hprev
  have hfin : isFinite negZero = true := by decide
  rw [filterOut, halpha, fmul_ONE_left hfin, fsub_self isFinite_ONE, isZero_iff_fKey, fKey_fadd_zero hfin hterm,
    fKey_negZero]

end

theorem tickEnv_of_sustain {g : Regs} (h : g.envState = .sustain) : tickEnv g = g.envSustain := by
  rw [tickEnv, envNext_sustain g.dt h]

/-- Amplitude and envelope at 1.0 leave the sine as it is. -/
theorem tickSample_of_unit_gain {g : Regs} (hwave : g.waveType = .sine) (hamp : (tickMod g).amp = ONE)
    (henv : tickEnv g = ONE) : tickSample g = sin32 (tickPhase g) := by
  rw [tickSample, hwave, hamp, henv, fmul_ONE_left isFinite_ONE, wave, fmul_sin32_ONE]

/-- Settles O55: the sample into the filter is the sine, and the filter at alpha 1.0 passes it. -/
theorem tickReproducesSine : Obligations.TickReproducesSine := by
  intro s hwave hamp hst hsus htarget hcut hlarge hprev
  have hmod := tickMod_of_none htarget
  have hsample : tickSample s.regs = sin32 (tickPhase s.regs) :=
    tickSample_of_unit_gain hwave (by rw [hmod, hamp]) (by rw [tickEnv_of_sustain hst, hsus])
  have hout : tickOut s.regs = filterOut s.regs.filtCutoff (sin32 (tickPhase s.regs)) s.regs.filtPrev := by
    rw [tickOut, hsample, tickCutoff_of_ne_filter (by simp [htarget])]
  have halpha := filterAlpha_of_large hcut hlarge
  refine ⟨_, tickOut s.regs, exec_tick_answered s, ?_⟩
  rw [tickStep_eq, hout]
  refine ⟨rfl, ?_, filterOut_sin32_of_alpha_ONE halpha hprev, fun hneg => ?_⟩
  · dsimp only
    rw [tickPhase, hmod]
  · dsimp only at hneg
    rw [hneg]
    exact isZero_filterOut_negZero halpha hprev

end Sys2Proof.Machine

/-!
PROOF. The machine's steps (60_exceptions.md R144, R146, 70_reset_and_hazards.md R154, R155): what a step and a command
can leave, said once, and the machine invariant, which each of these cases keeps.
-/

namespace Sys2Proof.Machine

/-! ## What a command and a step can leave -/

/-- A transaction leaves its command's next state, or the rejection the decoder answers (30_encoding.md R84). -/
theorem runCommand_cases (c : Command) (s : State) :
    (∃ i, decode c = .command i ∧ runCommand c s = .next (nextState i s)) ∨
    (∃ code, decode c = .rejected code ∧ runCommand c s = .next (reject code s)) := by
  cases h : decode c with
  | command i => exact .inl ⟨i, rfl, by rw [runCommand_of_command h, exec_eq_nextState]⟩
  | rejected code => exact .inr ⟨code, rfl, runCommand_of_rejected h s⟩

/-- The port under the reset input: none in execution, and the responses as they are or as the command in flight leaves
them (70_reset_and_hazards.md R154). -/
theorem resetByInput_port_cases (s : State) :
    ∃ rs n, (resetByInput s).port = { s.port with current := none, responses := rs, freeIndex := n } ∧
      (rs = s.port.responses ∨
        ∃ c t, s.port.current = some c ∧ runCommand c s = .next t ∧ rs = t.port.responses) := by
  have hport : (resetByInput s).port = (flushInFlight s).port := rfl
  rw [hport]
  cases hcurrent : s.port.current with
  | none =>
    refine ⟨s.port.responses, s.port.freeIndex, ?_, .inl rfl⟩
    simp only [flushInFlight, hcurrent]
    rw [← hcurrent]
  | some c =>
    obtain ⟨t, code, w, hrun, ht⟩ := everyCommandAnswersOnce c s
    cases hdone : Config.inFlightCompletes s.port.freeIndex with
    | false =>
      refine ⟨s.port.responses, s.port.freeIndex + 1, ?_, .inl rfl⟩
      simp [flushInFlight, hcurrent, hdone]
    | true =>
      refine ⟨t.port.responses, s.port.freeIndex + 1, ?_, .inr ⟨c, t, rfl, hrun, rfl⟩⟩
      simp [flushInFlight, hcurrent, hdone, hrun, ht, answered]

/-- A step answers to the reset input, accepts at an idle port, or runs the command in execution. -/
theorem step_cases (s : State) :
    (s.port.resetInput = true ∧ step s = .next (resetByInput s)) ∨
    (s.port.resetInput = false ∧ s.port.current = none ∧ step s = .next { s with port := accept s.port }) ∨
    (∃ c t, s.port.resetInput = false ∧ s.port.current = some c ∧ runCommand c s = .next t ∧ step s = .next t) := by
  cases hreset : s.port.resetInput with
  | true => exact .inl ⟨rfl, by simp [step, hreset]⟩
  | false =>
    right
    cases hcurrent : s.port.current with
    | none => exact .inl ⟨rfl, rfl, step_of_idle hreset hcurrent⟩
    | some c =>
      obtain ⟨t, _, _, hrun, _⟩ := everyCommandAnswersOnce c s
      exact .inr ⟨c, t, rfl, rfl, hrun, (step_of_current hreset hcurrent).trans hrun⟩

/-- Settles O11: each of the three cases answers a next state. -/
theorem stepAlwaysAnswersNext : Obligations.StepAlwaysAnswersNext := by
  intro s
  obtain ⟨_, h⟩ | ⟨_, _, h⟩ | ⟨_, t, _, _, _, h⟩ := step_cases s
  · exact ⟨_, h⟩
  · exact ⟨_, h⟩
  · exact ⟨t, h⟩

/-- Settles O9: the port is as `resetByInput_port_cases` says. -/
theorem stepUnderResetInput : Obligations.StepUnderResetInput := by
  intro s hreset
  obtain ⟨rs, n, hport, hresponses⟩ := resetByInput_port_cases s
  refine ⟨resetByInput s, if_pos hreset, resetByInput_regs s, ?_⟩
  rw [hport]
  exact ⟨rfl, hreset, rfl, rfl, hresponses⟩

/-! ## The machine invariant -/

theorem rejectStatus_legal (code : RejectCode) : rejectStatus code ≤ 5#4 ∧ rejectStatus code ≠ 0#4 := by
  cases code <;> decide

theorem responsesLegal_answered {s : State} {code : StatusCode} {w : Word}
    (hs : ∀ r ∈ s.port.responses, responseLegal r) (hlegal : responseLegal ⟨code, w⟩) :
    ∀ r ∈ (answered s code w).responses, responseLegal r := by
  intro r hr
  rcases List.mem_append.1 hr with hold | hnew
  · exact hs r hold
  · rw [List.mem_singleton.1 hnew]
    exact hlegal

section
variable {s : State} (h : MachineInv s)
include h

theorem machineInv_complete {g : Regs} {w : Word} (hstatus : statusLegal g.status) (hunits : unitCanonical g) :
    MachineInv (complete s g w) := by
  obtain ⟨-, hresponses, -⟩ := h
  have hle : statusOk ≤ 5#4 := by decide
  have hok : responseLegal ⟨statusOk, w⟩ := ⟨hle, fun hne => absurd rfl hne⟩
  exact ⟨hstatus, responsesLegal_answered hresponses hok, hunits⟩

theorem machineInv_reject (code : RejectCode) : MachineInv (reject code s) := by
  obtain ⟨-, hresponses, hunits⟩ := h
  obtain ⟨hle, hne⟩ := rejectStatus_legal code
  exact ⟨⟨hle, fun _ => hne⟩, responsesLegal_answered hresponses ⟨hle, fun _ => rfl⟩, hunits⟩

end

/-- A write to STATUS clears bits at most, and no other write touches it (10_state.md R51). -/
theorem statusLegal_writeRegister {g : Regs} (h : statusLegal g.status) (r : Reg) (v : Word) :
    statusLegal (writeRegister r v g).status := by
  by_cases hr : r = .status
  · obtain ⟨hle, herr⟩ := h
    rw [hr]
    exact ⟨hle, fun hkept => herr (Bool.and_eq_true_iff.1 hkept).1⟩
  · rwa [writeRegister_status hr]

/-- The registers of `unitCanonical` are read-only, so WRITE_REG leaves them. -/
theorem unitCanonical_writeRegister {g : Regs} (h : unitCanonical g) (r : Reg) (v : Word) :
    unitCanonical (writeRegister r v g) := by
  have hpart (g : Regs) : unitCanonical g ↔ unitCanonical (readOnlyPart g) := Iff.rfl
  rwa [hpart, readOnlyPart_writeRegister, ← hpart]

theorem canonical_lfoNextPhase {g : Regs} (dt : Word) (h : canonical g.lfoPhase) : canonical (lfoNextPhase dt g) := by
  unfold lfoNextPhase
  split
  next => exact phaseAdvance_canonical _ _ _
  next => exact h

theorem unitCanonical_tickStep {g : Regs} (h : unitCanonical g) : unitCanonical (tickStep g).2 := by
  obtain ⟨-, hlfo, -⟩ := h
  rw [tickStep_eq]
  exact ⟨phaseAdvance_canonical _ _ _, canonical_lfoNextPhase _ hlfo, filterOut_canonical _ _ _,
    filterOut_canonical _ _ _, lfoValue_canonical _ _⟩

theorem statusLegal_tickStep {g : Regs} (h : statusLegal g.status) : statusLegal (tickStep g).2.status := by
  rw [status_tickStep]
  exact h

/-- Every command keeps the invariant: a completion by the registers it writes, a refusal by its code. -/
theorem machineInv_nextState {s : State} (h : MachineInv s) (i : Instr) : MachineInv (nextState i s) := by
  have ⟨hstatus, _, hunits⟩ := h
  have ⟨hosc, hlfo, hfilt, hout, hlast⟩ := hunits
  have hzero : canonical posZero := canonical_of_not_isNaN isNaN_posZero
  cases i with
  | writeReg idx v =>
    cases hop : writeOperand idx v with
    | error code => rw [nextState_writeReg_of_error hop]; exact machineInv_reject h code
    | ok r =>
      rw [nextState_writeReg_of_ok hop]
      exact machineInv_complete h (statusLegal_writeRegister hstatus r v) (unitCanonical_writeRegister hunits r v)
  | readReg idx =>
    cases hop : readOperand idx with
    | error code => rw [nextState_readReg_of_error hop]; exact machineInv_reject h code
    | ok r => rw [nextState_readReg_of_ok hop]; exact machineInv_complete h hstatus hunits
  | tick => exact machineInv_complete h (statusLegal_tickStep hstatus) (unitCanonical_tickStep hunits)
  | reset =>
    obtain ⟨hstatus', -, hunits'⟩ := resetMeetsMachineInvariant
    exact machineInv_complete h hstatus' hunits'
  | lfoStep =>
    rw [nextState_lfoStep]
    exact machineInv_complete h hstatus ⟨hosc, canonical_lfoNextPhase _ hlfo, hfilt, hout, hlast⟩
  | lfoReset => exact machineInv_complete h hstatus ⟨hosc, hzero, hfilt, hout, hlast⟩
  | oscStep f => exact machineInv_complete h hstatus ⟨phaseAdvance_canonical _ _ _, hlfo, hfilt, hout, hlast⟩
  | filtStep x => exact machineInv_complete h hstatus ⟨hosc, hlfo, filterOut_canonical _ _ _, hout, hlast⟩
  | nop | noteOn | noteOff | envStep | waveEval _ _ => exact machineInv_complete h hstatus hunits

theorem machineInv_runCommand {s t : State} {c : Command} (h : MachineInv s) (hrun : runCommand c s = .next t) :
    MachineInv t := by
  obtain ⟨i, -, hi⟩ | ⟨code, -, hcode⟩ := runCommand_cases c s
  · obtain rfl : nextState i s = t := by simpa [hi] using hrun
    exact machineInv_nextState h i
  · obtain rfl : reject code s = t := by simpa [hcode] using hrun
    exact machineInv_reject h code

theorem machineInv_resetByInput {s : State} (h : MachineInv s) : MachineInv (resetByInput s) := by
  obtain ⟨hstatus, -, hunits⟩ := resetMeetsMachineInvariant
  obtain ⟨rs, n, hport, hrs⟩ := resetByInput_port_cases s
  refine ⟨hstatus, ?_, hunits⟩
  rw [hport]
  obtain hrs | ⟨c, t, -, hrun, hrs⟩ := hrs
  · obtain ⟨-, hresponses, -⟩ := h
    rwa [hrs]
  · obtain ⟨-, hresponses, -⟩ := machineInv_runCommand h hrun
    rwa [hrs]

theorem accept_responses (p : Port) : (accept p).responses = p.responses := by
  obtain ⟨_, _, h⟩ | ⟨_, _, _, _, h⟩ | ⟨_, _, _, _, h⟩ := accept_cases p <;> rw [h] <;> rfl

/-- Settles O12: the reset input, an acceptance and a command each keep the invariant. -/
theorem stepKeepsMachineInvariant : Obligations.StepKeepsMachineInvariant := by
  intro s t h hstep
  obtain ⟨_, hcase⟩ | ⟨_, _, hcase⟩ | ⟨c, t', _, _, hrun, hcase⟩ := step_cases s
  · obtain rfl : resetByInput s = t := by simpa [hcase] using hstep
    exact machineInv_resetByInput h
  · obtain rfl : { s with port := accept s.port } = t := by simpa [hcase] using hstep
    obtain ⟨hstatus, hresponses, hunits⟩ := h
    exact ⟨hstatus, by rwa [accept_responses], hunits⟩
  · obtain rfl : t' = t := by simpa [hcase] using hstep
    exact machineInv_runCommand h hrun

end Sys2Proof.Machine

/-!
PROOF. The decode checks in plain numbers (60_exceptions.md R140 to R142): the verdict of R142 is the decoder's, then the
command's own operand check, and it decides between the rejection and the completion.
-/

namespace Sys2Proof.Machine

/-! ## The register map in numbers (10_state.md R20, R21) -/

theorem readOnlyIndex_regIndex (r : Reg) : readOnlyIndex (regIndex r).toNat = true ↔ writeKind r = .readOnly := by
  cases r <;> decide

theorem enum2_iff_index (r : Reg) :
    ((regIndex r).toNat = 0x01 ∨ (regIndex r).toNat = 0x0D ∨ (regIndex r).toNat = 0x0E) ↔ writeKind r = .enum2 := by
  cases r <;> decide

theorem flag1_iff_index (r : Reg) : (regIndex r).toNat = 0x0F ↔ writeKind r = .flag1 := by
  cases r <;> decide

theorem unmappedIndex_of_regOfIndex {idx : RegIndex} (h : regOfIndex idx = none) :
    unmappedIndex idx.toNat = true := by
  by_contra hmapped
  obtain ⟨r, -, hr⟩ := exists_regIndex_of_mapped (Bool.eq_false_iff.2 hmapped)
  rw [← BitVec.eq_of_toNat_eq hr, regOfIndex_regIndex] at h
  cases h

/-! ## The operand checks in numbers (R142, R143) -/

/-- The checks of R142 on the operands, after those on the opcode and the reserved bits. -/
def operandVerdict (op a d : Nat) : Option RejectCode :=
  if (op = 0x1 ∨ op = 0x2) ∧ unmappedIndex a = true then some .badReg
  else if op = 0x1 ∧ readOnlyIndex a = true then some .readOnly
  else if op = 0x1 ∧ (a = 0x01 ∨ a = 0x0D ∨ a = 0x0E) ∧ 3 < d then some .badValue
  else if op = 0x1 ∧ a = 0x0F ∧ 1 < d then some .badValue
  else none

theorem operandCheck_readReg (idx : RegIndex) (d : Nat) :
    operandCheck (.readReg idx) = operandVerdict 2 idx.toNat d := by
  obtain ⟨hnone, h⟩ | ⟨r, rfl, h⟩ := readOperand_cases idx
  · simp [operandCheck, operandVerdict, h, unmappedIndex_of_regOfIndex hnone]
  · simp [operandCheck, operandVerdict, unmappedIndex_regIndex]

theorem operandCheck_writeReg (idx : RegIndex) (v : Word) :
    operandCheck (.writeReg idx v) = operandVerdict 1 idx.toNat v.toNat := by
  have hthree : 3#32 < v ↔ 3 < v.toNat := Iff.rfl
  have hone : 1#32 < v ↔ 1 < v.toNat := Iff.rfl
  cases hidx : regOfIndex idx with
  | none =>
    simp [operandCheck, operandVerdict, writeOperand_of_unmapped v hidx, unmappedIndex_of_regOfIndex hidx]
  | some r =>
    obtain rfl := regOfIndex_eq_some.1 hidx
    simp only [operandVerdict, unmappedIndex_regIndex, readOnlyIndex_regIndex, enum2_iff_index, flag1_iff_index,
      ← hthree, ← hone]
    cases hkind : writeKind r with
    | enum2 => by_cases hv : 3#32 < v <;> simp [operandCheck, writeOperand, hkind, hv]
    | flag1 => by_cases hv : 1#32 < v <;> simp [operandCheck, writeOperand, hkind, hv]
    | f32 | w1c | readOnly => simp [operandCheck, writeOperand, hkind]

theorem operandCheck_of_no_index {op : BitVec 4} (hwrite : op ≠ 1) (hread : op ≠ 2) (arg : BitVec 8) (d : Word) :
    operandCheck (instrOfFields op arg d) = none := by
  unfold instrOfFields
  split
  case h_2 h => exact absurd (BitVec.eq_of_toNat_eq h) hwrite
  case h_3 h => exact absurd (BitVec.eq_of_toNat_eq h) hread
  all_goals rfl

theorem operandVerdict_of_no_index {op : Nat} (hwrite : op ≠ 1) (hread : op ≠ 2) (a d : Nat) :
    operandVerdict op a d = none := by
  simp [operandVerdict, hwrite, hread]

theorem operandCheck_instrOfFields (op : BitVec 4) (arg : BitVec 8) (d : Word) :
    operandCheck (instrOfFields op arg d) = operandVerdict op.toNat arg.toNat d.toNat := by
  by_cases hwrite : op = 1
  · subst hwrite
    exact operandCheck_writeReg arg d
  · by_cases hread : op = 2
    · subst hread
      exact operandCheck_readReg arg d.toNat
    · rw [operandCheck_of_no_index hwrite hread, operandVerdict_of_no_index]
      · exact fun h => hwrite (BitVec.eq_of_toNat_eq h)
      · exact fun h => hread (BitVec.eq_of_toNat_eq h)

/-! ## The verdict (R142) -/

theorem specVerdict_of_illegal {c : Command} (hop : 0xD#4 ≤ opField c.cmd) : specVerdict c = some .illegalOp :=
  if_pos ((illegalOp_iff_toNat c.cmd).1 hop)

theorem specVerdict_of_reserved {c : Command} (hop : ¬ 0xD#4 ≤ opField c.cmd) (hbit : ReservedBitSet c.cmd) :
    specVerdict c = some .reservedBits := by
  rw [illegalOp_iff_toNat] at hop
  rw [reservedBitSet_iff_toNat] at hbit
  unfold specVerdict
  dsimp only
  rw [if_neg hop]
  split_ifs with hrsv hwave harg
  · rfl
  · rfl
  · rfl
  all_goals exact absurd hbit (by simp only [hrsv, hwave, harg, or_self, not_false_iff])

theorem specVerdict_of_legal {c : Command} (hop : ¬ 0xD#4 ≤ opField c.cmd) (hbit : ¬ ReservedBitSet c.cmd) :
    specVerdict c = operandVerdict (opField c.cmd).toNat (argField c.cmd).toNat c.data.toNat := by
  rw [illegalOp_iff_toNat] at hop
  rw [reservedBitSet_iff_toNat, not_or, not_or] at hbit
  obtain ⟨hrsv, hwave, harg⟩ := hbit
  unfold specVerdict
  dsimp only
  rw [if_neg hop, if_neg hrsv, if_neg hwave, if_neg harg, toNat_opField, toNat_argField]
  rfl

/-- The verdict of R142 is the decoder's refusal, or the operand check of the decoded command (R143). -/
theorem specVerdict_cases (c : Command) :
    (∃ code, decode c = .rejected code ∧ specVerdict c = some code) ∨
    (∃ i, decode c = .command i ∧ specVerdict c = operandCheck i) := by
  by_cases hop : 0xD#4 ≤ opField c.cmd
  · exact .inl ⟨_, decode_of_illegal hop, specVerdict_of_illegal hop⟩
  · by_cases hbit : ReservedBitSet c.cmd
    · exact .inl ⟨_, decode_of_reserved hop hbit, specVerdict_of_reserved hop hbit⟩
    · exact .inr ⟨_, decode_of_legal hop hbit, by
        rw [specVerdict_of_legal hop hbit, operandCheck_instrOfFields]⟩

/-! ## What the verdict decides (R140, R143) -/

/-- The two commands with an operand check, by its result. -/
theorem operandCheck_cases (i : Instr) (s : State) :
    (∃ code, operandCheck i = some code ∧ nextState i s = reject code s) ∨
    (operandCheck i = none ∧ ∃ g w, nextState i s = complete s g w) := by
  cases i with
  | writeReg idx v =>
    cases h : writeOperand idx v with
    | error code => exact .inl ⟨code, by simp [operandCheck, h], nextState_writeReg_of_error h s⟩
    | ok r => exact .inr ⟨by simp [operandCheck, h], _, _, nextState_writeReg_of_ok h s⟩
  | readReg idx =>
    cases h : readOperand idx with
    | error code => exact .inl ⟨code, by simp [operandCheck, h], nextState_readReg_of_error h s⟩
    | ok r => exact .inr ⟨by simp [operandCheck, h], _, _, nextState_readReg_of_ok h s⟩
  | lfoStep => exact .inr ⟨rfl, _, _, nextState_lfoStep s⟩
  | _ => exact .inr ⟨rfl, _, _, rfl⟩

/-- Settles O14: the refusal is the decoder's or the command's own, and `reject` is all either does. -/
theorem rejectedCommandOnlyTouchesStatus : Obligations.RejectedCommandOnlyTouchesStatus := by
  refine ⟨fun c code s hverdict => ?_, rfl, rfl, rfl, rfl, rfl⟩
  rw [← reject_eq_rejectedState]
  obtain ⟨code', hdecode, hspec⟩ | ⟨i, hdecode, hspec⟩ := specVerdict_cases c
  · obtain rfl : code' = code := by simpa [hspec] using hverdict
    exact runCommand_of_rejected hdecode s
  · rw [runCommand_of_command hdecode, exec_eq_nextState]
    obtain ⟨code', hcheck, hnext⟩ | ⟨hcheck, -⟩ := operandCheck_cases i s
    · obtain rfl : code' = code := by simpa [hspec, hcheck] using hverdict
      rw [hnext]
    · simp [hspec, hcheck] at hverdict

/-- Settles O15: no check refuses, so the decoded command completes. -/
theorem passedChecksExecute : Obligations.PassedChecksExecute := by
  intro c s hverdict
  obtain ⟨code, -, hspec⟩ | ⟨i, hdecode, hspec⟩ := specVerdict_cases c
  · simp [hspec] at hverdict
  · obtain ⟨code, hcheck, -⟩ | ⟨hcheck, g, w, hnext⟩ := operandCheck_cases i s
    · simp [hspec, hcheck] at hverdict
    · refine ⟨i, nextState i s, w, hdecode, ?_, runCommand_of_command hdecode s, exec_eq_nextState i s, ?_⟩
      · rw [wellFormed, hcheck]
        rfl
      · rw [hnext, complete_port_eq_answered, statusOk]

end Sys2Proof.Machine

/-!
PROOF. What persists (70_reset_and_hazards.md R157, R164): a NaN in a register that a unit accumulates into stays a NaN, and
a voice at rest stays at rest, since its filter adds a zero and +0.
-/

namespace Sys2Proof.Machine

/-! ## A NaN stays (R164) -/

theorem isNaN_lfoNextPhase {g : Regs} (dt : Word) (hnan : isNaN g.lfoPhase = true) :
    isNaN (lfoNextPhase dt g) = true := by
  unfold lfoNextPhase
  split
  next => rw [phaseAdvance_nan _ _ hnan, isNaN_canonNaN]
  next => exact hnan

/-- An envelope that ramps, at a NaN. -/
def NanRamp (g : Regs) : Prop :=
  isNaN g.envValue = true ∧ (g.envState = .attack ∨ g.envState = .decay ∨ g.envState = .release)

/-- A NaN fails the comparison that would end its segment (43_envelope.md R107, R108, R110). -/
theorem envNext_of_nanRamp {g : Regs} (dt : Word) (h : NanRamp g) : envNext dt g = (g.envState, canonNaN) := by
  obtain ⟨hnan, hst | hst | hst⟩ := h
  · rw [envNext_attack dt hst, attackValue, fadd_nan_left hnan, hst]
    exact if_neg (by decide)
  · rw [envNext_decay dt hst, decayValue, fsub_nan_left hnan, hst, fle_nan (.inl isNaN_canonNaN)]
    rfl
  · rw [envNext_release dt hst, releaseValue, fsub_nan_left hnan, hst]
    exact if_neg (by decide)

section
variable {i : Instr} {s : State} (hreset : i ≠ .reset)
include hreset

theorem isNaN_nextState_oscPhase (hnan : isNaN s.regs.oscPhase = true) :
    isNaN (nextState i s).regs.oscPhase = true := by
  have hadvance (f : Word) : isNaN (phaseAdvance s.regs.oscPhase f s.regs.dt) = true := by
    rw [phaseAdvance_nan _ _ hnan, isNaN_canonNaN]
  cases i with
  | tick => rw [nextState_tick, complete_regs, tickStep_eq]; exact hadvance _
  | oscStep f => exact hadvance f
  | _ => rwa [nextState_oscPhase s hreset (by simp) (by simp)]

theorem isNaN_nextState_filtPrev (hnan : isNaN s.regs.filtPrev = true) :
    isNaN (nextState i s).regs.filtPrev = true := by
  have hout (c x : Word) : isNaN (filterOut c x s.regs.filtPrev) = true := by
    rw [filterOut_nan_prev _ _ hnan, isNaN_canonNaN]
  cases i with
  | tick => rw [nextState_tick, complete_regs, tickStep_eq]; exact hout _ _
  | filtStep x => exact hout _ x
  | _ => rwa [nextState_filtPrev s hreset (by simp) (by simp)]

theorem isNaN_nextState_lfoPhase (hlfoReset : i ≠ .lfoReset) (hnan : isNaN s.regs.lfoPhase = true) :
    isNaN (nextState i s).regs.lfoPhase = true := by
  have hnext := isNaN_lfoNextPhase s.regs.dt hnan
  cases i with
  | tick => rw [nextState_tick, complete_regs, tickStep_eq]; exact hnext
  | lfoStep => rw [nextState_lfoStep]; exact hnext
  | _ => rwa [nextState_lfoPhase s hreset (by simp) (by simp) hlfoReset]

theorem nanRamp_nextState (h : NanRamp s.regs) : NanRamp (nextState i s).regs := by
  have hnext := envNext_of_nanRamp s.regs.dt h
  have ⟨hnan, hramp⟩ := h
  cases i with
  | tick =>
    rw [nextState_tick, complete_regs, tickStep_eq, NanRamp, tickEnv, hnext]
    exact ⟨isNaN_canonNaN, hramp⟩
  | envStep =>
    rw [nextState_envStep, complete_regs, envStep_regs, NanRamp, hnext]
    exact ⟨isNaN_canonNaN, hramp⟩
  | noteOn => exact ⟨hnan, .inl rfl⟩
  | noteOff => exact ⟨hnan, .inr (.inr rfl)⟩
  | _ =>
    rwa [NanRamp, nextState_envValue s hreset (by simp) (by simp),
      nextState_envState s hreset (by simp) (by simp) (by simp) (by simp)]

end

/-- Settles O57: one lemma per register; the two clearing commands write +0. -/
theorem nanSticksUntilReset : Obligations.NanSticksUntilReset := by
  refine fun i s => ⟨nextState i s, exec_eq_nextState i s, isNaN_nextState_oscPhase, isNaN_nextState_filtPrev,
    isNaN_nextState_lfoPhase, fun hreset hnan hramp => nanRamp_nextState hreset ⟨hnan, hramp⟩, ?_, ?_⟩
  · rintro rfl
    rfl
  · rintro rfl
    exact ⟨rfl, rfl, rfl, rfl⟩

/-! ## A voice at rest (R157) -/

/-- Adding 1.0 to a positive finite cutoff neither falls nor overflows: below 2^25 the sum is at most 2^26. -/
theorem fadd_ONE_of_posFinite {c : Word} (hc : posFinite c) :
    isFinite (fadd c ONE) = true ∧ fKey c ≤ fKey (fadd c ONE) := by
  obtain ⟨hrise, -⟩ := fle_fadd_and_fsub_fle hc.2 isNaN_ONE (by decide)
  obtain ⟨-, -, hle⟩ := fle_iff.1 hrise
  refine ⟨?_, hle⟩
  cases hlarge : fge c 0x4C000000 with
  | true => rw [fadd_ONE_of_large hc.2 hlarge, hc.2]
  | false =>
    rw [fge, fle_of_not_isNaN (by decide) (isNaN_of_isFinite hc.2), decide_eq_false_iff_not, fKey_le_iff,
      show fUnits 0x4C000000 = 2 ^ 174 by decide] at hlarge
    have hpos := fUnits_pos_of_posFinite hc
    exact (between_fadd (lo := posZero) (hi := 0x4C800000) hc.2 isFinite_ONE isFinite_posZero (by decide)
      (by rw [fUnits_posZero, fUnits_ONE]; omega)
      (by rw [fUnits_ONE, show fUnits 0x4C800000 = 2 ^ 175 by decide]; omega)).1

/-- c/(c + 1) is in [0, 1]. -/
theorem inUnit_filterAlpha {c : Word} (hc : posFinite c) : inUnit (filterAlpha c) := by
  obtain ⟨hfin, hle⟩ := fadd_ONE_of_posFinite hc
  have hpos : 0 < fKey (fadd c ONE) := (fKey_pos_of_posFinite hc).trans_le hle
  have hzero := isZero_of_fKey_pos hpos
  have hunits := fUnits_pos_of_posFinite hc
  have hmag : (magUnits (fMag (fadd c ONE)) : Int) = fUnits (fadd c ONE) := by
    rw [fUnits_eq, fSign_of_fKey_pos hpos, if_neg Bool.false_ne_true, one_mul]
  have hkey := fKey_fdiv hc.2 hfin hzero
  rw [fSign_of_fKey_pos hpos, if_neg Bool.false_ne_true, one_mul] at hkey
  refine inUnit_iff_between.2 (between_of_fKey hkey (magUnits_pos_of_not_isZero hzero) isFinite_posZero
    isFinite_ONE ?_ ?_)
  · rw [fUnits_posZero]
    omega
  · rw [hmag, fUnits_ONE, mul_comm]
    exact mul_le_mul_of_nonneg_left ((fKey_le_iff _ _).1 hle) (by norm_num)

/-- A difference that is not negative has no sign, a zero among them (00_scope.md R10). -/
theorem fSign_fsub_of_le {a b : Word} (ha : isFinite a = true) (hb : isFinite b = true) (hsign : fSign a = false)
    (hle : fUnits b ≤ fUnits a) : fSign (fsub a b) = false := by
  rw [fsub, fadd_finite ha (by simpa), fUnits_fneg]
  split
  next => rw [fSign_pack (by norm_num), hsign, Bool.false_and]
  next =>
    rw [fSign_pack (roundMag_lt _ _), decide_eq_false_iff_not]
    omega

theorem fmul_posZero_of_nonneg {a : Word} (ha : isFinite a = true) (hsign : fSign a = false) :
    fmul a posZero = posZero := by
  have hmag : fMag posZero = 0 := by decide
  rw [fmul_finite ha isFinite_posZero, hmag, magUnits_zero, mul_zero, roundMag_zero, hsign, fSign_posZero]
  decide

/-- The filter from a history of +0 answers a zero by +0: the history's weight has no sign. -/
theorem filterOut_of_isZero {c x : Word} (hc : posFinite c) (hx : isZero x = true) :
    filterOut c x posZero = posZero := by
  have halpha := inUnit_filterAlpha hc
  obtain ⟨hfin, -, hhigh⟩ := inUnit_iff_between.1 halpha
  have hinput : isZero (fmul (filterAlpha c) x) = true := by
    rw [fmul_comm]
    exact isZero_fmul_of_isZero hx hfin
  have hhistory : fmul (fsub ONE (filterAlpha c)) posZero = posZero :=
    fmul_posZero_of_nonneg (isFinite_of_inUnit (inUnit_fsub_ONE halpha))
      (fSign_fsub_of_le isFinite_ONE hfin (by decide) hhigh)
  rw [filterOut, hhistory]
  obtain h | h := eq_posZero_or_negZero hinput <;> rw [h] <;> decide

theorem isFinite_sin32 {p : Word} (hp : isFinite p = true) : isFinite (sin32 p) = true :=
  isFinite_of_inSignedUnit (inSignedUnit_sin32Of Config.sinRaw hp)

section
variable {g : Regs} (h : quietVoice g)
include h

theorem inPhase_tickPhase_of_quiet : inPhase (tickPhase g) := by
  obtain ⟨-, htarget, -, hphase, hinc, -⟩ := h
  rw [tickPhase, tickMod_of_none htarget]
  exact inPhase_phaseAdvance hphase hinc

theorem isZero_tickSample_of_quiet : isZero (tickSample g) = true := by
  obtain ⟨hphase, -⟩ := below_band_of_inPhase (inPhase_tickPhase_of_quiet h)
  obtain ⟨hst, htarget, hwave, -, -, hamp, -⟩ := h
  rw [tickSample, hwave, tickMod_of_none htarget, tickEnv, envNext_idle g.dt hst, wave, fmul_comm]
  exact isZero_fmul_of_isZero (isZero_fmul_posZero hamp) (isFinite_sin32 hphase)

theorem tickCutoff_of_quiet : tickCutoff (tickMod g) g = g.filtCutoff := by
  obtain ⟨-, htarget, -⟩ := h
  exact tickCutoff_of_ne_filter (by simp [htarget])

theorem tickOut_of_quiet : tickOut g = posZero := by
  have hsample := isZero_tickSample_of_quiet h
  rw [tickOut, tickCutoff_of_quiet h]
  obtain ⟨-, -, -, -, -, -, hcut, hprev⟩ := h
  rw [hprev]
  exact filterOut_of_isZero hcut hsample

theorem quietVoice_tickStep : quietVoice (tickStep g).2 := by
  have hphase' := inPhase_tickPhase_of_quiet h
  have hout := tickOut_of_quiet h
  have hcutoff := tickCutoff_of_quiet h
  obtain ⟨hst, htarget, hwave, -, hinc, hamp, hcut, -⟩ := h
  rw [tickStep_eq, envNext_idle g.dt hst, hcutoff]
  exact ⟨rfl, htarget, hwave, hphase', hinc, hamp, hcut, hout⟩

end

theorem quietVoice_reset : quietVoice State.reset.regs := by
  refine ⟨rfl, rfl, rfl, inPhase_posZero, ?_, ?_, ?_, rfl⟩
  · exact ⟨by decide, by decide⟩
  · decide
  · exact ⟨by decide, by decide⟩

/-- Settles O54: the sample into the filter is a zero, so the filter answers +0 and every register of the predicate but
OSC_PHASE is kept. -/
theorem quietVoiceStaysSilent : Obligations.QuietVoiceStaysSilent := by
  refine ⟨quietVoice_reset, fun s h => ⟨_, exec_tick_answered s, ?_, quietVoice_tickStep h⟩⟩
  rw [tickStep_eq, tickOut_of_quiet h, posZero]

end Sys2Proof.Machine
